-- ==== Sys2Proof/Word.lean ====
section
/-! DEFINITION. The value types of the codec: bytes, the integer widths of its fields, and the two fixed-length
byte sequences it uses for addresses (00_scope R7 to R9). -/

namespace Sys2Proof

/-- A byte, 8 bits (00_scope R7). -/
abbrev Byte := BitVec 8

/-- A 16-bit unsigned value: ethertypes, lengths, the cursor (00_scope R7). -/
abbrev Half := BitVec 16

/-- A 32-bit unsigned value: TCP sequence and acknowledgment numbers (10_state R27). -/
abbrev Word := BitVec 32

/-- A sequence of exactly six bytes, `b0` first on the wire: a MAC address (10_state R22). It is a byte sequence and
not an integer, so no byte order applies to it (20_memory R62). -/
structure Bytes6 where
  b0 : Byte
  b1 : Byte
  b2 : Byte
  b3 : Byte
  b4 : Byte
  b5 : Byte
  deriving DecidableEq, Repr, Inhabited

/-- A sequence of exactly four bytes, `b0` first: an IPv4 address (10_state R26), the characters of `PNAME`
(10_state R36). -/
structure Bytes4 where
  b0 : Byte
  b1 : Byte
  b2 : Byte
  b3 : Byte
  deriving DecidableEq, Repr, Inhabited

/-- The bytes of a six-byte sequence, first on the wire first. -/
def Bytes6.toList (m : Bytes6) : List Byte := [m.b0, m.b1, m.b2, m.b3, m.b4, m.b5]

/-- The bytes of a four-byte sequence, first on the wire first. -/
def Bytes4.toList (m : Bytes4) : List Byte := [m.b0, m.b1, m.b2, m.b3]

/-- Six times the same byte. -/
def Bytes6.all (b : Byte) : Bytes6 := ⟨b, b, b, b, b, b⟩

/-- Four times the same byte. -/
def Bytes4.all (b : Byte) : Bytes4 := ⟨b, b, b, b⟩

end Sys2Proof
end

