-- ==== Sys2Proof/Machine/Bytes.lean ====
section
/-! DEFINITION. Byte order, decided once: big-endian assembly and disassembly (00_scope R10, 20_memory R62), and the
fixed-length byte sequences read from lists. -/

namespace Sys2Proof.Machine

/-- `be(s)`: the unsigned integer whose most significant byte is the first byte of `s` (00_scope R10). -/
def be : List Byte → Nat
  | [] => 0
  | b :: rest => b.toNat * 256 ^ rest.length + be rest

/-- `bytes_n(v)`: the `n` bytes of `v`, most significant first (00_scope R10). -/
def bytesOf : Nat → Nat → List Byte
  | 0, _ => []
  | n + 1, v => BitVec.ofNat 8 (v / 256 ^ n) :: bytesOf n v

/-- The big-endian value of a sequence, at a stated width. -/
def beW (w : Nat) (l : List Byte) : BitVec w := BitVec.ofNat w (be l)

/-- `bytes_1` (00_scope R10). -/
def bytes1 (v : Byte) : List Byte := bytesOf 1 v.toNat

/-- `bytes_2` (00_scope R10). -/
def bytes2 (v : Half) : List Byte := bytesOf 2 v.toNat

/-- `bytes_4` (00_scope R10). -/
def bytes4 (v : Word) : List Byte := bytesOf 4 v.toNat

/-- A list of exactly six bytes as a six-byte register value; a list of another length is none (40_ethernet R138). -/
def bytes6? : List Byte → Option Bytes6
  | [b0, b1, b2, b3, b4, b5] => some ⟨b0, b1, b2, b3, b4, b5⟩
  | _ => none

/-- A list of exactly four bytes as a four-byte register value; a list of another length is none (30_encoding R114). -/
def bytes4? : List Byte → Option Bytes4
  | [b0, b1, b2, b3] => some ⟨b0, b1, b2, b3⟩
  | _ => none

end Sys2Proof.Machine
end

