-- ==== Sys2Proof/Config.lean ====
section
/-! DEFINITION. What an implementation fixes (00_scope R6): the parameters, as a structure the rules take as an
argument; the parameters of the machine whose `step` is given; and the constants that are the same on every
implementation (header lengths, ethertypes, address constants). -/

namespace Sys2Proof

/-- The parameters of 00_scope R6 that a rule reads. `PHYS_IF` and `REG_MAP` are read by no rule and have no type in
the spec, so they have no field (log entry 4). -/
structure Config where
  /-- `BUF_CAP`: the largest number of bytes `IBUF` or `OBUF` can hold. -/
  bufCap : Nat
  /-- `DEFAULT_MAC`, the value of `K.DEFAULT_MAC`. -/
  defaultMac : Bytes6
  protoIcmp : Byte
  protoIgmp : Byte
  protoIpip : Byte
  protoTcp  : Byte
  protoUdp  : Byte
  protoEsp  : Byte
  protoAh   : Byte
  protoOspf : Byte
  protoPim  : Byte
  protoVrrp : Byte
  protoIsis : Byte
  deriving DecidableEq, Repr

/-- The eleven protocol numbers, in the order of 30_encoding R107. -/
def Config.protos (c : Config) : List Byte :=
  [c.protoIcmp, c.protoIgmp, c.protoIpip, c.protoTcp, c.protoUdp, c.protoEsp, c.protoAh, c.protoOspf, c.protoPim,
    c.protoVrrp, c.protoIsis]

/-- The constraints 00_scope R6 puts on the parameters: `1028 <= BUF_CAP <= 65535` and the eleven protocol numbers
pairwise distinct. Nothing constrains `DEFAULT_MAC`. -/
def Config.valid (c : Config) : Bool :=
  decide (1028 ≤ c.bufCap) && decide (c.bufCap ≤ 65535) && decide c.protos.Nodup

/-- The default MAC of the machine: the spec names it and gives no value (10_state R37, 91_not_in_source N6), so it
has no body and no claim can rest on one (log entry 3). -/
opaque Config.openDefaultMac : Bytes6

/-- The parameters of the machine whose `step` this package gives: the defaults of 00_scope R6, the protocol numbers
of 30_encoding R107 (PRESUMED: the spec takes them from general knowledge; log entry 2), `BUF_CAP` 2048 (log entry 1)
and the open default MAC. -/
def Config.current : Config where
  bufCap := 2048
  defaultMac := Config.openDefaultMac
  protoIcmp := 1
  protoIgmp := 2
  protoIpip := 4
  protoTcp := 6
  protoUdp := 17
  protoEsp := 50
  protoAh := 51
  protoOspf := 89
  protoPim := 103
  protoVrrp := 112
  protoIsis := 124

/-- `ETH_HLEN` (10_state R22). -/
abbrev ethHlen : Half := 14
/-- `VLAN_HLEN` (10_state R23). -/
abbrev vlanHlen : Half := 4
/-- The fixed part of an ARP message (30_encoding R97). -/
abbrev arpFixed : Half := 8
/-- `IP4_HLEN` (10_state R26). -/
abbrev ip4Hlen : Half := 20
/-- `TCP_HLEN` (10_state R27). -/
abbrev tcpHlen : Half := 20
/-- `UDP_HLEN` (10_state R28). -/
abbrev udpHlen : Half := 8

/-- The ethertype constants of 30_encoding R105. `ipv6Ethertype` is a constant only: no decoder exists for it. -/
abbrev vlanEthertype : Half := 0x8100
abbrev arpEthertype  : Half := 0x0806
abbrev ipv4Ethertype : Half := 0x0800
abbrev ipv6Ethertype : Half := 0x86DD

/-- The operation codes 42_arp R173 names for the host; no rule compares `ARP.OP` with them. -/
abbrev arpRequest : Half := 1
abbrev arpReply   : Half := 2

/-- `K.ZERO_MAC` (10_state R37): "all-zero". -/
def zeroMac : Bytes6 := Bytes6.all 0x00

/-- `K.BCAST_MAC` (10_state R37): six 0xff bytes (the spec marks the value as from general knowledge, G2). -/
def bcastMac : Bytes6 := Bytes6.all 0xff

end Sys2Proof
end

