-- ==== Sys2Proof/Syntax.lean ====
section
/-! DEFINITION. The syntax: the instructions (one constructor per row of spec/opcode_table.json), the formats of the
table, the names of the registers and the lines of a host program (30_encoding R114, R115). -/

namespace Sys2Proof

/-- One constructor per row of spec/opcode_table.json. The first eighteen are the operations of 30_encoding R93 and
`illegal` the default row of the command format (R94). The others are the rows of the second-level tables, the
dispatch values of 30_encoding section 4 and the names of 45_protocol_name R240: a value of the register that a
classify operation (or `PROTO_NAME`) looks up, with the result the row gives (log entry 8). -/
inductive Instr where
  -- format CMD
  | frameDec
  | ethDec
  | ethEnc
  | ethClass
  | vlanDec
  | vlanEnc
  | vlanClass
  | arpDec
  | arpEnc
  | arpClass
  | ip4Dec
  | ip4Enc
  | ip4Class
  | tcpDec
  | tcpEnc
  | udpDec
  | udpEnc
  | protoName
  | illegal (cmd : Byte)
  -- format ETHERTYPE
  | ethertypeVlan
  | ethertypeArp
  | ethertypeIpv4
  | ethertypeIpv6
  | ethertypeOther (t : Half)
  -- format ARPPTYPE
  | arpPtypeIpv4
  | arpPtypeOther (t : Half)
  -- format IPPROTO
  | ipprotoTcp
  | ipprotoUdp
  | ipprotoOther (p : Byte)
  -- format PROTONAME
  | protonameIcmp
  | protonameIgmp
  | protonameIpip
  | protonameTcp
  | protonameUdp
  | protonameEsp
  | protonameAh
  | protonameOspf
  | protonamePim
  | protonameVrrp
  | protonameIsis
  | protonameHex (p : Byte)
  deriving DecidableEq, Repr

/-- The formats of the table (30_encoding R116): the command byte, and one for each second-level table. -/
inductive Format where
  | cmd
  | ethertype
  | arpptype
  | ipproto
  | protoname
  deriving DecidableEq, Repr

/-- The format of an instruction's row. -/
def Instr.format : Instr → Format
  | .frameDec | .ethDec | .ethEnc | .ethClass | .vlanDec | .vlanEnc | .vlanClass | .arpDec | .arpEnc | .arpClass
  | .ip4Dec | .ip4Enc | .ip4Class | .tcpDec | .tcpEnc | .udpDec | .udpEnc | .protoName | .illegal _ => .cmd
  | .ethertypeVlan | .ethertypeArp | .ethertypeIpv4 | .ethertypeIpv6 | .ethertypeOther _ => .ethertype
  | .arpPtypeIpv4 | .arpPtypeOther _ => .arpptype
  | .ipprotoTcp | .ipprotoUdp | .ipprotoOther _ => .ipproto
  | .protonameIcmp | .protonameIgmp | .protonameIpip | .protonameTcp | .protonameUdp | .protonameEsp | .protonameAh
  | .protonameOspf | .protonamePim | .protonameVrrp | .protonameIsis | .protonameHex _ => .protoname

/-- The eight units of 30_encoding R91, which name the source of an error in `STATUS.UNIT` and the high half of a
command byte. -/
inductive CodecUnit where
  | frame
  | eth
  | vlan
  | arp
  | ip4
  | tcp
  | udp
  | pname
  deriving DecidableEq, Repr

/-- The four functions of 30_encoding R90, the low half of a command byte. -/
inductive Func where
  | dec
  | enc
  | cls
  | name
  deriving DecidableEq, Repr

/-- The names a host gives in `SET` and `GET` (30_encoding R114): the 40 record registers, the cursor, and what the
host can only read (10_state, summary table). -/
inductive Reg where
  | ethDst | ethSrc | ethType
  | vlanTc | vlanVid | vlanType
  | arpHtype | arpPtype | arpHlen | arpPlen | arpOp | arpSha | arpSpa | arpTha | arpTpa
  | ip4Ver | ip4Ihl | ip4Tos | ip4Tlen | ip4Id | ip4Flags | ip4Foff | ip4Ttl | ip4Proto | ip4Csum | ip4Src | ip4Dst
  | tcpSport | tcpDport | tcpSeq | tcpAck | tcpDoff | tcpCtrl | tcpWin | tcpCsum | tcpUrg
  | udpSport | udpDport | udpLen | udpCsum
  | cur
  -- read-only for the host
  | arpLen | ibuf | ibufLen | obuf | obufLen
  | statusErr | statusUnit | statusExp | statusAct | statusNbytes | statusLayers | statusClass | statusRaw
  | pnameLen | pnameCh
  | kZeroMac | kBcastMac | kDefaultMac
  deriving DecidableEq, Repr

/-- A value as a host writes it in a `SET` line or reads it with `GET` (30_encoding R114): an unsigned integer of any
size, or a byte sequence. Whether it fits the register is checked by the write (10_state R29). -/
inductive Value where
  | int (v : Nat)
  | bytes (l : List Byte)
  deriving DecidableEq, Repr

/-- One line of a host program (30_encoding R114), `RESET` of 70_reset_and_hazards R300 included. A command line is
its command byte, so that an illegal byte can be issued too. -/
inductive Input where
  | load (bytes : List Byte)
  | set (r : Reg) (v : Value)
  | get (r : Reg)
  | reset
  | cmd (c : Byte)
  deriving DecidableEq, Repr

/-- The pseudo-instructions of 30_encoding R115. -/
inductive Pseudo where
  | isVlan
  | isArp
  | isIpv4
  | arpIsIpv4
  | isTcp
  | isUdp
  | rewind
  deriving DecidableEq, Repr

end Sys2Proof
end

