-- ==== Sys2Proof/WellFormed.lean ====
section
/-! DEFINITION. When an instruction is well formed: the default row of a format stands only for the values that no
other row of that format matches (30_encoding R116). -/

namespace Sys2Proof

/-- The eighteen legal command bytes (30_encoding R93). -/
def legalCmds : List Byte :=
  [0x00, 0x10, 0x11, 0x12, 0x20, 0x21, 0x22, 0x30, 0x31, 0x32, 0x40, 0x41, 0x42, 0x50, 0x51, 0x60, 0x61, 0x73]

/-- The four named ethertypes (30_encoding R105). -/
def namedEthertypes : List Half := [vlanEthertype, arpEthertype, ipv4Ethertype, ipv6Ethertype]

/-- The check: a default row's value is matched by no other row of its format (30_encoding R94, R104, R106, R116;
42_arp R169; 45_protocol_name R242). -/
def Instr.wf (cfg : Config) : Instr → Bool
  | .frameDec | .ethDec | .ethEnc | .ethClass | .vlanDec | .vlanEnc | .vlanClass | .arpDec | .arpEnc | .arpClass
  | .ip4Dec | .ip4Enc | .ip4Class | .tcpDec | .tcpEnc | .udpDec | .udpEnc | .protoName
  | .ethertypeVlan | .ethertypeArp | .ethertypeIpv4 | .ethertypeIpv6 | .arpPtypeIpv4 | .ipprotoTcp | .ipprotoUdp
  | .protonameIcmp | .protonameIgmp | .protonameIpip | .protonameTcp | .protonameUdp | .protonameEsp | .protonameAh
  | .protonameOspf | .protonamePim | .protonameVrrp | .protonameIsis => true
  | .illegal c => !legalCmds.contains c
  | .ethertypeOther t => !namedEthertypes.contains t
  | .arpPtypeOther t => !(t == ipv4Ethertype)
  | .ipprotoOther p => !(p == cfg.protoTcp) && !(p == cfg.protoUdp)
  | .protonameHex p => !cfg.protos.contains p

end Sys2Proof
end

