-- ==== Sys2Proof/Decode.lean ====
section
/-! DEFINITION. Decoding: the command byte (30_encoding R90 to R94) and the second-level tables (R104, R106; 42_arp
R169; 45_protocol_name R240, R242), total on any bytes; then the encoder, written from the same tables. -/

namespace Sys2Proof

open Sys2Proof.Machine (bytesOf be)

/-- Why a sequence of bytes is no instruction. -/
inductive DecodeError where
  /-- There is no byte to decode. -/
  | noCommand
  /-- The sequence has `n` bytes, which is not the length of the format. -/
  | wrongLength (f : Format) (n : Nat)
  deriving DecidableEq, Repr

/-- The unit number: `CMD[7:4]` and `STATUS.UNIT` (30_encoding R91; 10_state R34). -/
def CodecUnit.code : CodecUnit → Nat
  | .frame => 0
  | .eth => 1
  | .vlan => 2
  | .arp => 3
  | .ip4 => 4
  | .tcp => 5
  | .udp => 6
  | .pname => 7

/-- The function number, `CMD[3:0]` (30_encoding R90). -/
def Func.code : Func → Nat
  | .dec => 0
  | .enc => 1
  | .cls => 2
  | .name => 3

/-- The unit that `CMD[7:4]` names; 8 to 15 name nothing (30_encoding R90). -/
def unitOfBits (b : BitVec 4) : Option CodecUnit :=
  match b.toNat with
  | 0 => some .frame
  | 1 => some .eth
  | 2 => some .vlan
  | 3 => some .arp
  | 4 => some .ip4
  | 5 => some .tcp
  | 6 => some .udp
  | 7 => some .pname
  | _ => none

/-- The function that `CMD[3:0]` names; 4 to 15 name nothing (30_encoding R90). -/
def funcOfBits (b : BitVec 4) : Option Func :=
  match b.toNat with
  | 0 => some .dec
  | 1 => some .enc
  | 2 => some .cls
  | 3 => some .name
  | _ => none

/-- The operation of a unit and a function, where 30_encoding R93 has one. -/
def opOf : CodecUnit → Func → Option Instr
  | .frame, .dec => some .frameDec
  | .eth, .dec => some .ethDec
  | .eth, .enc => some .ethEnc
  | .eth, .cls => some .ethClass
  | .vlan, .dec => some .vlanDec
  | .vlan, .enc => some .vlanEnc
  | .vlan, .cls => some .vlanClass
  | .arp, .dec => some .arpDec
  | .arp, .enc => some .arpEnc
  | .arp, .cls => some .arpClass
  | .ip4, .dec => some .ip4Dec
  | .ip4, .enc => some .ip4Enc
  | .ip4, .cls => some .ip4Class
  | .tcp, .dec => some .tcpDec
  | .tcp, .enc => some .tcpEnc
  | .udp, .dec => some .udpDec
  | .udp, .enc => some .udpEnc
  | .pname, .name => some .protoName
  | _, _ => none

/-- The command decoder: `CMD[7:4]` is the unit, `CMD[3:0]` the function (30_encoding R90, R93); every other value is
the default row, the illegal command (R94). -/
def decodeCmd (c : Byte) : Instr :=
  match unitOfBits (c.extractLsb' 4 4), funcOfBits (c.extractLsb' 0 4) with
  | some u, some f => (opOf u f).getD (.illegal c)
  | _, _ => .illegal c

/-- The row of the ETHERTYPE table that a value selects (30_encoding R104, R105). -/
def decodeEthertype (t : Half) : Instr :=
  if t = vlanEthertype then .ethertypeVlan
  else if t = arpEthertype then .ethertypeArp
  else if t = ipv4Ethertype then .ethertypeIpv4
  else if t = ipv6Ethertype then .ethertypeIpv6
  else .ethertypeOther t

/-- The row of the ARPPTYPE table that a value selects (42_arp R169). -/
def decodeArpPtype (t : Half) : Instr :=
  if t = ipv4Ethertype then .arpPtypeIpv4 else .arpPtypeOther t

/-- The row of the IPPROTO table that a value selects (30_encoding R106). -/
def decodeIpproto (cfg : Config) (p : Byte) : Instr :=
  if p = cfg.protoTcp then .ipprotoTcp
  else if p = cfg.protoUdp then .ipprotoUdp
  else .ipprotoOther p

/-- The row of the PROTONAME table that a value selects (45_protocol_name R240, R242). -/
def decodeProtoname (cfg : Config) (p : Byte) : Instr :=
  if p = cfg.protoIcmp then .protonameIcmp
  else if p = cfg.protoIgmp then .protonameIgmp
  else if p = cfg.protoIpip then .protonameIpip
  else if p = cfg.protoTcp then .protonameTcp
  else if p = cfg.protoUdp then .protonameUdp
  else if p = cfg.protoEsp then .protonameEsp
  else if p = cfg.protoAh then .protonameAh
  else if p = cfg.protoOspf then .protonameOspf
  else if p = cfg.protoPim then .protonamePim
  else if p = cfg.protoVrrp then .protonameVrrp
  else if p = cfg.protoIsis then .protonameIsis
  else .protonameHex p

/-- The decoder of one format: a command is one byte, a 16-bit dispatch value is two bytes, most significant first
(20_memory R62), an 8-bit one is one byte. A sequence of another length is rejected by name. -/
def decodeIn (cfg : Config) : Format → List Byte → Except DecodeError Instr
  | .cmd, [c] => .ok (decodeCmd c)
  | .ethertype, [a, b] => .ok (decodeEthertype (BitVec.ofNat 16 (be [a, b])))
  | .arpptype, [a, b] => .ok (decodeArpPtype (BitVec.ofNat 16 (be [a, b])))
  | .ipproto, [p] => .ok (decodeIpproto cfg p)
  | .protoname, [p] => .ok (decodeProtoname cfg p)
  | f, bs => .error (.wrongLength f bs.length)

/-- The decoder of a command stream: "The encoding of a program is the sequence of its CMD bytes" (30_encoding R114).
It takes one command and gives the rest back. -/
def decode : List Byte → Except DecodeError (Instr × List Byte)
  | [] => .error .noCommand
  | c :: rest => .ok (decodeCmd c, rest)

/-- The number of bytes of a format (30_encoding R90, R116). -/
def Format.nbytes : Format → Nat
  | .cmd => 1
  | .ethertype => 2
  | .arpptype => 2
  | .ipproto => 1
  | .protoname => 1

/-- `CMD` equals `unit * 16 + func` (30_encoding R93). -/
def cmdOf (u : CodecUnit) (f : Func) : Nat := u.code * 16 + f.code

/-- The number an instruction's row has in its format: the command byte (30_encoding R93), or the dispatch value. -/
def encodeWord (cfg : Config) : Instr → Nat
  | .frameDec => cmdOf .frame .dec
  | .ethDec => cmdOf .eth .dec
  | .ethEnc => cmdOf .eth .enc
  | .ethClass => cmdOf .eth .cls
  | .vlanDec => cmdOf .vlan .dec
  | .vlanEnc => cmdOf .vlan .enc
  | .vlanClass => cmdOf .vlan .cls
  | .arpDec => cmdOf .arp .dec
  | .arpEnc => cmdOf .arp .enc
  | .arpClass => cmdOf .arp .cls
  | .ip4Dec => cmdOf .ip4 .dec
  | .ip4Enc => cmdOf .ip4 .enc
  | .ip4Class => cmdOf .ip4 .cls
  | .tcpDec => cmdOf .tcp .dec
  | .tcpEnc => cmdOf .tcp .enc
  | .udpDec => cmdOf .udp .dec
  | .udpEnc => cmdOf .udp .enc
  | .protoName => cmdOf .pname .name
  | .illegal c => c.toNat
  | .ethertypeVlan => 0x8100
  | .ethertypeArp => 0x0806
  | .ethertypeIpv4 => 0x0800
  | .ethertypeIpv6 => 0x86DD
  | .ethertypeOther t => t.toNat
  | .arpPtypeIpv4 => 0x0800
  | .arpPtypeOther t => t.toNat
  | .ipprotoTcp => cfg.protoTcp.toNat
  | .ipprotoUdp => cfg.protoUdp.toNat
  | .ipprotoOther p => p.toNat
  | .protonameIcmp => cfg.protoIcmp.toNat
  | .protonameIgmp => cfg.protoIgmp.toNat
  | .protonameIpip => cfg.protoIpip.toNat
  | .protonameTcp => cfg.protoTcp.toNat
  | .protonameUdp => cfg.protoUdp.toNat
  | .protonameEsp => cfg.protoEsp.toNat
  | .protonameAh => cfg.protoAh.toNat
  | .protonameOspf => cfg.protoOspf.toNat
  | .protonamePim => cfg.protoPim.toNat
  | .protonameVrrp => cfg.protoVrrp.toNat
  | .protonameIsis => cfg.protoIsis.toNat
  | .protonameHex p => p.toNat

/-- The encoder: the bytes of an instruction, most significant first. -/
def encode (cfg : Config) (i : Instr) : List Byte := bytesOf i.format.nbytes (encodeWord cfg i)

/-- What the decoder reads from a table word. A word of 8 bits is a command byte and a word of 16 bits an ethertype:
the other formats share those widths and their words, and the format is not part of the word (log entry 9). -/
def decodeTableWord (nbits w : Nat) : Option Instr :=
  match nbits with
  | 8 => if w < 256 then (decodeIn Config.current .cmd (bytesOf 1 w)).toOption else none
  | 16 => if w < 65536 then (decodeIn Config.current .ethertype (bytesOf 2 w)).toOption else none
  | _ => none

end Sys2Proof
end

