-- ==== Sys2Proof/Machine/State.lean ====
section
/-! DEFINITION. The state of one instance (10_state R20): six header records, the cursor, two buffers, the status
register and the name register, and the list of host inputs still to come; the reset state; why a step can stop. -/

namespace Sys2Proof.Machine

/-- Why the machine stops with a fault. -/
inductive Fault where
  /-- A `MemRead` met an index at which `IBUF` holds no byte (20_memory R61). Raised by the checked reads of the decode
  operations. Safe: 20_memory R64 says no rule ever does this, and in every state that meets `State.Inv` none does. -/
  | noSuchByte
  deriving DecidableEq, Repr

/-- Why the machine refuses an input. -/
inductive Refusal where
  /-- The instruction has no meaning in this model. Raised by no arm: every row has its meaning. Safe. -/
  | notModelled (mnemonic : String)
  /-- A `LOAD` of more bytes than `BUF_CAP` (10_state R31, 30_encoding R114). Raised by the host port. Safe. -/
  | loadTooLong
  /-- A `SET` of a register the host can only read (10_state R33, R36, R37). Raised by the host port. Safe. -/
  | setReadOnly
  /-- A `SET` of a value that is not of exactly the register's width (10_state R29; 41_vlan R156: "must reject it at
  the `SET`, as a refusal"). Raised by the host port. Safe. -/
  | setDoesNotFit
  deriving DecidableEq, Repr

/-- A byte buffer: cells in rising order of address, none twice. An address that no cell lists holds no byte
(20_memory R61). -/
structure Memory where
  cells : List Host.Cell
  deriving DecidableEq, Repr

/-- The record `ETH` (10_state R22). -/
structure EthRec where
  dst  : Bytes6
  src  : Bytes6
  type : Half
  deriving DecidableEq, Repr

/-- The record `VLAN` (10_state R23). -/
structure VlanRec where
  tc   : BitVec 4
  vid  : BitVec 12
  type : Half
  deriving DecidableEq, Repr

/-- The record `ARP` (10_state R24). The four addresses are byte sequences with a length of their own, 0 to 255. -/
structure ArpRec where
  htype : Half
  ptype : Half
  hlen  : Byte
  plen  : Byte
  op    : Half
  sha   : List Byte
  spa   : List Byte
  tha   : List Byte
  tpa   : List Byte
  deriving DecidableEq, Repr

/-- The record `IP4` (10_state R26). -/
structure Ip4Rec where
  ver   : BitVec 4
  ihl   : BitVec 4
  tos   : Byte
  tlen  : Half
  id    : Half
  flags : BitVec 3
  foff  : BitVec 13
  ttl   : Byte
  proto : Byte
  csum  : Half
  src   : Bytes4
  dst   : Bytes4
  deriving DecidableEq, Repr

/-- The record `TCP` (10_state R27). -/
structure TcpRec where
  sport : Half
  dport : Half
  seq   : Word
  ack   : Word
  doff  : Byte
  ctrl  : Byte
  win   : Half
  csum  : Half
  urg   : Half
  deriving DecidableEq, Repr

/-- The record `UDP` (10_state R28). -/
structure UdpRec where
  sport : Half
  dport : Half
  len   : Half
  csum  : Half
  deriving DecidableEq, Repr

/-- The error kinds (10_state R34, 60_exceptions R270). Codes 6 and 7 are never produced and have no constructor;
`malformedLength` has its code and no step produces it (60_exceptions R273). -/
inductive ErrKind where
  | none
  | tooShort
  | unsupportedVersion
  | malformedLength
  | addrLenMismatch
  | illegalOp
  deriving DecidableEq, Repr

/-- The classes (10_state R34): all eight values of the three-bit field. -/
inductive FrameClass where
  | noClass
  | vlan
  | arp
  | ipv4
  | unknownEther
  | tcp
  | udp
  | otherProto
  deriving DecidableEq, Repr

/-- The register `STATUS` (10_state R33). -/
structure Status where
  err    : ErrKind
  unit   : CodecUnit
  exp    : Half
  act    : Half
  nbytes : Half
  layers : BitVec 6
  cls    : FrameClass
  raw    : Half
  deriving DecidableEq, Repr

/-- The register `PNAME` (10_state R36). -/
structure Pname where
  len : BitVec 3
  ch  : Bytes4
  deriving DecidableEq, Repr

/-- The complete state (10_state R20). `inbox` is the model's own field: the inputs the host has still to give, first
first, of which each step takes one (30_encoding R114, 20_memory R70; log entry 5). -/
structure State where
  eth    : EthRec
  vlan   : VlanRec
  arp    : ArpRec
  ip4    : Ip4Rec
  tcp    : TcpRec
  udp    : UdpRec
  cur    : Half
  ibuf   : Memory
  obuf   : Memory
  status : Status
  pname  : Pname
  inbox  : List Input
  deriving DecidableEq, Repr

/-- The outcome of a step or of an instruction. -/
abbrev Result := Host.Outcome State Fault Refusal

/-- The state after reset (10_state R39, 70_reset_and_hazards R300). The spec gives every register its value; the
model's own field `inbox` is empty (log entry 5). -/
def State.reset : State where
  eth := { dst := Bytes6.all 0, src := Bytes6.all 0, type := 0 }
  vlan := { tc := 0, vid := 0, type := 0 }
  arp := { htype := 0, ptype := 0, hlen := 0, plen := 0, op := 0, sha := [], spa := [], tha := [], tpa := [] }
  ip4 :=
    { ver := 0, ihl := 0, tos := 0, tlen := 0, id := 0, flags := 0, foff := 0, ttl := 0, proto := 0, csum := 0
      src := Bytes4.all 0, dst := Bytes4.all 0 }
  tcp := { sport := 0, dport := 0, seq := 0, ack := 0, doff := 0, ctrl := 0, win := 0, csum := 0, urg := 0 }
  udp := { sport := 0, dport := 0, len := 0, csum := 0 }
  cur := 0
  ibuf := ⟨[]⟩
  obuf := ⟨[]⟩
  status :=
    { err := .none, unit := .frame, exp := 0, act := 0, nbytes := 0, layers := 0, cls := .noClass, raw := 0 }
  pname := { len := 0, ch := Bytes4.all 0 }
  inbox := []

end Sys2Proof.Machine
end

