-- ==== Sys2Proof/Machine/Flags.lean ====
section
/-! DEFINITION. The status register and the classifications it reports. The hardware has no condition codes (10_state
R41): `STATUS` is its only status, and these are all the computations that fill it. -/

namespace Sys2Proof.Machine

/-- The code of `STATUS.ERR` (10_state R34). -/
def ErrKind.code : ErrKind → BitVec 3
  | .none => 0
  | .tooShort => 1
  | .unsupportedVersion => 2
  | .malformedLength => 3
  | .addrLenMismatch => 4
  | .illegalOp => 5

/-- The code of `STATUS.CLASS` (10_state R34). -/
def FrameClass.code : FrameClass → BitVec 3
  | .noClass => 0
  | .vlan => 1
  | .arp => 2
  | .ipv4 => 3
  | .unknownEther => 4
  | .tcp => 5
  | .udp => 6
  | .otherProto => 7

/-- The bit of `STATUS.LAYERS` that belongs to a unit: bit `u - 1` for `u` from 1 to 6 (10_state R34). The units 0 and 7
decode no record and have no bit. -/
def layerBit : CodecUnit → BitVec 6
  | .frame => 0b000000
  | .eth => 0b000001
  | .vlan => 0b000010
  | .arp => 0b000100
  | .ip4 => 0b001000
  | .tcp => 0b010000
  | .udp => 0b100000
  | .pname => 0b000000

/-- `status(err, unit, exp, act, nbytes, layers, class, raw)`: all eight fields at once (10_state R35). -/
def State.writeStatus (s : State) (st : Status) : State := { s with status := st }

/-- The value the short form `status_ok(nbytes, layers, class, raw)` writes (10_state R35). -/
def okStatus (nbytes : Half) (layers : BitVec 6) (cls : FrameClass) (raw : Half) : Status :=
  { err := .none, unit := .frame, exp := 0, act := 0, nbytes := nbytes, layers := layers, cls := cls, raw := raw }

/-- `status_ok(nbytes, layers, class, raw)` (10_state R35). -/
def State.statusOk (s : State) (nbytes : Half) (layers : BitVec 6) (cls : FrameClass) (raw : Half) : State :=
  s.writeStatus (okStatus nbytes layers cls raw)

/-- `classify_ethertype(t)` (30_encoding R104). -/
def classifyEthertype (t : Half) : FrameClass × Half :=
  if t = vlanEthertype then (.vlan, t)
  else if t = arpEthertype then (.arp, t)
  else if t = ipv4Ethertype then (.ipv4, t)
  else (.unknownEther, t)

/-- `isVlan` of 30_encoding R104 and 40_ethernet R135. -/
def isVlan (t : Half) : Bool := t == vlanEthertype

/-- `isArp` of 30_encoding R104 and 40_ethernet R135. -/
def isArp (t : Half) : Bool := t == arpEthertype

/-- `isIPv4` of 30_encoding R104 and 40_ethernet R135. -/
def isIpv4 (t : Half) : Bool := t == ipv4Ethertype

/-- `classify_proto(p)` (30_encoding R106). -/
def classifyProto (cfg : Config) (p : Byte) : FrameClass × Half :=
  if p = cfg.protoTcp then (.tcp, p.setWidth 16)
  else if p = cfg.protoUdp then (.udp, p.setWidth 16)
  else (.otherProto, p.setWidth 16)

/-- `arp_is_ipv4(r)` of 42_arp R169: the protocol type is the IPv4 ethertype value. -/
def arpIsIpv4 (r : ArpRec) : Bool := r.ptype == ipv4Ethertype

/-- The class `ARP_CLASS` reports. It does not use `classify_ethertype` (42_arp R169). -/
def classifyArpPtype (r : ArpRec) : FrameClass × Half :=
  (if arpIsIpv4 r then .ipv4 else .unknownEther, r.ptype)

/-- The decode that follows a class (46_frame_dispatch R250; the table's `next_decode` column). -/
def FrameClass.nextDecode : FrameClass → Option Instr
  | .noClass => none
  | .vlan => some .vlanDec
  | .arp => some .arpDec
  | .ipv4 => some .ip4Dec
  | .unknownEther => none
  | .tcp => some .tcpDec
  | .udp => some .udpDec
  | .otherProto => none

end Sys2Proof.Machine
end

