-- ==== Sys2Proof/Machine/Ops.lean ====
section
/-! DEFINITION. The shared operations: the two buffers byte by byte, the checked reads of a decode, the output an encode
builds, and the end of an operation, by success or by an error. Taking an error (60_exceptions R276) is the one
operation `raiseError`. There is nothing to return from (60_exceptions R282): an error saves no state and changes no
mode, so no operation stands beside it. -/

namespace Sys2Proof.Machine

/-! ### Buffers -/

/-- The number of bytes a buffer holds: `IBUF_LEN`, `OBUF_LEN` (10_state R31, R32). -/
def Memory.len (m : Memory) : Nat := m.cells.length

/-- The bytes of a buffer in rising order of address, as the host reads it. -/
def Memory.bytes (m : Memory) : List Byte := m.cells.map Prod.snd

/-- The byte at an address. An address no cell lists holds no byte: "no value (zero or otherwise) may be assumed for
it" (20_memory R61). -/
def Memory.readByte (m : Memory) (a : Nat) : Option Byte :=
  (m.cells.find? fun c => c.1 == a).map Prod.snd

/-- The `n` bytes at `a`, `a + 1`, …; none if one of them is absent. -/
def Memory.readBytes (m : Memory) (a : Nat) : Nat → Option (List Byte)
  | 0 => some []
  | n + 1 =>
    match m.readByte a, m.readBytes (a + 1) n with
    | some b, some l => some (b :: l)
    | _, _ => none

/-- The cells of a byte sequence laid out from an address on. -/
def cellsFrom (a : Nat) : List Byte → List Host.Cell
  | [] => []
  | b :: rest => (a, b) :: cellsFrom (a + 1) rest

/-- A whole buffer written from a byte sequence: the first byte at address 0 (10_state R31, R32). -/
def Memory.ofBytes (l : List Byte) : Memory := ⟨cellsFrom 0 l⟩

/-- The addresses of a list of cells are `a`, `a + 1`, … in order. -/
def risingFrom (a : Nat) : List Host.Cell → Bool
  | [] => true
  | c :: rest => c.1 == a && risingFrom (a + 1) rest

/-- The canonical form of a buffer: exactly the addresses 0 to `len - 1` are listed, in order (20_memory R61). An
unlisted address holds no byte, so no entry can equal what it reads as. -/
def Memory.wf (m : Memory) : Bool := risingFrom 0 m.cells

/-! ### The view of a decode -/

/-- `avail` (20_memory R63): the bytes from the cursor on; 0 when the cursor is beyond the end, since subtraction of
natural numbers stops at 0. -/
def State.avail (s : State) : Nat := s.ibuf.len - s.cur.toNat

/-- The view `IBUF[pc .. len(IBUF))` (20_memory R63). -/
def State.view (s : State) : List Byte := s.ibuf.bytes.drop s.cur.toNat

/-- The address `pc + offset` (30_encoding R112). Exact: 30_encoding R112 says the 16-bit sum does not wrap (log
entry 7). -/
def State.pcAt (s : State) (offset : Nat) : Nat := s.cur.toNat + offset

/-- `MemReadBytes(addr, n)` (00_scope R11). -/
def State.memReadBytes (s : State) (addr n : Nat) : Option (List Byte) := s.ibuf.readBytes addr n

/-- `MemRead(addr, 1)` (00_scope R11). -/
def State.memRead1 (s : State) (addr : Nat) : Option Byte := (s.memReadBytes addr 1).map (beW 8)

/-- `MemRead(addr, 2)`, big-endian (00_scope R11, 20_memory R62). -/
def State.memRead2 (s : State) (addr : Nat) : Option Half := (s.memReadBytes addr 2).map (beW 16)

/-- `MemRead(addr, 4)`, big-endian (00_scope R11, 20_memory R62). -/
def State.memRead4 (s : State) (addr : Nat) : Option Word := (s.memReadBytes addr 4).map (beW 32)

/-- `MemReadBytes(addr, 6)` as the value of a six-byte register. -/
def State.memReadMac (s : State) (addr : Nat) : Option Bytes6 := (s.memReadBytes addr 6).bind bytes6?

/-- `MemReadBytes(addr, 4)` as the value of a four-byte register. -/
def State.memReadIp (s : State) (addr : Nat) : Option Bytes4 := (s.memReadBytes addr 4).bind bytes4?

/-! ### The output of an encode -/

/-- `new(n)` (00_scope R11): a fresh sequence of `n` bytes. Every rule fills it completely, so what it holds first is
never seen; the model takes zeros (log entry 6). -/
def newOut (n : Nat) : List Byte := List.replicate n 0

/-- `MemWriteBytes(addr, s)` (00_scope R11): `out[addr .. addr+len(s)) <- s`. -/
def memWriteBytes (addr : Nat) (bs : List Byte) (out : List Byte) : List Byte :=
  out.take addr ++ bs ++ out.drop (addr + bs.length)

/-- `MemWrite(addr, 1, v)` (00_scope R11). -/
def memWrite1 (addr : Nat) (v : Byte) (out : List Byte) : List Byte := memWriteBytes addr (bytes1 v) out

/-- `MemWrite(addr, 2, v)`, big-endian (00_scope R11, 20_memory R62). -/
def memWrite2 (addr : Nat) (v : Half) (out : List Byte) : List Byte := memWriteBytes addr (bytes2 v) out

/-- `MemWrite(addr, 4, v)`, big-endian (00_scope R11, 20_memory R62). -/
def memWrite4 (addr : Nat) (v : Word) (out : List Byte) : List Byte := memWriteBytes addr (bytes4 v) out

/-- `OBUF <- out` (00_scope R11, 20_memory R75): the output buffer becomes exactly the sequence. -/
def State.writeObuf (s : State) (out : List Byte) : State := { s with obuf := Memory.ofBytes out }

/-- The end of a successful encode: `OBUF <- out`, then `status_ok(nbytes, 0, NoClass, 0)`. -/
def encoded (out : List Byte) (nbytes : Half) (s : State) : Result :=
  .next ((s.writeObuf out).statusOk nbytes 0 .noClass 0)

/-! ### The end of an operation -/

/-- What an operation has done so far: the accumulated `NBYTES`, `LAYERS`, `CLASS` and `RAW` of 46_frame_dispatch R251.
A single-layer operation starts and fails with all of them 0. -/
structure Walk where
  nbytes : Half
  layers : BitVec 6
  cls    : FrameClass
  raw    : Half
  deriving DecidableEq, Repr

/-- Nothing done yet. -/
def Walk.start : Walk := { nbytes := 0, layers := 0, cls := .noClass, raw := 0 }

/-- One more layer decoded (46_frame_dispatch R251). -/
def Walk.decoded (w : Walk) (u : CodecUnit) (n : Half) : Walk :=
  { w with nbytes := w.nbytes + n, layers := w.layers ||| layerBit u }

/-- A classification made (46_frame_dispatch R251). -/
def Walk.classified (w : Walk) (c : FrameClass × Half) : Walk := { w with cls := c.1, raw := c.2 }

/-- Error entry (60_exceptions R276): `raise K(exp, act)` in unit `u`. The operation ends; `STATUS` takes the error and
what was accumulated; nothing else changes, and control goes nowhere. -/
def raiseError (u : CodecUnit) (k : ErrKind) (exp act : Half) (w : Walk) (s : State) : Result :=
  .next (s.writeStatus
    { err := k, unit := u, exp := exp, act := act, nbytes := w.nbytes, layers := w.layers, cls := w.cls, raw := w.raw })

/-- The successful end of an operation: `status_ok` of what was accumulated. -/
def finish (w : Walk) (s : State) : Result := .next (s.statusOk w.nbytes w.layers w.cls w.raw)

/-- What the body of a decode does without its `status(...)` write ("layer X" of 46_frame_dispatch R251). -/
inductive LayerOut where
  /-- The record is written and the cursor advanced by `consumed`. -/
  | decoded (s : State) (consumed : Half)
  /-- The body raised an error, with the state it leaves. -/
  | raised (s : State) (k : ErrKind) (exp act : Half)
  /-- A read met an absent byte. -/
  | stopped (f : Fault)
  deriving DecidableEq, Repr

/-- `if avail < need: raise TooShort(need, avail)`, else go on (60_exceptions R271, R277). -/
def needBytes (need : Half) (s : State) (body : LayerOut) : LayerOut :=
  if s.avail < need.toNat then .raised s .tooShort need (BitVec.ofNat 16 s.avail) else body

/-- Go on with what was read; a read of an absent byte stops the machine (20_memory R61, R64). -/
def withRead {α : Type} (r : Option α) (body : α → LayerOut) : LayerOut :=
  match r with
  | some a => body a
  | none => .stopped .noSuchByte

/-- Run a layer, then go on: a decoded layer is added to what was accumulated, an error ends the operation with the
values accumulated before it (46_frame_dispatch R251, 60_exceptions R276). -/
def andThen (u : CodecUnit) (w : Walk) (o : LayerOut) (k : Walk → State → Result) : Result :=
  match o with
  | .decoded s n => k (w.decoded u n) s
  | .raised s e exp act => raiseError u e exp act w s
  | .stopped f => .fault f

/-- A single-layer decode: the layer, then its `status_ok(consumed, bit, NoClass, 0)`. -/
def singleDecode (u : CodecUnit) (o : LayerOut) : Result := andThen u Walk.start o finish

/-- The pure errors of the codecs as functions (00_scope R12): what a `parse` or a `build` raises. `expected` and
`actual` are exact lengths; the status register holds them in 16 bits. -/
inductive CodecError where
  | tooShort (expected actual : Nat)
  | unsupportedVersion (rejected : Ip4Rec)
  | addrLenMismatch (expected actual : Nat)
  deriving DecidableEq, Repr

end Sys2Proof.Machine
end

