-- ==== Sys2Proof/Machine/Arp.lean ====
section
/-! DEFINITION. The ArpMessage codec (42_arp): the pure functions, then ARP_DEC, ARP_ENC, ARP_CLASS. -/

namespace Sys2Proof.Machine

/-- `total = 8 + 2 * (zext_16(hwlen) + zext_16(protolen))`, in 16 bits (30_encoding R111); also the view `ARP.LEN`
(10_state R25). -/
def arpTotal (hlen plen : Byte) : Half := 8 + 2 * (hlen.setWidth 16 + plen.setWidth 16)

/-- `arp_parse(v)` (42_arp R165), with the order of the checks of R170: eight bytes before any read, the total before
any address is cut. -/
def arpParse (v : List Byte) : Except CodecError (ArpRec × Nat) :=
  match v with
  | a0 :: a1 :: p0 :: p1 :: hlen :: plen :: o0 :: o1 :: rest =>
    let h := hlen.toNat
    let p := plen.toNat
    let total := (arpTotal hlen plen).toNat
    if v.length < total then .error (.tooShort total v.length)
    else
      .ok
        ({ htype := beW 16 [a0, a1], ptype := beW 16 [p0, p1], hlen := hlen, plen := plen, op := beW 16 [o0, o1]
           sha := rest.take h
           spa := (rest.drop h).take p
           tha := (rest.drop (h + p)).take h
           tpa := (rest.drop (2 * h + p)).take p }, total)
  | _ => .error (.tooShort 8 v.length)

/-- `arp_build(r)` (42_arp R167). -/
def arpBuild (r : ArpRec) : Except CodecError (List Byte) :=
  if r.sha.length ≠ r.hlen.toNat then .error (.addrLenMismatch r.hlen.toNat r.sha.length)
  else if r.spa.length ≠ r.plen.toNat then .error (.addrLenMismatch r.plen.toNat r.spa.length)
  else if r.tha.length ≠ r.hlen.toNat then .error (.addrLenMismatch r.hlen.toNat r.tha.length)
  else if r.tpa.length ≠ r.plen.toNat then .error (.addrLenMismatch r.plen.toNat r.tpa.length)
  else
    .ok (bytes2 r.htype ++ bytes2 r.ptype ++ bytes1 r.hlen ++ bytes1 r.plen ++ bytes2 r.op ++ r.sha ++ r.spa ++ r.tha
      ++ r.tpa)

/-- A record is a syntactically valid header value (42_arp R171). -/
def ArpRec.valid (r : ArpRec) : Bool :=
  r.sha.length == r.hlen.toNat && r.tha.length == r.hlen.toNat && r.spa.length == r.plen.toNat
    && r.tpa.length == r.plen.toNat

/-- The two length bytes, read between the two checks (42_arp R166). -/
def readArpLens (s : State) : Option (Byte × Byte) := do
  let hlen ← s.memRead1 (s.pcAt 4)
  let plen ← s.memRead1 (s.pcAt 5)
  return (hlen, plen)

/-- The reads after both checks (42_arp R166, 30_encoding R97). -/
def readArp (s : State) (h p : Nat) : Option ArpRec := do
  let htype ← s.memRead2 (s.pcAt 0)
  let ptype ← s.memRead2 (s.pcAt 2)
  let hlen ← s.memRead1 (s.pcAt 4)
  let plen ← s.memRead1 (s.pcAt 5)
  let op ← s.memRead2 (s.pcAt 6)
  let sha ← s.memReadBytes (s.pcAt 8) h
  let spa ← s.memReadBytes (s.pcAt (8 + h)) p
  let tha ← s.memReadBytes (s.pcAt (8 + h + p)) h
  let tpa ← s.memReadBytes (s.pcAt (8 + 2 * h + p)) p
  return { htype := htype, ptype := ptype, hlen := hlen, plen := plen, op := op, sha := sha, spa := spa, tha := tha,
           tpa := tpa }

/-- The body of ARP_DEC (42_arp R166, R170): no register of the record is written until both checks have passed. -/
def layerArp (s : State) : LayerOut :=
  needBytes arpFixed s <| withRead (readArpLens s) fun (hlen, plen) =>
    needBytes (arpTotal hlen plen) s <| withRead (readArp s hlen.toNat plen.toNat) fun r =>
      .decoded { s with arp := r, cur := s.cur + arpTotal hlen plen } (arpTotal hlen plen)

/-- ARP_DEC (42_arp R166). -/
def execArpDec (s : State) : Result := singleDecode .arp (layerArp s)

/-- The output of ARP_ENC when every length is right (42_arp R168, 30_encoding R97). -/
def arpOut (r : ArpRec) : List Byte :=
  let h := r.hlen.toNat
  let p := r.plen.toNat
  newOut (arpTotal r.hlen r.plen).toNat |> memWrite2 0 r.htype |> memWrite2 2 r.ptype |> memWrite1 4 r.hlen
    |> memWrite1 5 r.plen |> memWrite2 6 r.op |> memWriteBytes 8 r.sha |> memWriteBytes (8 + h) r.spa
    |> memWriteBytes (8 + h + p) r.tha |> memWriteBytes (8 + 2 * h + p) r.tpa

/-- One length check of ARP_ENC: `if len(a) != n: raise AddrLenMismatch(n, len(a))` (42_arp R168). -/
def checkAddr (declared : Byte) (addr : List Byte) (s : State) (body : Result) : Result :=
  if addr.length ≠ declared.toNat then
    raiseError .arp .addrLenMismatch (declared.setWidth 16) (BitVec.ofNat 16 addr.length) Walk.start s
  else body

/-- ARP_ENC (42_arp R168): the four checks in wire order, then the output. -/
def execArpEnc (s : State) : Result :=
  checkAddr s.arp.hlen s.arp.sha s <| checkAddr s.arp.plen s.arp.spa s <| checkAddr s.arp.hlen s.arp.tha s <|
    checkAddr s.arp.plen s.arp.tpa s <| encoded (arpOut s.arp) (arpTotal s.arp.hlen s.arp.plen) s

/-- ARP_CLASS (42_arp R169). -/
def execArpClass (s : State) : Result := finish (Walk.start.classified (classifyArpPtype s.arp)) s

end Sys2Proof.Machine
end

