-- ==== Sys2Proof/Machine/Ethernet.lean ====
section
/-! DEFINITION. The EtherFrame codec (40_ethernet): the pure functions, then ETH_DEC, ETH_ENC, ETH_CLASS. -/

namespace Sys2Proof.Machine

/-- `eth_parse(v)` (40_ethernet R130). -/
def ethParse (v : List Byte) : Except CodecError (EthRec × Nat) :=
  match v with
  | d0 :: d1 :: d2 :: d3 :: d4 :: d5 :: s0 :: s1 :: s2 :: s3 :: s4 :: s5 :: t0 :: t1 :: _ =>
    .ok ({ dst := ⟨d0, d1, d2, d3, d4, d5⟩, src := ⟨s0, s1, s2, s3, s4, s5⟩, type := beW 16 [t0, t1] }, 14)
  | _ => .error (.tooShort 14 v.length)

/-- `eth_build(r)` (40_ethernet R132). -/
def ethBuild (r : EthRec) : List Byte := r.dst.toList ++ r.src.toList ++ bytes2 r.type

/-- The reads of ETH_DEC (40_ethernet R131, 30_encoding R95). -/
def readEth (s : State) : Option EthRec := do
  let dst ← s.memReadMac (s.pcAt 0)
  let src ← s.memReadMac (s.pcAt 6)
  let type ← s.memRead2 (s.pcAt 12)
  return { dst := dst, src := src, type := type }

/-- The body of ETH_DEC (40_ethernet R131). -/
def layerEth (s : State) : LayerOut :=
  needBytes ethHlen s <| withRead (readEth s) fun r =>
    .decoded { s with eth := r, cur := s.cur + ethHlen } ethHlen

/-- ETH_DEC (40_ethernet R131). -/
def execEthDec (s : State) : Result := singleDecode .eth (layerEth s)

/-- The output of ETH_ENC (40_ethernet R133, 30_encoding R95). -/
def ethOut (r : EthRec) : List Byte :=
  newOut 14 |> memWriteBytes 0 r.dst.toList |> memWriteBytes 6 r.src.toList |> memWrite2 12 r.type

/-- ETH_ENC (40_ethernet R133). -/
def execEthEnc (s : State) : Result := encoded (ethOut s.eth) ethHlen s

/-- ETH_CLASS (40_ethernet R134). -/
def execEthClass (s : State) : Result := finish (Walk.start.classified (classifyEthertype s.eth.type)) s

end Sys2Proof.Machine
end

