-- ==== Sys2Proof/Machine/Ipv4.lean ====
section
/-! DEFINITION. The Ipv4Header codec (43_ipv4): the pure functions, then IP4_DEC, IP4_ENC, IP4_CLASS. -/

namespace Sys2Proof.Machine

/-- `b[7:4]`, the version nibble (30_encoding R102). -/
def ip4VerOf (b : Byte) : BitVec 4 := b.extractLsb' 4 4

/-- `b[3:0]`, the header-length nibble (30_encoding R102). -/
def ip4IhlOf (b : Byte) : BitVec 4 := b.extractLsb' 0 4

/-- `(zext_8(VER) << 4) | zext_8(IHL)` (30_encoding R102). -/
def ip4Byte0 (ver ihl : BitVec 4) : Byte := (ver.setWidth 8 <<< 4) ||| ihl.setWidth 8

/-- `f[15:13]`, the flags (30_encoding R103). -/
def ip4FlagsOf (f : Half) : BitVec 3 := f.extractLsb' 13 3

/-- `f[12:0]`, the fragment offset (30_encoding R103). -/
def ip4FoffOf (f : Half) : BitVec 13 := f.extractLsb' 0 13

/-- `(zext_16(FLAGS) << 13) | zext_16(FOFF)` (30_encoding R103). -/
def ip4FragField (flags : BitVec 3) (foff : BitVec 13) : Half := (flags.setWidth 16 <<< 13) ||| foff.setWidth 16

/-- The record that twenty bytes hold, accepted or rejected (43_ipv4 R190). -/
def ip4Fields (v : List Byte) : Option Ip4Rec :=
  match v with
  | b :: tos :: l0 :: l1 :: i0 :: i1 :: f0 :: f1 :: ttl :: proto :: c0 :: c1 :: s0 :: s1 :: s2 :: s3 :: d0 :: d1 :: d2
      :: d3 :: _ =>
    some
      { ver := ip4VerOf b, ihl := ip4IhlOf b, tos := tos, tlen := beW 16 [l0, l1], id := beW 16 [i0, i1]
        flags := ip4FlagsOf (beW 16 [f0, f1]), foff := ip4FoffOf (beW 16 [f0, f1]), ttl := ttl, proto := proto
        csum := beW 16 [c0, c1], src := ⟨s0, s1, s2, s3⟩, dst := ⟨d0, d1, d2, d3⟩ }
  | _ => none

/-- `ip4_parse(v)` (43_ipv4 R190): the version check is the last step. -/
def ip4Parse (v : List Byte) : Except CodecError (Ip4Rec × Nat) :=
  match ip4Fields v with
  | some r => if r.ver ≠ 4 then .error (.unsupportedVersion r) else .ok (r, 20)
  | none => .error (.tooShort 20 v.length)

/-- `ip4_build(r)` (43_ipv4 R192). -/
def ip4Build (r : Ip4Rec) : List Byte :=
  bytes1 (ip4Byte0 r.ver r.ihl) ++ bytes1 r.tos ++ bytes2 r.tlen ++ bytes2 r.id ++ bytes2 (ip4FragField r.flags r.foff)
    ++ bytes1 r.ttl ++ bytes1 r.proto ++ bytes2 r.csum ++ r.src.toList ++ r.dst.toList

/-- A record is a syntactically valid header value (43_ipv4 R198). -/
def Ip4Rec.valid (r : Ip4Rec) : Bool := r.ver == 4

/-- The reads of IP4_DEC (43_ipv4 R191, 30_encoding R98). -/
def readIp4 (s : State) : Option Ip4Rec := do
  let b ← s.memRead1 (s.pcAt 0)
  let tos ← s.memRead1 (s.pcAt 1)
  let tlen ← s.memRead2 (s.pcAt 2)
  let id ← s.memRead2 (s.pcAt 4)
  let f ← s.memRead2 (s.pcAt 6)
  let ttl ← s.memRead1 (s.pcAt 8)
  let proto ← s.memRead1 (s.pcAt 9)
  let csum ← s.memRead2 (s.pcAt 10)
  let src ← s.memReadIp (s.pcAt 12)
  let dst ← s.memReadIp (s.pcAt 16)
  return { ver := ip4VerOf b, ihl := ip4IhlOf b, tos := tos, tlen := tlen, id := id, flags := ip4FlagsOf f,
           foff := ip4FoffOf f, ttl := ttl, proto := proto, csum := csum, src := src, dst := dst }

/-- The body of IP4_DEC (43_ipv4 R191). On `UnsupportedVersion` the twelve registers keep the rejected header and the
cursor does not move (43_ipv4 R196). -/
def layerIp4 (s : State) : LayerOut :=
  needBytes ip4Hlen s <| withRead (readIp4 s) fun r =>
    if r.ver ≠ 4 then .raised { s with ip4 := r } .unsupportedVersion 0 0
    else .decoded { s with ip4 := r, cur := s.cur + ip4Hlen } ip4Hlen

/-- IP4_DEC (43_ipv4 R191). -/
def execIp4Dec (s : State) : Result := singleDecode .ip4 (layerIp4 s)

/-- The output of IP4_ENC (43_ipv4 R193, 30_encoding R98). -/
def ip4Out (r : Ip4Rec) : List Byte :=
  newOut 20 |> memWrite1 0 (ip4Byte0 r.ver r.ihl) |> memWrite1 1 r.tos |> memWrite2 2 r.tlen |> memWrite2 4 r.id
    |> memWrite2 6 (ip4FragField r.flags r.foff) |> memWrite1 8 r.ttl |> memWrite1 9 r.proto |> memWrite2 10 r.csum
    |> memWriteBytes 12 r.src.toList |> memWriteBytes 16 r.dst.toList

/-- IP4_ENC (43_ipv4 R193). -/
def execIp4Enc (s : State) : Result := encoded (ip4Out s.ip4) ip4Hlen s

/-- IP4_CLASS for any protocol numbers (43_ipv4 R194). -/
def ip4ClassAt (cfg : Config) (s : State) : Result := finish (Walk.start.classified (classifyProto cfg s.ip4.proto)) s

/-- IP4_CLASS (43_ipv4 R194). -/
def execIp4Class (s : State) : Result := ip4ClassAt Config.current s

end Sys2Proof.Machine
end

