-- ==== Sys2Proof/Machine/Transport.lean ====
section
/-! DEFINITION. The TcpHeader and UdpHeader codecs (44_tcp_udp): the pure functions, then TCP_DEC, TCP_ENC, UDP_DEC,
UDP_ENC. -/

namespace Sys2Proof.Machine

/-- `tcp_parse(v)` (44_tcp_udp R215). The data-offset byte is kept whole (R219). -/
def tcpParse (v : List Byte) : Except CodecError (TcpRec × Nat) :=
  match v with
  | s0 :: s1 :: d0 :: d1 :: q0 :: q1 :: q2 :: q3 :: a0 :: a1 :: a2 :: a3 :: doff :: ctrl :: w0 :: w1 :: c0 :: c1 :: u0
      :: u1 :: _ =>
    .ok
      ({ sport := beW 16 [s0, s1], dport := beW 16 [d0, d1], seq := beW 32 [q0, q1, q2, q3]
         ack := beW 32 [a0, a1, a2, a3], doff := doff, ctrl := ctrl, win := beW 16 [w0, w1], csum := beW 16 [c0, c1]
         urg := beW 16 [u0, u1] }, 20)
  | _ => .error (.tooShort 20 v.length)

/-- `tcp_build(r)` (44_tcp_udp R217). -/
def tcpBuild (r : TcpRec) : List Byte :=
  bytes2 r.sport ++ bytes2 r.dport ++ bytes4 r.seq ++ bytes4 r.ack ++ bytes1 r.doff ++ bytes1 r.ctrl ++ bytes2 r.win
    ++ bytes2 r.csum ++ bytes2 r.urg

/-- The reads of TCP_DEC (44_tcp_udp R216, 30_encoding R99). -/
def readTcp (s : State) : Option TcpRec := do
  let sport ← s.memRead2 (s.pcAt 0)
  let dport ← s.memRead2 (s.pcAt 2)
  let seq ← s.memRead4 (s.pcAt 4)
  let ack ← s.memRead4 (s.pcAt 8)
  let doff ← s.memRead1 (s.pcAt 12)
  let ctrl ← s.memRead1 (s.pcAt 13)
  let win ← s.memRead2 (s.pcAt 14)
  let csum ← s.memRead2 (s.pcAt 16)
  let urg ← s.memRead2 (s.pcAt 18)
  return { sport := sport, dport := dport, seq := seq, ack := ack, doff := doff, ctrl := ctrl, win := win, csum := csum,
           urg := urg }

/-- The body of TCP_DEC (44_tcp_udp R216). -/
def layerTcp (s : State) : LayerOut :=
  needBytes tcpHlen s <| withRead (readTcp s) fun r =>
    .decoded { s with tcp := r, cur := s.cur + tcpHlen } tcpHlen

/-- TCP_DEC (44_tcp_udp R216). -/
def execTcpDec (s : State) : Result := singleDecode .tcp (layerTcp s)

/-- The output of TCP_ENC (44_tcp_udp R218, 30_encoding R99). -/
def tcpOut (r : TcpRec) : List Byte :=
  newOut 20 |> memWrite2 0 r.sport |> memWrite2 2 r.dport |> memWrite4 4 r.seq |> memWrite4 8 r.ack
    |> memWrite1 12 r.doff |> memWrite1 13 r.ctrl |> memWrite2 14 r.win |> memWrite2 16 r.csum |> memWrite2 18 r.urg

/-- TCP_ENC (44_tcp_udp R218). -/
def execTcpEnc (s : State) : Result := encoded (tcpOut s.tcp) tcpHlen s

/-- `udp_parse(v)` (44_tcp_udp R220). -/
def udpParse (v : List Byte) : Except CodecError (UdpRec × Nat) :=
  match v with
  | s0 :: s1 :: d0 :: d1 :: l0 :: l1 :: c0 :: c1 :: _ =>
    .ok
      ({ sport := beW 16 [s0, s1], dport := beW 16 [d0, d1], len := beW 16 [l0, l1], csum := beW 16 [c0, c1] }, 8)
  | _ => .error (.tooShort 8 v.length)

/-- `udp_build(r)` (44_tcp_udp R222). -/
def udpBuild (r : UdpRec) : List Byte := bytes2 r.sport ++ bytes2 r.dport ++ bytes2 r.len ++ bytes2 r.csum

/-- The reads of UDP_DEC (44_tcp_udp R221, 30_encoding R100). -/
def readUdp (s : State) : Option UdpRec := do
  let sport ← s.memRead2 (s.pcAt 0)
  let dport ← s.memRead2 (s.pcAt 2)
  let len ← s.memRead2 (s.pcAt 4)
  let csum ← s.memRead2 (s.pcAt 6)
  return { sport := sport, dport := dport, len := len, csum := csum }

/-- The body of UDP_DEC (44_tcp_udp R221). -/
def layerUdp (s : State) : LayerOut :=
  needBytes udpHlen s <| withRead (readUdp s) fun r =>
    .decoded { s with udp := r, cur := s.cur + udpHlen } udpHlen

/-- UDP_DEC (44_tcp_udp R221). -/
def execUdpDec (s : State) : Result := singleDecode .udp (layerUdp s)

/-- The output of UDP_ENC (44_tcp_udp R223, 30_encoding R100). -/
def udpOut (r : UdpRec) : List Byte :=
  newOut 8 |> memWrite2 0 r.sport |> memWrite2 2 r.dport |> memWrite2 4 r.len |> memWrite2 6 r.csum

/-- UDP_ENC (44_tcp_udp R223). -/
def execUdpEnc (s : State) : Result := encoded (udpOut s.udp) udpHlen s

end Sys2Proof.Machine
end

