-- ==== Sys2Proof/Machine/Vlan.lean ====
section
/-! DEFINITION. The VlanTag codec (41_vlan): the pure functions, then VLAN_DEC, VLAN_ENC, VLAN_CLASS. -/

namespace Sys2Proof.Machine

/-- `f[15:12]`, the tag-control of the first field (30_encoding R101). -/
def vlanTcOf (f : Half) : BitVec 4 := f.extractLsb' 12 4

/-- `f[11:0]`, the VLAN id of the first field (30_encoding R101). -/
def vlanVidOf (f : Half) : BitVec 12 := f.extractLsb' 0 12

/-- `(zext_16(TC) << 12) | zext_16(VID)` (30_encoding R101). -/
def vlanField (tc : BitVec 4) (vid : BitVec 12) : Half := (tc.setWidth 16 <<< 12) ||| vid.setWidth 16

/-- `vlan_parse(v)` (41_vlan R150). -/
def vlanParse (v : List Byte) : Except CodecError (VlanRec × Nat) :=
  match v with
  | f0 :: f1 :: t0 :: t1 :: _ =>
    .ok ({ tc := vlanTcOf (beW 16 [f0, f1]), vid := vlanVidOf (beW 16 [f0, f1]), type := beW 16 [t0, t1] }, 4)
  | _ => .error (.tooShort 4 v.length)

/-- `vlan_build(r)` (41_vlan R152). -/
def vlanBuild (r : VlanRec) : List Byte := bytes2 (vlanField r.tc r.vid) ++ bytes2 r.type

/-- The reads of VLAN_DEC (41_vlan R151, 30_encoding R96). -/
def readVlan (s : State) : Option VlanRec := do
  let f ← s.memRead2 (s.pcAt 0)
  let type ← s.memRead2 (s.pcAt 2)
  return { tc := vlanTcOf f, vid := vlanVidOf f, type := type }

/-- The body of VLAN_DEC (41_vlan R151). -/
def layerVlan (s : State) : LayerOut :=
  needBytes vlanHlen s <| withRead (readVlan s) fun r =>
    .decoded { s with vlan := r, cur := s.cur + vlanHlen } vlanHlen

/-- VLAN_DEC (41_vlan R151). -/
def execVlanDec (s : State) : Result := singleDecode .vlan (layerVlan s)

/-- The output of VLAN_ENC (41_vlan R153, 30_encoding R96). -/
def vlanOut (r : VlanRec) : List Byte :=
  newOut 4 |> memWrite2 0 (vlanField r.tc r.vid) |> memWrite2 2 r.type

/-- VLAN_ENC (41_vlan R153). -/
def execVlanEnc (s : State) : Result := encoded (vlanOut s.vlan) vlanHlen s

/-- VLAN_CLASS (41_vlan R154). -/
def execVlanClass (s : State) : Result := finish (Walk.start.classified (classifyEthertype s.vlan.type)) s

end Sys2Proof.Machine
end

