-- ==== Sys2Proof/Machine/Frame.lean ====
section
/-! DEFINITION. The chained decode (46_frame_dispatch): FRAME_DEC, the illegal command, and the host program that
46_frame_dispatch R254 compares FRAME_DEC with. -/

namespace Sys2Proof.Machine

/-- The last part of FRAME_DEC: the transport layer that the class names (46_frame_dispatch R251). -/
def frameTransport (w : Walk) (s : State) : Result :=
  match w.cls with
  | .tcp => andThen .tcp w (layerTcp s) finish
  | .udp => andThen .udp w (layerUdp s) finish
  | _ => finish w s

/-- The middle part of FRAME_DEC: ARP, IPv4 or the end, by the class of the last ethertype (46_frame_dispatch R251). -/
def frameNetwork (cfg : Config) (w : Walk) (s : State) : Result :=
  match w.cls with
  | .arp => andThen .arp w (layerArp s) finish
  | .ipv4 => andThen .ip4 w (layerIp4 s) fun w s => frameTransport (w.classified (classifyProto cfg s.ip4.proto)) s
  | _ => finish w s

/-- The part of FRAME_DEC after a VLAN tag: a second tag ends the chain (46_frame_dispatch R252). -/
def frameTagged (cfg : Config) (w : Walk) (s : State) : Result :=
  match w.cls with
  | .vlan => finish w s
  | _ => frameNetwork cfg w s

/-- The part of FRAME_DEC after the Ethernet header (46_frame_dispatch R251). -/
def frameLink (cfg : Config) (w : Walk) (s : State) : Result :=
  match w.cls with
  | .vlan => andThen .vlan w (layerVlan s) fun w s => frameTagged cfg (w.classified (classifyEthertype s.vlan.type)) s
  | _ => frameNetwork cfg w s

/-- FRAME_DEC for any protocol numbers (46_frame_dispatch R251). -/
def frameDecAt (cfg : Config) (s : State) : Result :=
  andThen .eth Walk.start (layerEth s) fun w s => frameLink cfg (w.classified (classifyEthertype s.eth.type)) s

/-- FRAME_DEC (46_frame_dispatch R251). -/
def execFrameDec (s : State) : Result := frameDecAt Config.current s

/-- A command that is not one of the eighteen: `IllegalOp`, and nothing but `STATUS` changes (30_encoding R94,
60_exceptions R275). The byte itself is not reported. -/
def execIllegal (_cmd : Byte) (s : State) : Result := raiseError .frame .illegalOp 0 0 Walk.start s

/-- A host that issues the next command only if the last one reported no error. -/
def thenIfOk (r : Result) (k : State → Result) : Result :=
  match r with
  | .next s => if s.status.err = .none then k s else .next s
  | .fault f => .fault f
  | .refused q => .refused q

/-- The end of the host program of 46_frame_dispatch R254, from the network layer on, chosen by `STATUS.CLASS`. -/
def walkNetwork (s : State) : Result :=
  match s.status.cls with
  | .arp => execArpDec s
  | .ipv4 =>
    thenIfOk (execIp4Dec s) fun s => thenIfOk (execIp4Class s) fun s =>
      match s.status.cls with
      | .tcp => execTcpDec s
      | .udp => execUdpDec s
      | _ => .next s
  | _ => .next s

/-- The host program of 46_frame_dispatch R254: the single operations, each chosen by what the last classify reported,
stopping at the first error. -/
def walkByHand (s : State) : Result :=
  thenIfOk (execEthDec s) fun s => thenIfOk (execEthClass s) fun s =>
    match s.status.cls with
    | .vlan =>
      thenIfOk (execVlanDec s) fun s => thenIfOk (execVlanClass s) fun s =>
        match s.status.cls with
        | .vlan => .next s
        | _ => walkNetwork s
    | _ => walkNetwork s

end Sys2Proof.Machine
end

