-- ==== Sys2Proof/Machine/ProtoName.lean ====
section
/-! DEFINITION. The protocol-name helper (45_protocol_name): the pure lookup, then PROTO_NAME. -/

namespace Sys2Proof.Machine

/-- The eleven names of 45_protocol_name R240, in ASCII. -/
def nameIcmp : List Byte := [0x69, 0x63, 0x6d, 0x70]
def nameIgmp : List Byte := [0x69, 0x67, 0x6d, 0x70]
def nameIpip : List Byte := [0x69, 0x70, 0x69, 0x70]
def nameTcp  : List Byte := [0x74, 0x63, 0x70]
def nameUdp  : List Byte := [0x75, 0x64, 0x70]
def nameEsp  : List Byte := [0x65, 0x73, 0x70]
def nameAh   : List Byte := [0x61, 0x68]
def nameOspf : List Byte := [0x6f, 0x73, 0x70, 0x66]
def namePim  : List Byte := [0x70, 0x69, 0x6d]
def nameVrrp : List Byte := [0x76, 0x72, 0x72, 0x70]
def nameIsis : List Byte := [0x69, 0x73, 0x69, 0x73]

/-- A hexadecimal digit in ASCII, lower case (45_protocol_name R242). -/
def hexDigit (n : BitVec 4) : Byte := if n.toNat < 10 then 0x30 + n.setWidth 8 else 0x61 + (n.setWidth 8 - 10)

/-- `hex2(p)`: two digits, high first, the leading zero kept (45_protocol_name R242). -/
def hex2 (p : Byte) : List Byte := [hexDigit (p.extractLsb' 4 4), hexDigit (p.extractLsb' 0 4)]

/-- `proto_name(p)` (45_protocol_name R240). -/
def protoName (cfg : Config) (p : Byte) : List Byte :=
  if p = cfg.protoIcmp then nameIcmp
  else if p = cfg.protoIgmp then nameIgmp
  else if p = cfg.protoIpip then nameIpip
  else if p = cfg.protoTcp then nameTcp
  else if p = cfg.protoUdp then nameUdp
  else if p = cfg.protoEsp then nameEsp
  else if p = cfg.protoAh then nameAh
  else if p = cfg.protoOspf then nameOspf
  else if p = cfg.protoPim then namePim
  else if p = cfg.protoVrrp then nameVrrp
  else if p = cfg.protoIsis then nameIsis
  else hex2 p

/-- `PNAME` written from a name: its length, and its characters with 0x00 behind them (45_protocol_name R241). -/
def pnameOf (name : List Byte) : Pname where
  len := BitVec.ofNat 3 name.length
  ch := ⟨name.getD 0 0, name.getD 1 0, name.getD 2 0, name.getD 3 0⟩

/-- The effect of PROTO_NAME on a name: `PNAME` written, every field of `STATUS` 0 (45_protocol_name R241). -/
def named (name : List Byte) (s : State) : Result := finish Walk.start { s with pname := pnameOf name }

/-- PROTO_NAME for any protocol numbers (45_protocol_name R241). -/
def protoNameAt (cfg : Config) (s : State) : Result := named (protoName cfg s.ip4.proto) s

/-- PROTO_NAME (45_protocol_name R241). -/
def execProtoName (s : State) : Result := protoNameAt Config.current s

end Sys2Proof.Machine
end

