-- ==== Sys2Proof/Machine/Rows.lean ====
section
/-! DEFINITION. The rows of the second-level tables (30_encoding R104 to R107, R116; 42_arp R169; 45_protocol_name
R240, R242). A row is looked up by the operations its `used_by` column names, in the register they classify; its
meaning is the effect of the single-layer one of them when that register holds the row's value: the class and the raw
value in `STATUS`, every other field 0, or the name in `PNAME` (log entry 8). -/

namespace Sys2Proof.Machine

/-- Report a class and a raw value: `status_ok(0, 0, class, raw)`. -/
def reportClass (c : FrameClass) (raw : Half) (s : State) : Result := finish (Walk.start.classified (c, raw)) s

/-- ETHERTYPE_VLAN (30_encoding R104). -/
def execEthertypeVlan (s : State) : Result := reportClass .vlan vlanEthertype s

/-- ETHERTYPE_ARP (30_encoding R104). -/
def execEthertypeArp (s : State) : Result := reportClass .arp arpEthertype s

/-- ETHERTYPE_IPV4 (30_encoding R104). -/
def execEthertypeIpv4 (s : State) : Result := reportClass .ipv4 ipv4Ethertype s

/-- ETHERTYPE_IPV6 (30_encoding R105): "classifies as `UnknownEther`". -/
def execEthertypeIpv6 (s : State) : Result := reportClass .unknownEther ipv6Ethertype s

/-- ETHERTYPE_OTHER (30_encoding R104). -/
def execEthertypeOther (t : Half) (s : State) : Result := reportClass .unknownEther t s

/-- ARP_PTYPE_IPV4 (42_arp R169). -/
def execArpPtypeIpv4 (s : State) : Result := reportClass .ipv4 ipv4Ethertype s

/-- ARP_PTYPE_OTHER (42_arp R169). -/
def execArpPtypeOther (t : Half) (s : State) : Result := reportClass .unknownEther t s

/-- IPPROTO_TCP for any protocol numbers (30_encoding R106). -/
def ipprotoTcpAt (cfg : Config) (s : State) : Result := reportClass .tcp (cfg.protoTcp.setWidth 16) s

/-- IPPROTO_TCP (30_encoding R106). -/
def execIpprotoTcp (s : State) : Result := ipprotoTcpAt Config.current s

/-- IPPROTO_UDP for any protocol numbers (30_encoding R106). -/
def ipprotoUdpAt (cfg : Config) (s : State) : Result := reportClass .udp (cfg.protoUdp.setWidth 16) s

/-- IPPROTO_UDP (30_encoding R106). -/
def execIpprotoUdp (s : State) : Result := ipprotoUdpAt Config.current s

/-- IPPROTO_OTHER (30_encoding R106). -/
def execIpprotoOther (p : Byte) (s : State) : Result := reportClass .otherProto (p.setWidth 16) s

/-- PROTONAME_ICMP (45_protocol_name R240). -/
def execProtonameIcmp (s : State) : Result := named nameIcmp s

/-- PROTONAME_IGMP (45_protocol_name R240). -/
def execProtonameIgmp (s : State) : Result := named nameIgmp s

/-- PROTONAME_IPIP (45_protocol_name R240). -/
def execProtonameIpip (s : State) : Result := named nameIpip s

/-- PROTONAME_TCP (45_protocol_name R240). -/
def execProtonameTcp (s : State) : Result := named nameTcp s

/-- PROTONAME_UDP (45_protocol_name R240). -/
def execProtonameUdp (s : State) : Result := named nameUdp s

/-- PROTONAME_ESP (45_protocol_name R240). -/
def execProtonameEsp (s : State) : Result := named nameEsp s

/-- PROTONAME_AH (45_protocol_name R240). -/
def execProtonameAh (s : State) : Result := named nameAh s

/-- PROTONAME_OSPF (45_protocol_name R240). -/
def execProtonameOspf (s : State) : Result := named nameOspf s

/-- PROTONAME_PIM (45_protocol_name R240). -/
def execProtonamePim (s : State) : Result := named namePim s

/-- PROTONAME_VRRP (45_protocol_name R240). -/
def execProtonameVrrp (s : State) : Result := named nameVrrp s

/-- PROTONAME_ISIS (45_protocol_name R240). -/
def execProtonameIsis (s : State) : Result := named nameIsis s

/-- PROTONAME_HEX (45_protocol_name R242). -/
def execProtonameHex (p : Byte) (s : State) : Result := named (hex2 p) s

end Sys2Proof.Machine
end

