-- ==== Sys2Proof/Machine/Dispatch.lean ====
section
/-! DEFINITION. One arm per constructor of Instr: the meaning it has. -/

namespace Sys2Proof.Machine

-- The operations (30_encoding R93), the illegal command (R94), then the rows of the second-level tables.
def exec (i : Instr) (s : State) : Host.Outcome State Fault Refusal :=
  match i with
  | .frameDec => Sys2Proof.Machine.execFrameDec s
  | .ethDec => Sys2Proof.Machine.execEthDec s
  | .ethEnc => Sys2Proof.Machine.execEthEnc s
  | .ethClass => Sys2Proof.Machine.execEthClass s
  | .vlanDec => Sys2Proof.Machine.execVlanDec s
  | .vlanEnc => Sys2Proof.Machine.execVlanEnc s
  | .vlanClass => Sys2Proof.Machine.execVlanClass s
  | .arpDec => Sys2Proof.Machine.execArpDec s
  | .arpEnc => Sys2Proof.Machine.execArpEnc s
  | .arpClass => Sys2Proof.Machine.execArpClass s
  | .ip4Dec => Sys2Proof.Machine.execIp4Dec s
  | .ip4Enc => Sys2Proof.Machine.execIp4Enc s
  | .ip4Class => Sys2Proof.Machine.execIp4Class s
  | .tcpDec => Sys2Proof.Machine.execTcpDec s
  | .tcpEnc => Sys2Proof.Machine.execTcpEnc s
  | .udpDec => Sys2Proof.Machine.execUdpDec s
  | .udpEnc => Sys2Proof.Machine.execUdpEnc s
  | .protoName => Sys2Proof.Machine.execProtoName s
  | .illegal cmd => Sys2Proof.Machine.execIllegal cmd s
  | .ethertypeVlan => Sys2Proof.Machine.execEthertypeVlan s
  | .ethertypeArp => Sys2Proof.Machine.execEthertypeArp s
  | .ethertypeIpv4 => Sys2Proof.Machine.execEthertypeIpv4 s
  | .ethertypeIpv6 => Sys2Proof.Machine.execEthertypeIpv6 s
  | .ethertypeOther t => Sys2Proof.Machine.execEthertypeOther t s
  | .arpPtypeIpv4 => Sys2Proof.Machine.execArpPtypeIpv4 s
  | .arpPtypeOther t => Sys2Proof.Machine.execArpPtypeOther t s
  | .ipprotoTcp => Sys2Proof.Machine.execIpprotoTcp s
  | .ipprotoUdp => Sys2Proof.Machine.execIpprotoUdp s
  | .ipprotoOther p => Sys2Proof.Machine.execIpprotoOther p s
  | .protonameIcmp => Sys2Proof.Machine.execProtonameIcmp s
  | .protonameIgmp => Sys2Proof.Machine.execProtonameIgmp s
  | .protonameIpip => Sys2Proof.Machine.execProtonameIpip s
  | .protonameTcp => Sys2Proof.Machine.execProtonameTcp s
  | .protonameUdp => Sys2Proof.Machine.execProtonameUdp s
  | .protonameEsp => Sys2Proof.Machine.execProtonameEsp s
  | .protonameAh => Sys2Proof.Machine.execProtonameAh s
  | .protonameOspf => Sys2Proof.Machine.execProtonameOspf s
  | .protonamePim => Sys2Proof.Machine.execProtonamePim s
  | .protonameVrrp => Sys2Proof.Machine.execProtonameVrrp s
  | .protonameIsis => Sys2Proof.Machine.execProtonameIsis s
  | .protonameHex p => Sys2Proof.Machine.execProtonameHex p s

end Sys2Proof.Machine
end

