-- ==== Sys2Proof/Machine/Operands.lean ====
section
/-! DEFINITION. The registers as the host names them (30_encoding R114, 10_state R29 and its summary table): one read
and one write for every name. The operations take no register operand (10_state R42): they name their registers
themselves. -/

namespace Sys2Proof.Machine

/-- A register's value as an unsigned integer. -/
def intOf {w : Nat} (v : BitVec w) : Value := .int v.toNat

/-- A register as `GET` reads it. `ARP.LEN`, `IBUF_LEN` and `OBUF_LEN` are views (10_state R25, R31, R32); the constants
are those of the implementation (10_state R37). -/
def readReg (cfg : Config) (r : Reg) (s : State) : Value :=
  match r with
  | .ethDst => .bytes s.eth.dst.toList
  | .ethSrc => .bytes s.eth.src.toList
  | .ethType => intOf s.eth.type
  | .vlanTc => intOf s.vlan.tc
  | .vlanVid => intOf s.vlan.vid
  | .vlanType => intOf s.vlan.type
  | .arpHtype => intOf s.arp.htype
  | .arpPtype => intOf s.arp.ptype
  | .arpHlen => intOf s.arp.hlen
  | .arpPlen => intOf s.arp.plen
  | .arpOp => intOf s.arp.op
  | .arpSha => .bytes s.arp.sha
  | .arpSpa => .bytes s.arp.spa
  | .arpTha => .bytes s.arp.tha
  | .arpTpa => .bytes s.arp.tpa
  | .ip4Ver => intOf s.ip4.ver
  | .ip4Ihl => intOf s.ip4.ihl
  | .ip4Tos => intOf s.ip4.tos
  | .ip4Tlen => intOf s.ip4.tlen
  | .ip4Id => intOf s.ip4.id
  | .ip4Flags => intOf s.ip4.flags
  | .ip4Foff => intOf s.ip4.foff
  | .ip4Ttl => intOf s.ip4.ttl
  | .ip4Proto => intOf s.ip4.proto
  | .ip4Csum => intOf s.ip4.csum
  | .ip4Src => .bytes s.ip4.src.toList
  | .ip4Dst => .bytes s.ip4.dst.toList
  | .tcpSport => intOf s.tcp.sport
  | .tcpDport => intOf s.tcp.dport
  | .tcpSeq => intOf s.tcp.seq
  | .tcpAck => intOf s.tcp.ack
  | .tcpDoff => intOf s.tcp.doff
  | .tcpCtrl => intOf s.tcp.ctrl
  | .tcpWin => intOf s.tcp.win
  | .tcpCsum => intOf s.tcp.csum
  | .tcpUrg => intOf s.tcp.urg
  | .udpSport => intOf s.udp.sport
  | .udpDport => intOf s.udp.dport
  | .udpLen => intOf s.udp.len
  | .udpCsum => intOf s.udp.csum
  | .cur => intOf s.cur
  | .arpLen => intOf (arpTotal s.arp.hlen s.arp.plen)
  | .ibuf => .bytes s.ibuf.bytes
  | .ibufLen => .int s.ibuf.len
  | .obuf => .bytes s.obuf.bytes
  | .obufLen => .int s.obuf.len
  | .statusErr => intOf s.status.err.code
  | .statusUnit => .int s.status.unit.code
  | .statusExp => intOf s.status.exp
  | .statusAct => intOf s.status.act
  | .statusNbytes => intOf s.status.nbytes
  | .statusLayers => intOf s.status.layers
  | .statusClass => intOf s.status.cls.code
  | .statusRaw => intOf s.status.raw
  | .pnameLen => intOf s.pname.len
  | .pnameCh => .bytes s.pname.ch.toList
  | .kZeroMac => .bytes zeroMac.toList
  | .kBcastMac => .bytes bcastMac.toList
  | .kDefaultMac => .bytes cfg.defaultMac.toList

/-- An integer register of width `w` takes an integer below `2^w` and nothing else: no truncation (10_state R29). -/
def setInt (w : Nat) (v : Value) (k : BitVec w → State) : Option State :=
  match v with
  | .int n => if n < 2 ^ w then some (k (BitVec.ofNat w n)) else none
  | .bytes _ => none

/-- A six-byte register takes exactly six bytes (30_encoding R114, 40_ethernet R138). -/
def setMac (v : Value) (k : Bytes6 → State) : Option State :=
  match v with
  | .int _ => none
  | .bytes l => (bytes6? l).map k

/-- A four-byte register takes exactly four bytes (30_encoding R114). -/
def setIp (v : Value) (k : Bytes4 → State) : Option State :=
  match v with
  | .int _ => none
  | .bytes l => (bytes4? l).map k

/-- An ARP address register takes a sequence of 0 to 255 bytes (30_encoding R114, 10_state R24). -/
def setAddr (v : Value) (k : List Byte → State) : Option State :=
  match v with
  | .int _ => none
  | .bytes l => if l.length ≤ 255 then some (k l) else none

/-- The registers the host may write: the 40 record registers and the cursor (10_state R29, R30). -/
def writable : Reg → Bool
  | .ethDst | .ethSrc | .ethType | .vlanTc | .vlanVid | .vlanType | .arpHtype | .arpPtype | .arpHlen | .arpPlen
  | .arpOp | .arpSha | .arpSpa | .arpTha | .arpTpa | .ip4Ver | .ip4Ihl | .ip4Tos | .ip4Tlen | .ip4Id | .ip4Flags
  | .ip4Foff | .ip4Ttl | .ip4Proto | .ip4Csum | .ip4Src | .ip4Dst | .tcpSport | .tcpDport | .tcpSeq | .tcpAck
  | .tcpDoff | .tcpCtrl | .tcpWin | .tcpCsum | .tcpUrg | .udpSport | .udpDport | .udpLen | .udpCsum | .cur => true
  | .arpLen | .ibuf | .ibufLen | .obuf | .obufLen | .statusErr | .statusUnit | .statusExp | .statusAct | .statusNbytes
  | .statusLayers | .statusClass | .statusRaw | .pnameLen | .pnameCh | .kZeroMac | .kBcastMac | .kDefaultMac => false

/-- A register written by `SET`; none where the value does not fit it or the host cannot write it (30_encoding R114). -/
def writeReg (r : Reg) (v : Value) (s : State) : Option State :=
  match r with
  | .ethDst => setMac v fun x => { s with eth.dst := x }
  | .ethSrc => setMac v fun x => { s with eth.src := x }
  | .ethType => setInt 16 v fun x => { s with eth.type := x }
  | .vlanTc => setInt 4 v fun x => { s with vlan.tc := x }
  | .vlanVid => setInt 12 v fun x => { s with vlan.vid := x }
  | .vlanType => setInt 16 v fun x => { s with vlan.type := x }
  | .arpHtype => setInt 16 v fun x => { s with arp.htype := x }
  | .arpPtype => setInt 16 v fun x => { s with arp.ptype := x }
  | .arpHlen => setInt 8 v fun x => { s with arp.hlen := x }
  | .arpPlen => setInt 8 v fun x => { s with arp.plen := x }
  | .arpOp => setInt 16 v fun x => { s with arp.op := x }
  | .arpSha => setAddr v fun x => { s with arp.sha := x }
  | .arpSpa => setAddr v fun x => { s with arp.spa := x }
  | .arpTha => setAddr v fun x => { s with arp.tha := x }
  | .arpTpa => setAddr v fun x => { s with arp.tpa := x }
  | .ip4Ver => setInt 4 v fun x => { s with ip4.ver := x }
  | .ip4Ihl => setInt 4 v fun x => { s with ip4.ihl := x }
  | .ip4Tos => setInt 8 v fun x => { s with ip4.tos := x }
  | .ip4Tlen => setInt 16 v fun x => { s with ip4.tlen := x }
  | .ip4Id => setInt 16 v fun x => { s with ip4.id := x }
  | .ip4Flags => setInt 3 v fun x => { s with ip4.flags := x }
  | .ip4Foff => setInt 13 v fun x => { s with ip4.foff := x }
  | .ip4Ttl => setInt 8 v fun x => { s with ip4.ttl := x }
  | .ip4Proto => setInt 8 v fun x => { s with ip4.proto := x }
  | .ip4Csum => setInt 16 v fun x => { s with ip4.csum := x }
  | .ip4Src => setIp v fun x => { s with ip4.src := x }
  | .ip4Dst => setIp v fun x => { s with ip4.dst := x }
  | .tcpSport => setInt 16 v fun x => { s with tcp.sport := x }
  | .tcpDport => setInt 16 v fun x => { s with tcp.dport := x }
  | .tcpSeq => setInt 32 v fun x => { s with tcp.seq := x }
  | .tcpAck => setInt 32 v fun x => { s with tcp.ack := x }
  | .tcpDoff => setInt 8 v fun x => { s with tcp.doff := x }
  | .tcpCtrl => setInt 8 v fun x => { s with tcp.ctrl := x }
  | .tcpWin => setInt 16 v fun x => { s with tcp.win := x }
  | .tcpCsum => setInt 16 v fun x => { s with tcp.csum := x }
  | .tcpUrg => setInt 16 v fun x => { s with tcp.urg := x }
  | .udpSport => setInt 16 v fun x => { s with udp.sport := x }
  | .udpDport => setInt 16 v fun x => { s with udp.dport := x }
  | .udpLen => setInt 16 v fun x => { s with udp.len := x }
  | .udpCsum => setInt 16 v fun x => { s with udp.csum := x }
  | .cur => setInt 16 v fun x => { s with cur := x }
  | .arpLen | .ibuf | .ibufLen | .obuf | .obufLen | .statusErr | .statusUnit | .statusExp | .statusAct | .statusNbytes
  | .statusLayers | .statusClass | .statusRaw | .pnameLen | .pnameCh | .kZeroMac | .kBcastMac | .kDefaultMac => none

end Sys2Proof.Machine
end

