-- ==== Sys2Proof/Machine/Port.lean ====
section
/-! DEFINITION. The host port: the host actions LOAD, SET, GET and RESET (30_encoding R114, 70_reset_and_hazards R300),
which act only between operations (20_memory R70), the next input, and the pseudo-instructions (30_encoding R115). -/

namespace Sys2Proof.Machine

/-- `LOAD`: `IBUF <-` the bytes, at most `BUF_CAP` of them; nothing else changes, `CUR` included (30_encoding R114). -/
def hostLoad (cfg : Config) (bytes : List Byte) (s : State) : Result :=
  if bytes.length ≤ cfg.bufCap then .next { s with ibuf := Memory.ofBytes bytes } else .refused .loadTooLong

/-- `SET`: the register takes the value, if it fits (30_encoding R114, 10_state R29, 41_vlan R156). -/
def hostSet (r : Reg) (v : Value) (s : State) : Result :=
  match writeReg r v s with
  | some s' => .next s'
  | none => if writable r then .refused .setDoesNotFit else .refused .setReadOnly

/-- `GET`: "No effect on the state" (30_encoding R114). What the host reads is `readReg`. -/
def hostGet (_r : Reg) (s : State) : Result := .next s

/-- `RESET`: every piece of state takes its reset value (70_reset_and_hazards R300). The inputs still to come are the
host's and not state of the block, so they stay (log entry 5). -/
def hostReset (s : State) : Result := .next { State.reset with inbox := s.inbox }

/-- The state when the first waiting input has been taken. -/
def State.takeInput (s : State) : State := { s with inbox := s.inbox.tail }

/-- A command byte placed so that it is the very next input. -/
def State.withCommand (s : State) (c : Byte) : State := { s with inbox := .cmd c :: s.inbox }

/-- A table word placed so that the next step runs it: a command byte is the next input; an ethertype is put where
ETH_CLASS looks it up, with ETH_CLASS (0x12) as the next input (log entry 9). -/
def State.placeWord (s : State) (nbits w : Nat) : State :=
  match nbits with
  | 8 => s.withCommand (BitVec.ofNat 8 w)
  | 16 => State.withCommand { s with eth.type := BitVec.ofNat 16 w } 0x12
  | _ => s

/-- The expansion of a pseudo-instruction (30_encoding R115). -/
def expandPseudo : Pseudo → List Input
  | .isVlan => [.cmd 0x12, .get .statusClass]
  | .isArp => [.cmd 0x12, .get .statusClass]
  | .isIpv4 => [.cmd 0x12, .get .statusClass]
  | .arpIsIpv4 => [.cmd 0x32, .get .statusClass]
  | .isTcp => [.cmd 0x42, .get .statusClass]
  | .isUdp => [.cmd 0x42, .get .statusClass]
  | .rewind => [.set .cur (.int 0)]

/-- The "true when" column of 30_encoding R115: the value of `STATUS.CLASS` with which the predicate holds. `REWIND` has
no predicate. -/
def pseudoClass : Pseudo → Option Nat
  | .isVlan => some 1
  | .isArp => some 2
  | .isIpv4 => some 3
  | .arpIsIpv4 => some 3
  | .isTcp => some 5
  | .isUdp => some 6
  | .rewind => none

/-- The predicate of a pseudo-instruction, read by the host after its expansion has run (30_encoding R115). -/
def pseudoHolds (cfg : Config) (p : Pseudo) (s : State) : Bool :=
  match pseudoClass p with
  | some n => readReg cfg .statusClass s == .int n
  | none => false

end Sys2Proof.Machine
end

