-- ==== Sys2Proof/Machine/Step.lean ====
section
/-! DEFINITION. One step: the next input the host gives takes effect, whole (20_memory R67, R70). -/

namespace Sys2Proof.Machine

/-- One step. With no input waiting the block is idle (70_reset_and_hazards R301); a command runs as one atomic
operation (20_memory R67). -/
def step (s : State) : Host.Outcome State Fault Refusal :=
  match s.inbox with
  | [] => .next s
  | .cmd c :: _ => exec (decodeCmd c) s.takeInput
  | .load bytes :: _ => hostLoad Config.current bytes s.takeInput
  | .set r v :: _ => hostSet r v s.takeInput
  | .get r :: _ => hostGet r s.takeInput
  | .reset :: _ => hostReset s.takeInput

/-- A table word placed where the next step takes its instruction (log entry 9). -/
def State.withFetchWord (s : State) (nbits w : Nat) : State := s.placeWord nbits w

end Sys2Proof.Machine
end

