-- ==== Sys2Proof/Safety.lean ====
section
/-! DEFINITION. What counts as a legal state and a safe run, in the terms the statements use. -/

namespace Sys2Proof.Machine

/-- The next state of an outcome that has one. -/
def next? : Result → Option State
  | .next s => some s
  | .fault _ => none
  | .refused _ => none

/-- An outcome is a fault. -/
def faults : Result → Bool
  | .fault _ => true
  | .next _ => false
  | .refused _ => false

/-- A buffer is in its canonical form and no longer than `BUF_CAP` (10_state R31, R32). -/
def bufferOk (m : Memory) : Prop := m.wf = true ∧ m.len ≤ Config.current.bufCap

/-- The four ARP addresses have a length of 0 to 255 (10_state R24). -/
def arpOk (r : ArpRec) : Prop :=
  r.sha.length ≤ 255 ∧ r.spa.length ≤ 255 ∧ r.tha.length ≤ 255 ∧ r.tpa.length ≤ 255

/-- `PNAME` as an operation or the reset leaves it: a length of 0, 2, 3 or 4 (10_state R36, 93_implementation_defined
U17), with 0x00 at every index from the length on (10_state R36). -/
def pnameOk (p : Pname) : Prop :=
  (p.len = 0 ∨ p.len = 2 ∨ p.len = 3 ∨ p.len = 4) ∧ ∀ i, p.len.toNat ≤ i → p.ch.toList.getD i 0 = 0

/-- `STATUS` as an operation or the reset leaves it: what each error kind records (10_state R33, 60_exceptions R270),
`ACT < EXP` for `TooShort` (R271), no `MalformedLength` (R273), and `RAW` 0 when no class was found (10_state R33). -/
structure statusOkay (st : Status) : Prop where
  success : st.err = .none → st.unit = .frame ∧ st.exp = 0 ∧ st.act = 0
  tooShort : st.err = .tooShort → st.act.toNat < st.exp.toNat
  version : st.err = .unsupportedVersion → st.unit = .ip4 ∧ st.exp = 0 ∧ st.act = 0
  malformed : st.err ≠ .malformedLength
  addrLen : st.err = .addrLenMismatch → st.unit = .arp ∧ st.exp ≠ st.act
  illegal : st.err = .illegalOp → st.unit = .frame ∧ st.exp = 0 ∧ st.act = 0 ∧ st.nbytes = 0 ∧ st.layers = 0
    ∧ st.cls = .noClass
  rawOfNoClass : st.cls = .noClass → st.raw = 0

/-- The invariant: the states a run from reset can meet are among these. -/
structure State.Inv (s : State) : Prop where
  ibuf : bufferOk s.ibuf
  obuf : bufferOk s.obuf
  arp : arpOk s.arp
  pname : pnameOk s.pname
  status : statusOkay s.status

/-- Two states agree on everything but `STATUS` (46_frame_dispatch R254). -/
def sameButStatus (s t : State) : Prop := { t with status := s.status } = s

/-! ### The wire formats, byte by byte

What stands in `IBUF` from the cursor on, field by field, as the offset tables of 30_encoding R95 to R103 lay it out. These
are the terms the statements about decodes use; no meaning uses them. -/

/-- The byte at an offset from the cursor. Where `IBUF` holds no byte there the value 0 stands for it, and every statement
that uses it assumes that the byte is present. -/
def byteAt (s : State) (k : Nat) : Byte := (s.ibuf.readByte (s.cur.toNat + k)).getD 0

/-- Two bytes at an offset, the first on top (00_scope R8, R10). -/
def halfAt (s : State) (k : Nat) : Half := byteAt s k ++ byteAt s (k + 1)

/-- Four bytes at an offset, the first on top (00_scope R8, R10). -/
def wordAt (s : State) (k : Nat) : Word := byteAt s k ++ byteAt s (k + 1) ++ byteAt s (k + 2) ++ byteAt s (k + 3)

/-- Six bytes at an offset. -/
def macAt (s : State) (k : Nat) : Bytes6 :=
  ⟨byteAt s k, byteAt s (k + 1), byteAt s (k + 2), byteAt s (k + 3), byteAt s (k + 4), byteAt s (k + 5)⟩

/-- Four bytes at an offset, as an address. -/
def ipAt (s : State) (k : Nat) : Bytes4 := ⟨byteAt s k, byteAt s (k + 1), byteAt s (k + 2), byteAt s (k + 3)⟩

/-- `n` bytes at an offset. -/
def bytesAt (s : State) (k n : Nat) : List Byte := (List.range n).map fun i => byteAt s (k + i)

/-- The Ethernet header at an offset (30_encoding R95). -/
def ethAt (s : State) (k : Nat) : EthRec := { dst := macAt s k, src := macAt s (k + 6), type := halfAt s (k + 12) }

/-- The VLAN tag at an offset (30_encoding R96, R101). -/
def vlanAt (s : State) (k : Nat) : VlanRec :=
  { tc := (halfAt s k).extractLsb' 12 4, vid := (halfAt s k).extractLsb' 0 12, type := halfAt s (k + 2) }

/-- The declared hardware-address length of the ARP message at an offset. -/
def arpHlenAt (s : State) (k : Nat) : Nat := (byteAt s (k + 4)).toNat

/-- The declared protocol-address length of the ARP message at an offset. -/
def arpPlenAt (s : State) (k : Nat) : Nat := (byteAt s (k + 5)).toNat

/-- The total length `8 + 2 * (hwlen + protolen)` the ARP message at an offset declares, exactly (30_encoding R111). -/
def arpTotalAt (s : State) (k : Nat) : Nat := 8 + 2 * (arpHlenAt s k + arpPlenAt s k)

/-- The ARP message at an offset (30_encoding R97). -/
def arpAt (s : State) (k : Nat) : ArpRec :=
  { htype := halfAt s k, ptype := halfAt s (k + 2), hlen := byteAt s (k + 4), plen := byteAt s (k + 5)
    op := halfAt s (k + 6)
    sha := bytesAt s (k + 8) (arpHlenAt s k)
    spa := bytesAt s (k + 8 + arpHlenAt s k) (arpPlenAt s k)
    tha := bytesAt s (k + 8 + arpHlenAt s k + arpPlenAt s k) (arpHlenAt s k)
    tpa := bytesAt s (k + 8 + 2 * arpHlenAt s k + arpPlenAt s k) (arpPlenAt s k) }

/-- The IPv4 header at an offset (30_encoding R98, R102, R103). -/
def ip4At (s : State) (k : Nat) : Ip4Rec :=
  { ver := (byteAt s k).extractLsb' 4 4, ihl := (byteAt s k).extractLsb' 0 4, tos := byteAt s (k + 1)
    tlen := halfAt s (k + 2), id := halfAt s (k + 4), flags := (halfAt s (k + 6)).extractLsb' 13 3
    foff := (halfAt s (k + 6)).extractLsb' 0 13, ttl := byteAt s (k + 8), proto := byteAt s (k + 9)
    csum := halfAt s (k + 10), src := ipAt s (k + 12), dst := ipAt s (k + 16) }

/-- The TCP header at an offset (30_encoding R99). -/
def tcpAt (s : State) (k : Nat) : TcpRec :=
  { sport := halfAt s k, dport := halfAt s (k + 2), seq := wordAt s (k + 4), ack := wordAt s (k + 8)
    doff := byteAt s (k + 12), ctrl := byteAt s (k + 13), win := halfAt s (k + 14), csum := halfAt s (k + 16)
    urg := halfAt s (k + 18) }

/-- The UDP header at an offset (30_encoding R100). -/
def udpAt (s : State) (k : Nat) : UdpRec :=
  { sport := halfAt s k, dport := halfAt s (k + 2), len := halfAt s (k + 4), csum := halfAt s (k + 6) }

/-- The two bytes of a 16-bit value, high byte first (00_scope R10). -/
def hiLo (v : Half) : List Byte := [v.extractLsb' 8 8, v.extractLsb' 0 8]

/-- The four bytes of a 32-bit value, high byte first (00_scope R10). -/
def fourBytes (v : Word) : List Byte :=
  [v.extractLsb' 24 8, v.extractLsb' 16 8, v.extractLsb' 8 8, v.extractLsb' 0 8]

/-- The status a failing single-layer operation leaves (60_exceptions R276). -/
def errStatus (k : ErrKind) (u : CodecUnit) (exp act : Half) : Status :=
  { err := k, unit := u, exp := exp, act := act, nbytes := 0, layers := 0, cls := .noClass, raw := 0 }

/-- The state in which FRAME_DEC meets the layer after the link layers (46_frame_dispatch R251): the Ethernet record written,
for `k = 18` the VLAN record too, and the cursor `k` bytes further on. -/
def afterLink (s : State) (k : Nat) : State :=
  { s with eth := ethAt s 0, vlan := if k = 18 then vlanAt s 14 else s.vlan, cur := s.cur + BitVec.ofNat 16 k }

/-- The bits of `STATUS.LAYERS` of those layers. -/
def linkLayers (k : Nat) : BitVec 6 := if k = 18 then 0b000011 else 0b000001

/-- The frame of `s` is untagged with the ethertype `t` (`k = 14`), or has one tag with the inner ethertype `t` (`k = 18`). -/
def linkType (s : State) (k : Nat) (t : Half) : Prop :=
  k = 14 ∧ halfAt s 12 = t ∨ k = 18 ∧ halfAt s 12 = 0x8100 ∧ halfAt s 16 = t

/-- A single-layer decode as 00_scope R12 describes one: the pure function applied to the view, its result wired to the
record, the cursor and the status register. -/
def wireDecode {α : Type} (u : CodecUnit) (parsed : Except CodecError (α × Nat)) (put : α → State)
    (reject : Ip4Rec → State) (s : State) : Result :=
  match parsed with
  | .ok (r, n) =>
    .next { put r with cur := s.cur + BitVec.ofNat 16 n
                       status := okStatus (BitVec.ofNat 16 n) (layerBit u) .noClass 0 }
  | .error (.tooShort e a) =>
    .next { s with status := errStatus .tooShort u (BitVec.ofNat 16 e) (BitVec.ofNat 16 a) }
  | .error (.unsupportedVersion r) => .next { reject r with status := errStatus .unsupportedVersion u 0 0 }
  | .error (.addrLenMismatch e a) =>
    .next { s with status := errStatus .addrLenMismatch u (BitVec.ofNat 16 e) (BitVec.ofNat 16 a) }

/-- An encode as 00_scope R12 describes one: the pure function applied to the record, its result wired to `OBUF` and the
status register. -/
def wireEncode (u : CodecUnit) (built : Except CodecError (List Byte)) (s : State) : Result :=
  match built with
  | .ok out =>
    .next { s with obuf := Memory.ofBytes out, status := okStatus (BitVec.ofNat 16 out.length) 0 .noClass 0 }
  | .error (.tooShort e a) =>
    .next { s with status := errStatus .tooShort u (BitVec.ofNat 16 e) (BitVec.ofNat 16 a) }
  | .error (.unsupportedVersion _) => .next { s with status := errStatus .unsupportedVersion u 0 0 }
  | .error (.addrLenMismatch e a) =>
    .next { s with status := errStatus .addrLenMismatch u (BitVec.ofNat 16 e) (BitVec.ofNat 16 a) }

/-! ### What fits a register -/

/-- The width of each integer register the host may write (10_state R22 to R30). -/
def intWidth : Reg → Option Nat
  | .ip4Flags => some 3
  | .vlanTc | .ip4Ver | .ip4Ihl => some 4
  | .arpHlen | .arpPlen | .ip4Tos | .ip4Ttl | .ip4Proto | .tcpDoff | .tcpCtrl => some 8
  | .vlanVid => some 12
  | .ip4Foff => some 13
  | .ethType | .vlanType | .arpHtype | .arpPtype | .arpOp | .ip4Tlen | .ip4Id | .ip4Csum | .tcpSport | .tcpDport
  | .tcpWin | .tcpCsum | .tcpUrg | .udpSport | .udpDport | .udpLen | .udpCsum | .cur => some 16
  | .tcpSeq | .tcpAck => some 32
  | .ethDst | .ethSrc | .arpSha | .arpSpa | .arpTha | .arpTpa | .ip4Src | .ip4Dst | .arpLen | .ibuf | .ibufLen | .obuf
  | .obufLen | .statusErr | .statusUnit | .statusExp | .statusAct | .statusNbytes | .statusLayers | .statusClass
  | .statusRaw | .pnameLen | .pnameCh | .kZeroMac | .kBcastMac | .kDefaultMac => none

/-- The least and the greatest length of each byte-sequence register the host may write (10_state R22, R24, R26). -/
def seqLength : Reg → Option (Nat × Nat)
  | .ethDst | .ethSrc => some (6, 6)
  | .ip4Src | .ip4Dst => some (4, 4)
  | .arpSha | .arpSpa | .arpTha | .arpTpa => some (0, 255)
  | .ethType | .vlanTc | .vlanVid | .vlanType | .arpHtype | .arpPtype | .arpHlen | .arpPlen | .arpOp | .ip4Ver | .ip4Ihl
  | .ip4Tos | .ip4Tlen | .ip4Id | .ip4Flags | .ip4Foff | .ip4Ttl | .ip4Proto | .ip4Csum | .tcpSport | .tcpDport
  | .tcpSeq | .tcpAck | .tcpDoff | .tcpCtrl | .tcpWin | .tcpCsum | .tcpUrg | .udpSport | .udpDport | .udpLen | .udpCsum
  | .cur | .arpLen | .ibuf | .ibufLen | .obuf | .obufLen | .statusErr | .statusUnit | .statusExp | .statusAct
  | .statusNbytes | .statusLayers | .statusClass | .statusRaw | .pnameLen | .pnameCh | .kZeroMac | .kBcastMac
  | .kDefaultMac => none

/-- A value is one a `SET` of the register may write (30_encoding R114). -/
def fits (r : Reg) : Value → Bool
  | .int n => match intWidth r with
    | some w => decide (n < 2 ^ w)
    | none => false
  | .bytes l => match seqLength r with
    | some (lo, hi) => decide (lo ≤ l.length ∧ l.length ≤ hi)
    | none => false

/-! ### Groups of instructions -/

/-- The six single-layer decodes (30_encoding R93). -/
def decodeOps : List Instr := [.ethDec, .vlanDec, .arpDec, .ip4Dec, .tcpDec, .udpDec]

/-- The six encodes (30_encoding R93). -/
def encodeOps : List Instr := [.ethEnc, .vlanEnc, .arpEnc, .ip4Enc, .tcpEnc, .udpEnc]

/-- The four classify operations (30_encoding R93). -/
def classifyOps : List Instr := [.ethClass, .vlanClass, .arpClass, .ip4Class]

/-- The error kinds an operation can report (60_exceptions R280). -/
def canRaise : Instr → List ErrKind
  | .frameDec => [.tooShort, .unsupportedVersion]
  | .ethDec | .vlanDec | .arpDec | .tcpDec | .udpDec => [.tooShort]
  | .ip4Dec => [.tooShort, .unsupportedVersion]
  | .arpEnc => [.addrLenMismatch]
  | .illegal _ => [.illegalOp]
  | .ethEnc | .vlanEnc | .ip4Enc | .tcpEnc | .udpEnc | .ethClass | .vlanClass | .arpClass | .ip4Class | .protoName
  | .ethertypeVlan | .ethertypeArp | .ethertypeIpv4 | .ethertypeIpv6 | .ethertypeOther _ | .arpPtypeIpv4
  | .arpPtypeOther _ | .ipprotoTcp | .ipprotoUdp | .ipprotoOther _ | .protonameIcmp | .protonameIgmp | .protonameIpip
  | .protonameTcp | .protonameUdp | .protonameEsp | .protonameAh | .protonameOspf | .protonamePim | .protonameVrrp
  | .protonameIsis | .protonameHex _ => []

end Sys2Proof.Machine
end

