-- ==== Sys2Proof/Certificates/Slice0/Obligations.lean ====
section
/-! DEFINITION. The statements for the provers. Each docstring names the rule of spec/ it formalises. `exec` and `step` are
the machine with the parameters `Config.current`; statements about the pure functions hold for every parameter value. -/

open Sys2Proof Sys2Proof.Machine

/-! ### Encoding and the step -/

/-- The CMD column of 30_encoding R93: each of the eighteen bytes decodes to its operation. -/
def Obligations.CommandBytesDecodeToTheirOperations : Prop :=
  decodeCmd 0x00 = .frameDec ∧ decodeCmd 0x10 = .ethDec ∧ decodeCmd 0x11 = .ethEnc ∧ decodeCmd 0x12 = .ethClass ∧
  decodeCmd 0x20 = .vlanDec ∧ decodeCmd 0x21 = .vlanEnc ∧ decodeCmd 0x22 = .vlanClass ∧
  decodeCmd 0x30 = .arpDec ∧ decodeCmd 0x31 = .arpEnc ∧ decodeCmd 0x32 = .arpClass ∧
  decodeCmd 0x40 = .ip4Dec ∧ decodeCmd 0x41 = .ip4Enc ∧ decodeCmd 0x42 = .ip4Class ∧
  decodeCmd 0x50 = .tcpDec ∧ decodeCmd 0x51 = .tcpEnc ∧ decodeCmd 0x60 = .udpDec ∧ decodeCmd 0x61 = .udpEnc ∧
  decodeCmd 0x73 = .protoName

/-- 30_encoding R94: which bytes are illegal, that there are 238 of them, and what an illegal command does. -/
def Obligations.OtherCommandBytesRaiseIllegalOp : Prop :=
  (∀ c : Byte, c ∉ legalCmds ↔
    8 ≤ (c.extractLsb' 4 4).toNat ∨ 4 ≤ (c.extractLsb' 0 4).toNat ∨
      c ∈ ([0x01, 0x02, 0x03, 0x13, 0x23, 0x33, 0x43, 0x52, 0x53, 0x62, 0x63, 0x70, 0x71, 0x72] : List Byte)) ∧
  ((List.range 256).filter fun n => !legalCmds.contains (BitVec.ofNat 8 n)).length = 238 ∧
  ∀ (c : Byte) (s : State), c ∉ legalCmds →
    decodeCmd c = .illegal c ∧
    exec (decodeCmd c) s = .next { s with status := errStatus .illegalOp .frame 0 0 }

/-- Encoding and decoding agree: for every instruction of the table and every parameter values that 00_scope R6 admits,
decoding the bytes of a well-formed instruction, in its own format, gives it back with its operand. -/
def Obligations.DecodeOfEncodeGivesTheInstruction : Prop :=
  ∀ (cfg : Config) (i : Instr), cfg.valid = true → i.wf cfg = true →
    decodeIn cfg i.format (encode cfg i) = .ok i

/-- The other direction: every sequence of bytes of a format's length decodes to a well-formed instruction of that format,
whose bytes are that sequence. So no two rows of a format overlap and none is missing (30_encoding R116). -/
def Obligations.EncodeOfDecodeGivesTheBytes : Prop :=
  ∀ (cfg : Config) (f : Format) (bs : List Byte), bs.length = f.nbytes →
    ∃ i, decodeIn cfg f bs = .ok i ∧ i.format = f ∧ i.wf cfg = true ∧ encode cfg i = bs

/-- A step whose next input is a command takes it and runs the instruction its byte decodes to; with no input waiting the
block is idle (70_reset_and_hazards R301).
That the host's inputs wait in a list of the state is the model's choice (log entry 5). -/
def Obligations.StepRunsTheDecodedCommand : Prop :=
  (∀ (s : State) (c : Byte) (rest : List Input) (i : Instr), s.inbox = .cmd c :: rest →
    decodeIn Config.current .cmd [c] = .ok i →
    i.wf Config.current = true ∧ step s = exec i { s with inbox := rest }) ∧
  ∀ s : State, s.inbox = [] → step s = .next s

/-- "A decoder of commands and a dispatcher of layers can be written from the table alone" (30_encoding R116): each classify
operation and PROTO_NAME does what the row does that the value of its register selects.
The meaning of a row as an instruction is the model's choice (log entry 8). -/
def Obligations.ClassifyOperationsDoWhatTheirTableRowDoes : Prop :=
  ∀ s : State,
    exec .ethClass s = exec (decodeEthertype s.eth.type) s ∧
    exec .vlanClass s = exec (decodeEthertype s.vlan.type) s ∧
    exec .arpClass s = exec (decodeArpPtype s.arp.ptype) s ∧
    exec .ip4Class s = exec (decodeIpproto Config.current s.ip4.proto) s ∧
    exec .protoName s = exec (decodeProtoname Config.current s.ip4.proto) s

/-! ### Host actions, registers, reset -/

/-- 10_state R39: what RESET leaves in every piece of state, the views included, and that the constants are not affected.
The inputs still to come are the model's own field and stay (log entry 5). -/
def Obligations.ResetLeavesTheTableOfValues : Prop :=
  ∀ (s : State) (rest : List Input), s.inbox = .reset :: rest → ∃ t, step s = .next t ∧
    t.eth.dst = ⟨0, 0, 0, 0, 0, 0⟩ ∧ t.eth.src = ⟨0, 0, 0, 0, 0, 0⟩ ∧ t.eth.type = 0 ∧
    t.vlan.tc = 0 ∧ t.vlan.vid = 0 ∧ t.vlan.type = 0 ∧
    t.arp.htype = 0 ∧ t.arp.ptype = 0 ∧ t.arp.hlen = 0 ∧ t.arp.plen = 0 ∧ t.arp.op = 0 ∧
    t.arp.sha = [] ∧ t.arp.spa = [] ∧ t.arp.tha = [] ∧ t.arp.tpa = [] ∧
    t.ip4.ver = 0 ∧ t.ip4.ihl = 0 ∧ t.ip4.tos = 0 ∧ t.ip4.tlen = 0 ∧ t.ip4.id = 0 ∧ t.ip4.flags = 0 ∧
    t.ip4.foff = 0 ∧ t.ip4.ttl = 0 ∧ t.ip4.proto = 0 ∧ t.ip4.csum = 0 ∧
    t.ip4.src = ⟨0, 0, 0, 0⟩ ∧ t.ip4.dst = ⟨0, 0, 0, 0⟩ ∧
    t.tcp.sport = 0 ∧ t.tcp.dport = 0 ∧ t.tcp.seq = 0 ∧ t.tcp.ack = 0 ∧ t.tcp.doff = 0 ∧ t.tcp.ctrl = 0 ∧
    t.tcp.win = 0 ∧ t.tcp.csum = 0 ∧ t.tcp.urg = 0 ∧
    t.udp.sport = 0 ∧ t.udp.dport = 0 ∧ t.udp.len = 0 ∧ t.udp.csum = 0 ∧
    t.cur = 0 ∧ t.ibuf.bytes = [] ∧ t.obuf.bytes = [] ∧
    t.status.err = .none ∧ t.status.unit = .frame ∧ t.status.exp = 0 ∧ t.status.act = 0 ∧ t.status.nbytes = 0 ∧
    t.status.layers = 0 ∧ t.status.cls = .noClass ∧ t.status.raw = 0 ∧
    t.pname.len = 0 ∧ t.pname.ch = ⟨0, 0, 0, 0⟩ ∧ t.inbox = rest ∧
    readReg Config.current .arpLen t = .int 8 ∧ readReg Config.current .ibufLen t = .int 0 ∧
    readReg Config.current .obufLen t = .int 0 ∧
    (∀ r ∈ ([.kZeroMac, .kBcastMac, .kDefaultMac] : List Reg),
      readReg Config.current r t = readReg Config.current r s)

/-- The LOAD and GET lines of 30_encoding R114: LOAD replaces IBUF whole and changes nothing else, the records included
(10_state R40); more than BUF_CAP bytes are refused; GET has no effect on the state.
The list of inputs is log entry 5, the value of BUF_CAP log entry 1, the refusal by name log entry 10. -/
def Obligations.LoadReplacesTheInputBufferAndNothingElse : Prop :=
  ∀ (s : State) (rest : List Input),
    (∀ l : List Byte, s.inbox = .load l :: rest →
      (l.length ≤ Config.current.bufCap →
        step s = .next { s with ibuf := Memory.ofBytes l, inbox := rest }) ∧
      (Config.current.bufCap < l.length → step s = .refused .loadTooLong)) ∧
    ∀ r : Reg, s.inbox = .get r :: rest → step s = .next { s with inbox := rest }

/-- The SET line of 30_encoding R114 with 10_state R29: a value of exactly the register's width is taken; any other is
refused, never truncated; a register the host cannot write is refused.
The refusals by name are the model's (log entry 10). -/
def Obligations.SetTakesExactlyTheValuesThatFit : Prop :=
  ∀ (s : State) (r : Reg) (v : Value) (rest : List Input), s.inbox = .set r v :: rest →
    (writable r = true → fits r v = true → ∃ t, step s = .next t) ∧
    (writable r = true → fits r v = false → step s = .refused .setDoesNotFit) ∧
    (writable r = false → step s = .refused .setReadOnly)

/-- A SET that is taken makes the register read as the value, and every other register reads as before: none aliases
another (10_state R29). ARP.LEN is a view of two registers (10_state R25) and is left out of the second part.
The list of inputs is log entry 5. -/
def Obligations.SetWritesItsRegisterAndNoOther : Prop :=
  ∀ (s t : State) (r : Reg) (v : Value) (rest : List Input), s.inbox = .set r v :: rest → step s = .next t →
    readReg Config.current r t = v ∧ t.inbox = rest ∧
    ∀ r' : Reg, r' ≠ r → r' ≠ .arpLen → readReg Config.current r' t = readReg Config.current r' s

/-- 41_vlan R156: a VLAN id above 4095 is refused at the SET and not masked; VLAN_ENC has no range error and writes the
first field bit for bit, `TC * 4096 + VID`.
How the SET reaches the block is log entry 5. -/
def Obligations.VlanIdRangeIsCheckedByTheSet : Prop :=
  (∀ (s : State) (n : Nat) (rest : List Input), s.inbox = .set .vlanVid (.int n) :: rest →
    (4095 < n → step s = .refused .setDoesNotFit) ∧
    (n ≤ 4095 → ∃ t, step s = .next t ∧ t.vlan.vid.toNat = n ∧
      { t with vlan.vid := s.vlan.vid, inbox := s.inbox } = s)) ∧
  ∀ s : State, ∃ t, exec .vlanEnc s = .next t ∧ t.status.err = .none ∧
    be (t.obuf.bytes.take 2) = s.vlan.tc.toNat * 4096 + s.vlan.vid.toNat

/-- ARP.LEN is a view, `8 + 2 * (HLEN + PLEN)`, from 8 to 1028 (10_state R25), and no step of the sum wraps (30_encoding R111).
That a SET of it is refused, and by this name, is the model's choice (log entry 10, through the inputs of log entry 5): 10_state
R25 says that the view is read-only and that the host cannot break it. -/
def Obligations.ArpLenIsAViewThatNeverWraps : Prop :=
  ∀ s : State,
    readReg Config.current .arpLen s = .int (8 + 2 * (s.arp.hlen.toNat + s.arp.plen.toNat)) ∧
    8 ≤ 8 + 2 * (s.arp.hlen.toNat + s.arp.plen.toNat) ∧
    8 + 2 * (s.arp.hlen.toNat + s.arp.plen.toNat) ≤ 1028 ∧
    ∀ (v : Value) (rest : List Input), s.inbox = .set .arpLen v :: rest → step s = .refused .setReadOnly

/-- 30_encoding R115: after the expansion of a pseudo-instruction has run, its "true when" column says what its name says
of the register it stands for; REWIND leaves CUR at 0 and changes nothing else.
The list of inputs is log entry 5. -/
def Obligations.PseudoInstructionsTestWhatTheyName : Prop :=
  ∀ (s : State) (rest : List Input),
    (∀ p : Pseudo, p ≠ .rewind → s.inbox = expandPseudo p ++ rest →
      ∃ t, Host.Core.run Sys2Proof.core 2 s = .next t ∧ sameButStatus { s with inbox := rest } t ∧
        (pseudoHolds Config.current p t = true ↔
          match p with
          | .isVlan => s.eth.type = 0x8100
          | .isArp => s.eth.type = 0x0806
          | .isIpv4 => s.eth.type = 0x0800
          | .arpIsIpv4 => s.arp.ptype = 0x0800
          | .isTcp => s.ip4.proto = Config.current.protoTcp
          | .isUdp => s.ip4.proto = Config.current.protoUdp
          | .rewind => False)) ∧
    (s.inbox = expandPseudo .rewind ++ rest → step s = .next { s with cur := 0, inbox := rest })

/-! ### Bytes and buffers -/

/-- 00_scope R10: `be` puts the first byte on top, and `bytes_n` is its inverse. -/
def Obligations.BigEndianBytesAndValueAreInverse : Prop :=
  be [] = 0 ∧
  (∀ (b : Byte) (l : List Byte), be (b :: l) = b.toNat * 256 ^ l.length + be l) ∧
  (∀ l : List Byte, be l < 256 ^ l.length) ∧
  (∀ n v : Nat, v < 256 ^ n → (bytesOf n v).length = n ∧ be (bytesOf n v) = v) ∧
  ∀ l : List Byte, bytesOf l.length (be l) = l

/-- A buffer written whole reads back byte for byte, holds no byte at any other address (20_memory R61, R75), and is in the
canonical form, in which equal contents are equal buffers. -/
def Obligations.WrittenBufferReadsBackByteForByte : Prop :=
  (∀ (l : List Byte) (a : Nat), (Memory.ofBytes l).readByte a = l[a]?) ∧
  (∀ l : List Byte, (Memory.ofBytes l).wf = true ∧ (Memory.ofBytes l).bytes = l ∧ (Memory.ofBytes l).len = l.length) ∧
  ∀ m m' : Memory, m.wf = true → m'.wf = true → (∀ a, m.readByte a = m'.readByte a) → m = m'

/-- 20_memory R63: `avail`, the bytes of the view, and that a cursor beyond the end is rejected with `TooShort` and an
actual length of 0 by every decode. -/
def Obligations.ViewStartsAtTheCursor : Prop :=
  ∀ s : State, bufferOk s.ibuf →
    (s.cur.toNat ≤ s.ibuf.len → s.avail = s.ibuf.len - s.cur.toNat) ∧
    (s.ibuf.len < s.cur.toNat → s.avail = 0) ∧
    s.avail ≤ Config.current.bufCap ∧
    s.view.length = s.avail ∧
    (∀ i, i < s.avail → s.view[i]? = s.ibuf.readByte (s.cur.toNat + i)) ∧
    (s.ibuf.len < s.cur.toNat → ∀ i ∈ Instr.frameDec :: decodeOps,
      ∃ t, exec i s = .next t ∧ t.status.err = .tooShort ∧ t.status.act = 0)

/-- 20_memory R64: no operation reads outside the buffer, whatever its contents, its length and the cursor.
The fault that such a read would raise is the model's (log entry 11). -/
def Obligations.NoOperationReadsOutsideTheBuffer : Prop :=
  ∀ (i : Instr) (s : State), s.ibuf.wf = true → faults (exec i s) = false

/-! ### Invariants -/

/-- The reset state meets the invariant. -/
def Obligations.ResetStateMeetsTheInvariant : Prop := State.reset.Inv

/-- Every step from a state that meets the invariant, whatever input it takes, leaves a state that meets it: both buffers in
canonical form and within BUF_CAP (10_state R31, R32), ARP addresses of at most 255 bytes (R24), PNAME of a legal length and
padded with zeros (R36), STATUS as its error kind allows (R33; 60_exceptions R271, R273). -/
def Obligations.EveryStepKeepsTheInvariant : Prop :=
  ∀ s t : State, s.Inv → step s = .next t → t.Inv

/-- From a state that meets the invariant every instruction completes, and leaves such a state (60_exceptions R278: "The
hardware has no stuck state, no hang and no undefined result"). -/
def Obligations.EveryInstructionCompletes : Prop :=
  ∀ (i : Instr) (s : State), s.Inv → ∃ t, exec i s = .next t ∧ t.Inv

/-! ### Decodes -/

/-- 40_ethernet R131, whole. -/
def Obligations.EthDecReadsTheHeaderAtTheCursor : Prop :=
  decodeCmd 0x10 = .ethDec ∧
  ∀ s : State, s.ibuf.wf = true →
    (14 ≤ s.avail → exec .ethDec s = .next
      { s with eth := ethAt s 0, cur := s.cur + 14, status := okStatus 14 0b000001 .noClass 0 }) ∧
    (s.avail < 14 → exec .ethDec s = .next
      { s with status := errStatus .tooShort .eth 14 (BitVec.ofNat 16 s.avail) })

/-- 41_vlan R151, whole. -/
def Obligations.VlanDecReadsTheTagAtTheCursor : Prop :=
  decodeCmd 0x20 = .vlanDec ∧
  ∀ s : State, s.ibuf.wf = true →
    (4 ≤ s.avail → exec .vlanDec s = .next
      { s with vlan := vlanAt s 0, cur := s.cur + 4, status := okStatus 4 0b000010 .noClass 0 }) ∧
    (s.avail < 4 → exec .vlanDec s = .next
      { s with status := errStatus .tooShort .vlan 4 (BitVec.ofNat 16 s.avail) })

/-- 42_arp R166, whole, with the order of the checks of R170. -/
def Obligations.ArpDecChecksTheTotalBeforeAnyAddress : Prop :=
  decodeCmd 0x30 = .arpDec ∧
  ∀ s : State, s.ibuf.wf = true →
    (8 ≤ s.avail → arpTotalAt s 0 ≤ s.avail → exec .arpDec s = .next
      { s with arp := arpAt s 0, cur := s.cur + BitVec.ofNat 16 (arpTotalAt s 0)
               status := okStatus (BitVec.ofNat 16 (arpTotalAt s 0)) 0b000100 .noClass 0 }) ∧
    (8 ≤ s.avail → s.avail < arpTotalAt s 0 → exec .arpDec s = .next
      { s with status := errStatus .tooShort .arp (BitVec.ofNat 16 (arpTotalAt s 0)) (BitVec.ofNat 16 s.avail) }) ∧
    (s.avail < 8 → exec .arpDec s = .next
      { s with status := errStatus .tooShort .arp 8 (BitVec.ofNat 16 s.avail) })

/-- 43_ipv4 R191, whole, with the rejected record of R196: on a version other than 4 the twelve registers are written and
the cursor does not move. -/
def Obligations.Ip4DecReadsTheHeaderAndRejectsOtherVersions : Prop :=
  decodeCmd 0x40 = .ip4Dec ∧
  ∀ s : State, s.ibuf.wf = true →
    (20 ≤ s.avail → (ip4At s 0).ver = 4 → exec .ip4Dec s = .next
      { s with ip4 := ip4At s 0, cur := s.cur + 20, status := okStatus 20 0b001000 .noClass 0 }) ∧
    (20 ≤ s.avail → (ip4At s 0).ver ≠ 4 → exec .ip4Dec s = .next
      { s with ip4 := ip4At s 0, status := errStatus .unsupportedVersion .ip4 0 0 }) ∧
    (s.avail < 20 → exec .ip4Dec s = .next
      { s with status := errStatus .tooShort .ip4 20 (BitVec.ofNat 16 s.avail) })

/-- 44_tcp_udp R216, whole; byte 12 is kept whole (R219). -/
def Obligations.TcpDecReadsTheHeaderAtTheCursor : Prop :=
  decodeCmd 0x50 = .tcpDec ∧
  ∀ s : State, s.ibuf.wf = true →
    (20 ≤ s.avail → exec .tcpDec s = .next
      { s with tcp := tcpAt s 0, cur := s.cur + 20, status := okStatus 20 0b010000 .noClass 0 }) ∧
    (s.avail < 20 → exec .tcpDec s = .next
      { s with status := errStatus .tooShort .tcp 20 (BitVec.ofNat 16 s.avail) })

/-- 44_tcp_udp R221, whole. -/
def Obligations.UdpDecReadsTheHeaderAtTheCursor : Prop :=
  decodeCmd 0x60 = .udpDec ∧
  ∀ s : State, s.ibuf.wf = true →
    (8 ≤ s.avail → exec .udpDec s = .next
      { s with udp := udpAt s 0, cur := s.cur + 8, status := okStatus 8 0b100000 .noClass 0 }) ∧
    (s.avail < 8 → exec .udpDec s = .next
      { s with status := errStatus .tooShort .udp 8 (BitVec.ofNat 16 s.avail) })

/-! ### Encodes -/

/-- 40_ethernet R133, whole. -/
def Obligations.EthEncWritesFourteenBytes : Prop :=
  decodeCmd 0x11 = .ethEnc ∧
  ∀ s : State, exec .ethEnc s = .next
    { s with obuf := Memory.ofBytes (s.eth.dst.toList ++ s.eth.src.toList ++ hiLo s.eth.type)
             status := okStatus 14 0 .noClass 0 }

/-- 41_vlan R153, whole: the first field is TC then VID, bit for bit. -/
def Obligations.VlanEncWritesFourBytes : Prop :=
  decodeCmd 0x21 = .vlanEnc ∧
  ∀ s : State, exec .vlanEnc s = .next
    { s with obuf := Memory.ofBytes
               ([s.vlan.tc ++ s.vlan.vid.extractLsb' 8 4, s.vlan.vid.extractLsb' 0 8] ++ hiLo s.vlan.type)
             status := okStatus 4 0 .noClass 0 }

/-- 42_arp R168, whole: the message when every address has its declared length, else `AddrLenMismatch` for the first of SHA,
SPA, THA, TPA that has not. -/
def Obligations.ArpEncWritesTheMessageOrReportsTheFirstMismatch : Prop :=
  decodeCmd 0x31 = .arpEnc ∧
  ∀ s : State,
    (s.arp.sha.length = s.arp.hlen.toNat → s.arp.spa.length = s.arp.plen.toNat →
      s.arp.tha.length = s.arp.hlen.toNat → s.arp.tpa.length = s.arp.plen.toNat →
      exec .arpEnc s = .next
        { s with obuf := Memory.ofBytes
                   (hiLo s.arp.htype ++ hiLo s.arp.ptype ++ [s.arp.hlen, s.arp.plen] ++ hiLo s.arp.op ++ s.arp.sha
                     ++ s.arp.spa ++ s.arp.tha ++ s.arp.tpa)
                 status := okStatus (BitVec.ofNat 16 (8 + 2 * (s.arp.hlen.toNat + s.arp.plen.toNat))) 0 .noClass 0 }) ∧
    (s.arp.sha.length ≠ s.arp.hlen.toNat →
      exec .arpEnc s = .next
        { s with status :=
                   errStatus .addrLenMismatch .arp (s.arp.hlen.setWidth 16) (BitVec.ofNat 16 s.arp.sha.length) }) ∧
    (s.arp.sha.length = s.arp.hlen.toNat → s.arp.spa.length ≠ s.arp.plen.toNat →
      exec .arpEnc s = .next
        { s with status :=
                   errStatus .addrLenMismatch .arp (s.arp.plen.setWidth 16) (BitVec.ofNat 16 s.arp.spa.length) }) ∧
    (s.arp.sha.length = s.arp.hlen.toNat → s.arp.spa.length = s.arp.plen.toNat →
      s.arp.tha.length ≠ s.arp.hlen.toNat →
      exec .arpEnc s = .next
        { s with status :=
                   errStatus .addrLenMismatch .arp (s.arp.hlen.setWidth 16) (BitVec.ofNat 16 s.arp.tha.length) }) ∧
    (s.arp.sha.length = s.arp.hlen.toNat → s.arp.spa.length = s.arp.plen.toNat →
      s.arp.tha.length = s.arp.hlen.toNat → s.arp.tpa.length ≠ s.arp.plen.toNat →
      exec .arpEnc s = .next
        { s with status :=
                   errStatus .addrLenMismatch .arp (s.arp.plen.setWidth 16) (BitVec.ofNat 16 s.arp.tpa.length) })

/-- 43_ipv4 R193, whole: twenty bytes whatever IHL holds, no version check, the checksum as held. -/
def Obligations.Ip4EncWritesTwentyBytes : Prop :=
  decodeCmd 0x41 = .ip4Enc ∧
  ∀ s : State, exec .ip4Enc s = .next
    { s with obuf := Memory.ofBytes
               ([s.ip4.ver ++ s.ip4.ihl, s.ip4.tos] ++ hiLo s.ip4.tlen ++ hiLo s.ip4.id
                 ++ [s.ip4.flags ++ s.ip4.foff.extractLsb' 8 5, s.ip4.foff.extractLsb' 0 8]
                 ++ [s.ip4.ttl, s.ip4.proto] ++ hiLo s.ip4.csum ++ s.ip4.src.toList ++ s.ip4.dst.toList)
             status := okStatus 20 0 .noClass 0 }

/-- 44_tcp_udp R218 and R223, whole. -/
def Obligations.TransportEncodesWriteTheirFields : Prop :=
  decodeCmd 0x51 = .tcpEnc ∧ decodeCmd 0x61 = .udpEnc ∧
  (∀ s : State, exec .tcpEnc s = .next
    { s with obuf := Memory.ofBytes
               (hiLo s.tcp.sport ++ hiLo s.tcp.dport ++ fourBytes s.tcp.seq ++ fourBytes s.tcp.ack
                 ++ [s.tcp.doff, s.tcp.ctrl] ++ hiLo s.tcp.win ++ hiLo s.tcp.csum ++ hiLo s.tcp.urg)
             status := okStatus 20 0 .noClass 0 }) ∧
  ∀ s : State, exec .udpEnc s = .next
    { s with obuf := Memory.ofBytes
               (hiLo s.udp.sport ++ hiLo s.udp.dport ++ hiLo s.udp.len ++ hiLo s.udp.csum)
             status := okStatus 8 0 .noClass 0 }

/-- 00_scope R12: each codec operation is its pure function, on the view for a decode and on the record for an encode, wired
to the registers and buffers. -/
def Obligations.OperationsWireTheirPureFunctions : Prop :=
  ∀ s : State,
    (s.ibuf.wf = true →
      exec .ethDec s = wireDecode .eth (ethParse s.view) (fun r => { s with eth := r }) (fun _ => s) s ∧
      exec .vlanDec s = wireDecode .vlan (vlanParse s.view) (fun r => { s with vlan := r }) (fun _ => s) s ∧
      exec .arpDec s = wireDecode .arp (arpParse s.view) (fun r => { s with arp := r }) (fun _ => s) s ∧
      exec .ip4Dec s =
        wireDecode .ip4 (ip4Parse s.view) (fun r => { s with ip4 := r }) (fun r => { s with ip4 := r }) s ∧
      exec .tcpDec s = wireDecode .tcp (tcpParse s.view) (fun r => { s with tcp := r }) (fun _ => s) s ∧
      exec .udpDec s = wireDecode .udp (udpParse s.view) (fun r => { s with udp := r }) (fun _ => s) s) ∧
    exec .ethEnc s = wireEncode .eth (.ok (ethBuild s.eth)) s ∧
    exec .vlanEnc s = wireEncode .vlan (.ok (vlanBuild s.vlan)) s ∧
    exec .arpEnc s = wireEncode .arp (arpBuild s.arp) s ∧
    exec .ip4Enc s = wireEncode .ip4 (.ok (ip4Build s.ip4)) s ∧
    exec .tcpEnc s = wireEncode .tcp (.ok (tcpBuild s.tcp)) s ∧
    exec .udpEnc s = wireEncode .udp (.ok (udpBuild s.udp)) s

/-! ### Round trips -/

/-- 40_ethernet R137: every record is valid, so parse undoes build and build undoes parse; short views are `TooShort`; the
class found after encoding, loading and decoding, into whatever record stood there, is that of the ethertype encoded. -/
def Obligations.EthernetHeadersRoundTrip : Prop :=
  (∀ r : EthRec, ethParse (ethBuild r) = .ok (r, 14)) ∧
  (∀ v : List Byte, 14 ≤ v.length → ∃ r, ethParse v = .ok (r, 14) ∧ ethBuild r = v.take 14) ∧
  (∀ v : List Byte, v.length < 14 → ethParse v = .error (.tooShort 14 v.length)) ∧
  ∀ (s : State) (r : EthRec), ∃ a b c, exec .ethEnc s = .next a ∧
    exec .ethDec { a with eth := r, ibuf := a.obuf, cur := 0 } = .next b ∧ b.status.err = .none ∧ b.eth = s.eth ∧
    exec .ethClass b = .next c ∧ c.status.err = .none ∧ c.status.raw = s.eth.type ∧
    c.status.cls = (classifyEthertype s.eth.type).1

/-- 41_vlan R157. -/
def Obligations.VlanTagsRoundTrip : Prop :=
  (∀ r : VlanRec, vlanParse (vlanBuild r) = .ok (r, 4)) ∧
  (∀ v : List Byte, 4 ≤ v.length → ∃ r, vlanParse v = .ok (r, 4) ∧ vlanBuild r = v.take 4) ∧
  ∀ v : List Byte, v.length < 4 → vlanParse v = .error (.tooShort 4 v.length)

/-- 42_arp R171. -/
def Obligations.ArpMessagesRoundTrip : Prop :=
  (∀ r : ArpRec, r.valid = true ↔
    r.sha.length = r.hlen.toNat ∧ r.tha.length = r.hlen.toNat ∧ r.spa.length = r.plen.toNat ∧
      r.tpa.length = r.plen.toNat) ∧
  (∀ (v : List Byte) (r : ArpRec) (n : Nat), arpParse v = .ok (r, n) → r.valid = true ∧ arpBuild r = .ok (v.take n)) ∧
  (∀ r : ArpRec, r.valid = true → ∃ out, arpBuild r = .ok out ∧
    arpParse out = .ok (r, 8 + 2 * (r.hlen.toNat + r.plen.toNat))) ∧
  ∀ v : List Byte, v.length = 28 → v[4]? = some 6 → v[5]? = some 4 → ∃ r, arpParse v = .ok (r, 28)

/-- 43_ipv4 R198: version 4 is what makes a record valid; build undoes parse on accepted and on rejected headers. -/
def Obligations.Ipv4HeadersRoundTrip : Prop :=
  (∀ r : Ip4Rec, r.valid = true ↔ r.ver = 4) ∧
  (∀ r : Ip4Rec, r.valid = true → ip4Parse (ip4Build r) = .ok (r, 20)) ∧
  (∀ v : List Byte, 20 ≤ v.length → ∃ r, ip4Build r = v.take 20 ∧
    ((r.ver = 4 ∧ ip4Parse v = .ok (r, 20)) ∨ (r.ver ≠ 4 ∧ ip4Parse v = .error (.unsupportedVersion r)))) ∧
  ∀ v : List Byte, v.length < 20 → ip4Parse v = .error (.tooShort 20 v.length)

/-- 44_tcp_udp R224: both codecs round trip, and neither has a classify operation. -/
def Obligations.TransportHeadersRoundTrip : Prop :=
  (∀ r : TcpRec, tcpParse (tcpBuild r) = .ok (r, 20)) ∧
  (∀ r : UdpRec, udpParse (udpBuild r) = .ok (r, 8)) ∧
  (∀ v : List Byte, 20 ≤ v.length → ∃ r, tcpParse v = .ok (r, 20) ∧ tcpBuild r = v.take 20) ∧
  (∀ v : List Byte, 8 ≤ v.length → ∃ r, udpParse v = .ok (r, 8) ∧ udpBuild r = v.take 8) ∧
  (∀ v : List Byte, v.length < 20 → tcpParse v = .error (.tooShort 20 v.length)) ∧
  (∀ v : List Byte, v.length < 8 → udpParse v = .error (.tooShort 8 v.length)) ∧
  decodeCmd 0x52 = .illegal 0x52 ∧ decodeCmd 0x62 = .illegal 0x62

/-! ### Classification and names -/

/-- 30_encoding R104: the four classes of an ethertype, the three predicates, and how they agree. -/
def Obligations.EthertypesFallInExactlyOneClass : Prop :=
  ∀ t : Half,
    (t = 0x8100 → classifyEthertype t = (.vlan, t)) ∧
    (t = 0x0806 → classifyEthertype t = (.arp, t)) ∧
    (t = 0x0800 → classifyEthertype t = (.ipv4, t)) ∧
    (t ≠ 0x8100 → t ≠ 0x0806 → t ≠ 0x0800 → classifyEthertype t = (.unknownEther, t)) ∧
    (isVlan t = true ↔ t = 0x8100) ∧ (isArp t = true ↔ t = 0x0806) ∧ (isIpv4 t = true ↔ t = 0x0800) ∧
    ((classifyEthertype t).1 = .vlan ↔ isVlan t = true) ∧
    ((classifyEthertype t).1 = .arp ↔ isArp t = true) ∧
    ((classifyEthertype t).1 = .ipv4 ↔ isIpv4 t = true) ∧
    ¬ (isVlan t = true ∧ isArp t = true) ∧ ¬ (isVlan t = true ∧ isIpv4 t = true) ∧
    ¬ (isArp t = true ∧ isIpv4 t = true)

/-- 40_ethernet R134, 41_vlan R154 and 42_arp R169: ETH_CLASS, VLAN_CLASS and ARP_CLASS change nothing but STATUS, which
reports the class of the record's ethertype; ARP_CLASS tests the IPv4 value only. -/
def Obligations.EthVlanAndArpClassReportTheirValue : Prop :=
  decodeCmd 0x12 = .ethClass ∧ decodeCmd 0x22 = .vlanClass ∧ decodeCmd 0x32 = .arpClass ∧
  ∀ s : State,
    exec .ethClass s = .next
      { s with
        status := okStatus 0 0
          (if s.eth.type = 0x8100 then .vlan else if s.eth.type = 0x0806 then .arp
            else if s.eth.type = 0x0800 then .ipv4 else .unknownEther) s.eth.type } ∧
    exec .vlanClass s = .next
      { s with
        status := okStatus 0 0
          (if s.vlan.type = 0x8100 then .vlan else if s.vlan.type = 0x0806 then .arp
            else if s.vlan.type = 0x0800 then .ipv4 else .unknownEther) s.vlan.type } ∧
    (arpIsIpv4 s.arp = true ↔ s.arp.ptype = 0x0800) ∧
    exec .arpClass s = .next
      { s with status := okStatus 0 0 (if s.arp.ptype = 0x0800 then .ipv4 else .unknownEther) s.arp.ptype }

/-- 30_encoding R106 for every admissible protocol number, and 43_ipv4 R194: IP4_CLASS looks at IP4.PROTO alone and changes
nothing but STATUS. -/
def Obligations.Ip4ClassReportsTheProtocol : Prop :=
  decodeCmd 0x42 = .ip4Class ∧
  (∀ (cfg : Config) (p : Byte), cfg.valid = true →
    (p = cfg.protoTcp → classifyProto cfg p = (.tcp, p.setWidth 16)) ∧
    (p = cfg.protoUdp → classifyProto cfg p = (.udp, p.setWidth 16)) ∧
    (p ≠ cfg.protoTcp → p ≠ cfg.protoUdp → classifyProto cfg p = (.otherProto, p.setWidth 16))) ∧
  (∀ (cfg : Config) (s : State), ip4ClassAt cfg s = .next
      { s with status := okStatus 0 0 (classifyProto cfg s.ip4.proto).1 (s.ip4.proto.setWidth 16) }) ∧
  ∀ s : State, exec .ip4Class s = ip4ClassAt Config.current s

/-- 45_protocol_name R240 for every admissible protocol number: the eleven names, and two hexadecimal digits otherwise; R242:
the digits of the high and the low half, `0` to `9` from 0x30 and `a` to `f` from 0x61. -/
def Obligations.ProtocolNumbersHaveTheirNames : Prop :=
  (∀ cfg : Config, cfg.valid = true →
    protoName cfg cfg.protoIcmp = [0x69, 0x63, 0x6d, 0x70] ∧ protoName cfg cfg.protoIgmp = [0x69, 0x67, 0x6d, 0x70] ∧
    protoName cfg cfg.protoIpip = [0x69, 0x70, 0x69, 0x70] ∧ protoName cfg cfg.protoTcp = [0x74, 0x63, 0x70] ∧
    protoName cfg cfg.protoUdp = [0x75, 0x64, 0x70] ∧ protoName cfg cfg.protoEsp = [0x65, 0x73, 0x70] ∧
    protoName cfg cfg.protoAh = [0x61, 0x68] ∧ protoName cfg cfg.protoOspf = [0x6f, 0x73, 0x70, 0x66] ∧
    protoName cfg cfg.protoPim = [0x70, 0x69, 0x6d] ∧ protoName cfg cfg.protoVrrp = [0x76, 0x72, 0x72, 0x70] ∧
    protoName cfg cfg.protoIsis = [0x69, 0x73, 0x69, 0x73] ∧
    ∀ p : Byte, p ∉ cfg.protos → protoName cfg p = hex2 p) ∧
  ∀ p : Byte, ∃ a b : Byte, hex2 p = [a, b] ∧
    ((p.toNat / 16 < 10 ∧ a.toNat = 0x30 + p.toNat / 16) ∨ (10 ≤ p.toNat / 16 ∧ a.toNat = 0x61 + (p.toNat / 16 - 10))) ∧
    ((p.toNat % 16 < 10 ∧ b.toNat = 0x30 + p.toNat % 16) ∨ (10 ≤ p.toNat % 16 ∧ b.toNat = 0x61 + (p.toNat % 16 - 10)))

/-- 45_protocol_name R241: PROTO_NAME writes the length and the characters, padded with 0x00, and every field of STATUS 0;
nothing else changes. -/
def Obligations.ProtoNameWritesPname : Prop :=
  decodeCmd 0x73 = .protoName ∧
  (∀ (cfg : Config) (s : State),
    2 ≤ (protoName cfg s.ip4.proto).length ∧ (protoName cfg s.ip4.proto).length ≤ 4 ∧
    ∃ t, protoNameAt cfg s = .next t ∧ { t with pname := s.pname, status := s.status } = s ∧
      t.pname.len.toNat = (protoName cfg s.ip4.proto).length ∧
      (∀ i, i < 4 → t.pname.ch.toList[i]? = some ((protoName cfg s.ip4.proto).getD i 0)) ∧
      t.status = okStatus 0 0 .noClass 0) ∧
  ∀ s : State, exec .protoName s = protoNameAt Config.current s

/-- The rows of the ETHERTYPE and ARPPTYPE tables (30_encoding R104, R105; 42_arp R169): each reports its class and its
value, and changes nothing but STATUS.
The meaning of a row as an instruction is the model's choice (log entry 8). -/
def Obligations.EthertypeRowsReportTheirClass : Prop :=
  ∀ s : State,
    exec .ethertypeVlan s = .next { s with status := okStatus 0 0 .vlan 0x8100 } ∧
    exec .ethertypeArp s = .next { s with status := okStatus 0 0 .arp 0x0806 } ∧
    exec .ethertypeIpv4 s = .next { s with status := okStatus 0 0 .ipv4 0x0800 } ∧
    exec .ethertypeIpv6 s = .next { s with status := okStatus 0 0 .unknownEther 0x86DD } ∧
    exec .arpPtypeIpv4 s = .next { s with status := okStatus 0 0 .ipv4 0x0800 } ∧
    ∀ t : Half,
      exec (.ethertypeOther t) s = .next { s with status := okStatus 0 0 .unknownEther t } ∧
      exec (.arpPtypeOther t) s = .next { s with status := okStatus 0 0 .unknownEther t }

/-- The rows of the IPPROTO and PROTONAME tables with the default protocol numbers (30_encoding R106; 45_protocol_name R240,
R243; the numbers are log entry 2): each reports its class, or writes its name.
The meaning of a row as an instruction is the model's choice (log entry 8). -/
def Obligations.ProtocolRowsReportTheirClassOrName : Prop :=
  ∀ s : State,
    exec .ipprotoTcp s = .next { s with status := okStatus 0 0 .tcp 0x0006 } ∧
    exec .ipprotoUdp s = .next { s with status := okStatus 0 0 .udp 0x0011 } ∧
    (∀ p : Byte, exec (.ipprotoOther p) s = .next { s with status := okStatus 0 0 .otherProto (p.setWidth 16) }) ∧
    (∀ x ∈ ([(.protonameIcmp, 4, ⟨0x69, 0x63, 0x6d, 0x70⟩), (.protonameIgmp, 4, ⟨0x69, 0x67, 0x6d, 0x70⟩),
             (.protonameIpip, 4, ⟨0x69, 0x70, 0x69, 0x70⟩), (.protonameTcp, 3, ⟨0x74, 0x63, 0x70, 0x00⟩),
             (.protonameUdp, 3, ⟨0x75, 0x64, 0x70, 0x00⟩), (.protonameEsp, 3, ⟨0x65, 0x73, 0x70, 0x00⟩),
             (.protonameAh, 2, ⟨0x61, 0x68, 0x00, 0x00⟩), (.protonameOspf, 4, ⟨0x6f, 0x73, 0x70, 0x66⟩),
             (.protonamePim, 3, ⟨0x70, 0x69, 0x6d, 0x00⟩), (.protonameVrrp, 4, ⟨0x76, 0x72, 0x72, 0x70⟩),
             (.protonameIsis, 4, ⟨0x69, 0x73, 0x69, 0x73⟩)] : List (Instr × BitVec 3 × Bytes4)),
      exec x.1 s = .next { s with pname := { len := x.2.1, ch := x.2.2 }, status := okStatus 0 0 .noClass 0 }) ∧
    ∀ p : Byte, ∃ a b : Byte, hex2 p = [a, b] ∧
      exec (.protonameHex p) s =
        .next { s with pname := { len := 2, ch := ⟨a, b, 0, 0⟩ }, status := okStatus 0 0 .noClass 0 }

/-! ### The chained decode -/

/-- 46_frame_dispatch R254: FRAME_DEC leaves the records, the cursor and both buffers as the host program of single
operations does, stopping at the first error; only STATUS differs. -/
def Obligations.FrameDecEqualsTheWalkByHand : Prop :=
  ∀ s : State, s.ibuf.wf = true →
    ∃ t u, exec .frameDec s = .next t ∧ walkByHand s = .next u ∧ sameButStatus u t

/-- 46_frame_dispatch R252: a second tag ends the chain successfully, at its first byte. -/
def Obligations.FrameDecStopsAtASecondTag : Prop :=
  ∀ s : State, bufferOk s.ibuf → 18 ≤ s.avail → halfAt s 12 = 0x8100 → halfAt s 16 = 0x8100 →
    exec .frameDec s = .next
      { s with eth := ethAt s 0, vlan := vlanAt s 14, cur := s.cur + 18
               status := okStatus 18 0b000011 .vlan 0x8100 }

/-- 46_frame_dispatch R251, an IPv4 frame with TCP or UDP, untagged and tagged, for the default protocol numbers (log entry
2): the records, the cursor and the accumulated status. -/
def Obligations.FrameDecWalksIpv4ToTheTransportHeader : Prop :=
  ∀ (s : State) (k : Nat), bufferOk s.ibuf →
    (k = 14 ∧ halfAt s 12 = 0x0800 ∨ k = 18 ∧ halfAt s 12 = 0x8100 ∧ halfAt s 16 = 0x0800) →
    (ip4At s k).ver = 4 →
    (k + 28 ≤ s.avail → byteAt s (k + 9) = 17 → exec .frameDec s = .next
      { s with eth := ethAt s 0, vlan := if k = 18 then vlanAt s 14 else s.vlan, ip4 := ip4At s k, udp := udpAt s (k + 20)
               cur := s.cur + BitVec.ofNat 16 (k + 28)
               status := okStatus (BitVec.ofNat 16 (k + 28)) (if k = 18 then 0b101011 else 0b101001) .udp 0x0011 }) ∧
    (k + 40 ≤ s.avail → byteAt s (k + 9) = 6 → exec .frameDec s = .next
      { s with eth := ethAt s 0, vlan := if k = 18 then vlanAt s 14 else s.vlan, ip4 := ip4At s k, tcp := tcpAt s (k + 20)
               cur := s.cur + BitVec.ofNat 16 (k + 40)
               status := okStatus (BitVec.ofNat 16 (k + 40)) (if k = 18 then 0b011011 else 0b011001) .tcp 0x0006 }) ∧
    (k + 20 ≤ s.avail → byteAt s (k + 9) ≠ 17 → byteAt s (k + 9) ≠ 6 → exec .frameDec s = .next
      { s with eth := ethAt s 0, vlan := if k = 18 then vlanAt s 14 else s.vlan, ip4 := ip4At s k
               cur := s.cur + BitVec.ofNat 16 (k + 20)
               status := okStatus (BitVec.ofNat 16 (k + 20)) (if k = 18 then 0b001011 else 0b001001) .otherProto
                 ((byteAt s (k + 9)).setWidth 16) })

/-- 46_frame_dispatch R251, an ARP frame, untagged and tagged, and an ethertype no decoder handles. -/
def Obligations.FrameDecWalksArpAndStopsAtUnknown : Prop :=
  ∀ s : State, bufferOk s.ibuf → 14 ≤ s.avail →
    (halfAt s 12 = 0x0806 → 14 + arpTotalAt s 14 ≤ s.avail → exec .frameDec s = .next
      { s with eth := ethAt s 0, arp := arpAt s 14, cur := s.cur + BitVec.ofNat 16 (14 + arpTotalAt s 14)
               status := okStatus (BitVec.ofNat 16 (14 + arpTotalAt s 14)) 0b000101 .arp 0x0806 }) ∧
    (halfAt s 12 = 0x8100 → halfAt s 16 = 0x0806 → 18 + arpTotalAt s 18 ≤ s.avail → exec .frameDec s = .next
      { s with eth := ethAt s 0, vlan := vlanAt s 14, arp := arpAt s 18
               cur := s.cur + BitVec.ofNat 16 (18 + arpTotalAt s 18)
               status := okStatus (BitVec.ofNat 16 (18 + arpTotalAt s 18)) 0b000111 .arp 0x0806 }) ∧
    (halfAt s 12 ≠ 0x8100 → halfAt s 12 ≠ 0x0806 → halfAt s 12 ≠ 0x0800 → exec .frameDec s = .next
      { s with eth := ethAt s 0, cur := s.cur + 14, status := okStatus 14 0b000001 .unknownEther (halfAt s 12) }) ∧
    (halfAt s 12 = 0x8100 → 18 ≤ s.avail → halfAt s 16 ≠ 0x8100 → halfAt s 16 ≠ 0x0806 → halfAt s 16 ≠ 0x0800 →
      exec .frameDec s = .next
      { s with eth := ethAt s 0, vlan := vlanAt s 14, cur := s.cur + 18
               status := okStatus 18 0b000011 .unknownEther (halfAt s 16) })

/-- 46_frame_dispatch R251, every failure of a layer: of the Ethernet header, of the tag, and, untagged (`k = 14`) or behind a
complete tag (`k = 18`), of the ARP message at either check, of the IPv4 header at either check, and of the TCP and the UDP
header. The layers before the failing one stay decoded, the cursor is at the failing layer, and STATUS reports the error with
what was accumulated before it. That 6 selects TCP and 17 UDP is presumed (log entry 2). -/
def Obligations.FrameDecReportsTheFailingLayer : Prop :=
  ∀ s : State, bufferOk s.ibuf →
    (s.avail < 14 → exec .frameDec s = .next
      { s with status := errStatus .tooShort .eth 14 (BitVec.ofNat 16 s.avail) }) ∧
    (14 ≤ s.avail → s.avail < 18 → halfAt s 12 = 0x8100 → exec .frameDec s = .next
      { afterLink s 14 with
        status := { err := .tooShort, unit := .vlan, exp := 4, act := BitVec.ofNat 16 (s.avail - 14)
                    nbytes := 14, layers := 0b000001, cls := .vlan, raw := 0x8100 } }) ∧
    ∀ k : Nat, k ≤ s.avail →
      (linkType s k 0x0806 →
        (s.avail < k + 8 → exec .frameDec s = .next
          { afterLink s k with
            status := { err := .tooShort, unit := .arp, exp := 8, act := BitVec.ofNat 16 (s.avail - k)
                        nbytes := BitVec.ofNat 16 k, layers := linkLayers k, cls := .arp, raw := 0x0806 } }) ∧
        (k + 8 ≤ s.avail → s.avail < k + arpTotalAt s k → exec .frameDec s = .next
          { afterLink s k with
            status := { err := .tooShort, unit := .arp, exp := BitVec.ofNat 16 (arpTotalAt s k)
                        act := BitVec.ofNat 16 (s.avail - k), nbytes := BitVec.ofNat 16 k
                        layers := linkLayers k, cls := .arp, raw := 0x0806 } })) ∧
      (linkType s k 0x0800 →
        (s.avail < k + 20 → exec .frameDec s = .next
          { afterLink s k with
            status := { err := .tooShort, unit := .ip4, exp := 20, act := BitVec.ofNat 16 (s.avail - k)
                        nbytes := BitVec.ofNat 16 k, layers := linkLayers k, cls := .ipv4, raw := 0x0800 } }) ∧
        (k + 20 ≤ s.avail → (ip4At s k).ver ≠ 4 → exec .frameDec s = .next
          { afterLink s k with
            ip4 := ip4At s k
            status := { err := .unsupportedVersion, unit := .ip4, exp := 0, act := 0
                        nbytes := BitVec.ofNat 16 k, layers := linkLayers k, cls := .ipv4, raw := 0x0800 } }) ∧
        (k + 20 ≤ s.avail → s.avail < k + 40 → (ip4At s k).ver = 4 → byteAt s (k + 9) = 6 → exec .frameDec s = .next
          { afterLink s k with
            ip4 := ip4At s k, cur := s.cur + BitVec.ofNat 16 (k + 20)
            status := { err := .tooShort, unit := .tcp, exp := 20, act := BitVec.ofNat 16 (s.avail - (k + 20))
                        nbytes := BitVec.ofNat 16 (k + 20), layers := linkLayers k ||| 0b001000, cls := .tcp
                        raw := 0x0006 } }) ∧
        (k + 20 ≤ s.avail → s.avail < k + 28 → (ip4At s k).ver = 4 → byteAt s (k + 9) = 17 → exec .frameDec s = .next
          { afterLink s k with
            ip4 := ip4At s k, cur := s.cur + BitVec.ofNat 16 (k + 20)
            status := { err := .tooShort, unit := .udp, exp := 8, act := BitVec.ofNat 16 (s.avail - (k + 20))
                        nbytes := BitVec.ofNat 16 (k + 20), layers := linkLayers k ||| 0b001000, cls := .udp
                        raw := 0x0011 } }))

/-- 46_frame_dispatch R256: FRAME_DEC always ends; it decodes at most four layers and consumes at most 1046 bytes, NBYTES
being exactly how far the cursor moved. -/
def Obligations.FrameDecIsBounded : Prop :=
  ∀ s : State, bufferOk s.ibuf → ∃ t, exec .frameDec s = .next t ∧
    t.status.nbytes.toNat ≤ 1046 ∧ t.cur.toNat = s.cur.toNat + t.status.nbytes.toNat ∧
    t.status.nbytes.toNat ≤ s.avail ∧
    t.status.layers ∈ ([0b000000, 0b000001, 0b000011, 0b000101, 0b000111, 0b001001, 0b001011, 0b011001, 0b011011,
      0b101001, 0b101011] : List (BitVec 6))

/-! ### Frames -/

/-- 10_state R29, R31, R32, R36 and 20_memory R76, as frames: a decode changes only its own record, CUR and STATUS; FRAME_DEC
only the six records, CUR and STATUS; in both, every byte of IBUF and of OBUF reads as before. -/
def Obligations.DecodesChangeOnlyTheirRecordCursorAndStatus : Prop :=
  ∀ s t : State,
    (exec .ethDec s = .next t → { t with eth := s.eth, cur := s.cur, status := s.status } = s) ∧
    (exec .vlanDec s = .next t → { t with vlan := s.vlan, cur := s.cur, status := s.status } = s) ∧
    (exec .arpDec s = .next t → { t with arp := s.arp, cur := s.cur, status := s.status } = s) ∧
    (exec .ip4Dec s = .next t → { t with ip4 := s.ip4, cur := s.cur, status := s.status } = s) ∧
    (exec .tcpDec s = .next t → { t with tcp := s.tcp, cur := s.cur, status := s.status } = s) ∧
    (exec .udpDec s = .next t → { t with udp := s.udp, cur := s.cur, status := s.status } = s) ∧
    (exec .frameDec s = .next t →
      { t with eth := s.eth, vlan := s.vlan, arp := s.arp, ip4 := s.ip4, tcp := s.tcp, udp := s.udp, cur := s.cur
               status := s.status } = s) ∧
    (∀ i ∈ Instr.frameDec :: decodeOps, exec i s = .next t →
      ∀ a, t.ibuf.readByte a = s.ibuf.readByte a ∧ t.obuf.readByte a = s.obuf.readByte a)

/-- 20_memory R75, R76 as a frame: an encode changes only OBUF and STATUS, and a failing one only STATUS; every byte of IBUF
reads as before. -/
def Obligations.EncodesChangeOnlyObufAndStatus : Prop :=
  ∀ i ∈ encodeOps, ∀ s t : State, exec i s = .next t →
    { t with obuf := s.obuf, status := s.status } = s ∧
    (t.status.err ≠ .none → sameButStatus s t) ∧
    ∀ a, t.ibuf.readByte a = s.ibuf.readByte a

/-- 10_state R36, R38 as a frame: the classify operations, their rows and an illegal command change only STATUS; PROTO_NAME
and its rows change only PNAME and STATUS; every byte of both buffers reads as before.
The rows as instructions are log entry 8. -/
def Obligations.OtherInstructionsChangeOnlyStatusOrPname : Prop :=
  ∀ (i : Instr) (s t : State), i ∉ Instr.frameDec :: decodeOps → i ∉ encodeOps → exec i s = .next t →
    { t with pname := s.pname, status := s.status } = s ∧
    (i ≠ .protoName → i.format ≠ .protoname → sameButStatus s t) ∧
    ∀ a, t.ibuf.readByte a = s.ibuf.readByte a ∧ t.obuf.readByte a = s.obuf.readByte a

/-! ### Whole-machine rules -/

/-- 10_state R41: every operation overwrites STATUS whole and none reads it, so the status before an instruction is nowhere
in what follows it. -/
def Obligations.NoInstructionReadsStatus : Prop :=
  ∀ (i : Instr) (s : State) (st : Status), exec i { s with status := st } = exec i s

/-- 10_state R21 for the decodes: what a decode reports, and how far it moves the cursor, depends on the view alone: two
states that agree on nothing but the bytes of the view get the same status, and the same record when it succeeds. -/
def Obligations.DecodesDependOnTheViewAlone : Prop :=
  ∀ i ∈ Instr.frameDec :: decodeOps, ∀ s s' : State, bufferOk s.ibuf → bufferOk s'.ibuf → s.view = s'.view →
    ∃ t t', exec i s = .next t ∧ exec i s' = .next t' ∧ t.status = t'.status ∧
      t.cur - s.cur = t'.cur - s'.cur ∧
      (t.status.layers.getLsbD 0 = true → t.eth = t'.eth) ∧ (t.status.layers.getLsbD 1 = true → t.vlan = t'.vlan) ∧
      (t.status.layers.getLsbD 2 = true → t.arp = t'.arp) ∧ (t.status.layers.getLsbD 3 = true → t.ip4 = t'.ip4) ∧
      (t.status.layers.getLsbD 4 = true → t.tcp = t'.tcp) ∧ (t.status.layers.getLsbD 5 = true → t.udp = t'.udp)

/-- 10_state R21 for the others: an encode depends on its record alone, a classify operation and PROTO_NAME on one register
alone, in any two states that agree on it. -/
def Obligations.EncodesAndClassifiesDependOnTheirOperandAlone : Prop :=
  ∀ s s' t t' : State,
    (s.eth = s'.eth → exec .ethEnc s = .next t → exec .ethEnc s' = .next t' → t.obuf = t'.obuf ∧ t.status = t'.status) ∧
    (s.vlan = s'.vlan → exec .vlanEnc s = .next t → exec .vlanEnc s' = .next t' →
      t.obuf = t'.obuf ∧ t.status = t'.status) ∧
    (s.arp = s'.arp → exec .arpEnc s = .next t → exec .arpEnc s' = .next t' →
      t.status = t'.status ∧ (t.status.err = .none → t.obuf = t'.obuf)) ∧
    (s.ip4 = s'.ip4 → exec .ip4Enc s = .next t → exec .ip4Enc s' = .next t' → t.obuf = t'.obuf ∧ t.status = t'.status) ∧
    (s.tcp = s'.tcp → exec .tcpEnc s = .next t → exec .tcpEnc s' = .next t' → t.obuf = t'.obuf ∧ t.status = t'.status) ∧
    (s.udp = s'.udp → exec .udpEnc s = .next t → exec .udpEnc s' = .next t' → t.obuf = t'.obuf ∧ t.status = t'.status) ∧
    (s.eth.type = s'.eth.type → exec .ethClass s = .next t → exec .ethClass s' = .next t' → t.status = t'.status) ∧
    (s.vlan.type = s'.vlan.type → exec .vlanClass s = .next t → exec .vlanClass s' = .next t' →
      t.status = t'.status) ∧
    (s.arp.ptype = s'.arp.ptype → exec .arpClass s = .next t → exec .arpClass s' = .next t' → t.status = t'.status) ∧
    (s.ip4.proto = s'.ip4.proto → exec .ip4Class s = .next t → exec .ip4Class s' = .next t' → t.status = t'.status) ∧
    (s.ip4.proto = s'.ip4.proto → exec .protoName s = .next t → exec .protoName s' = .next t' →
      t.status = t'.status ∧ t.pname = t'.pname)

/-- 60_exceptions R280, its "never" cells, with R273: an instruction reports no error kind but those the table gives it, and
none reports `MalformedLength`. -/
def Obligations.InstructionsRaiseOnlyTheirErrors : Prop :=
  ∀ (i : Instr) (s t : State), exec i s = .next t →
    (t.status.err = .none ∨ t.status.err ∈ canRaise i) ∧ t.status.err ≠ .malformedLength

/-- 60_exceptions R276 for a single-layer operation: a failing one changes nothing but STATUS, and the IP4 record in the one
case of `UnsupportedVersion`; its NBYTES, LAYERS, CLASS and RAW are 0. -/
def Obligations.FailingOperationsChangeNothingElse : Prop :=
  ∀ (i : Instr) (s t : State), i ≠ .frameDec → exec i s = .next t → t.status.err ≠ .none →
    { t with ip4 := s.ip4, status := s.status } = s ∧
    (t.status.err ≠ .unsupportedVersion → sameButStatus s t) ∧
    t.status.nbytes = 0 ∧ t.status.layers = 0 ∧ t.status.cls = .noClass ∧ t.status.raw = 0

/-- 20_memory R67: the same decode issued again with the same IBUF and the same CUR gives the same record and the same
STATUS; in fact the same state. -/
def Obligations.DecodeIssuedTwiceGivesTheSame : Prop :=
  ∀ i ∈ decodeOps, ∀ s t : State, s.ibuf.wf = true → exec i s = .next t →
    exec i { t with cur := s.cur } = .next t

/-! ### What the host reads -/

/-- What a GET of a read-only register shows, in every state: the codes of STATUS.ERR, UNIT and CLASS (10_state R34), the other
fields of STATUS as numbers, PNAME, the buffers and their lengths (10_state R31, R32, R33, R36), and the address constants
(10_state R37, 70_reset_and_hazards R302). That an enumeration holds each coded field is log entry 15, the bytes of K.BCAST_MAC
are presumed (log entry 19), and K.DEFAULT_MAC is the parameter (log entry 3). -/
def Obligations.ReadOnlyRegistersReadAsTheTablesSay : Prop :=
  ∀ (cfg : Config) (s : State),
    (∀ x ∈ ([(.none, 0), (.tooShort, 1), (.unsupportedVersion, 2), (.malformedLength, 3), (.addrLenMismatch, 4),
             (.illegalOp, 5)] : List (ErrKind × Nat)),
      readReg cfg .statusErr { s with status.err := x.1 } = .int x.2) ∧
    (∀ x ∈ ([(.frame, 0), (.eth, 1), (.vlan, 2), (.arp, 3), (.ip4, 4), (.tcp, 5), (.udp, 6), (.pname, 7)] :
             List (CodecUnit × Nat)),
      readReg cfg .statusUnit { s with status.unit := x.1 } = .int x.2) ∧
    (∀ x ∈ ([(.noClass, 0), (.vlan, 1), (.arp, 2), (.ipv4, 3), (.unknownEther, 4), (.tcp, 5), (.udp, 6),
             (.otherProto, 7)] : List (FrameClass × Nat)),
      readReg cfg .statusClass { s with status.cls := x.1 } = .int x.2) ∧
    (∀ x ∈ ([(.eth, 1), (.vlan, 2), (.arp, 4), (.ip4, 8), (.tcp, 16), (.udp, 32)] : List (CodecUnit × Nat)),
      readReg cfg .statusLayers { s with status.layers := layerBit x.1 } = .int x.2) ∧
    readReg cfg .statusExp s = .int s.status.exp.toNat ∧ readReg cfg .statusAct s = .int s.status.act.toNat ∧
    readReg cfg .statusNbytes s = .int s.status.nbytes.toNat ∧
    readReg cfg .statusLayers s = .int s.status.layers.toNat ∧ readReg cfg .statusRaw s = .int s.status.raw.toNat ∧
    readReg cfg .pnameLen s = .int s.pname.len.toNat ∧ readReg cfg .pnameCh s = .bytes s.pname.ch.toList ∧
    readReg cfg .ibuf s = .bytes s.ibuf.bytes ∧ readReg cfg .ibufLen s = .int s.ibuf.bytes.length ∧
    readReg cfg .obuf s = .bytes s.obuf.bytes ∧ readReg cfg .obufLen s = .int s.obuf.bytes.length ∧
    readReg cfg .kZeroMac s = .bytes [0x00, 0x00, 0x00, 0x00, 0x00, 0x00] ∧
    readReg cfg .kBcastMac s = .bytes [0xff, 0xff, 0xff, 0xff, 0xff, 0xff] ∧
    readReg cfg .kDefaultMac s = .bytes cfg.defaultMac.toList
end

