-- ==== Sys2Proof/Laws/Bytes.lean ====
section
/-! SUPPORT. Byte order: assembly and disassembly undo each other. -/

namespace Sys2Proof.Machine

@[simp] theorem bytesOf_length (n v : Nat) : (bytesOf n v).length = n := by
  induction n with
  | zero => rfl
  | succ n ih => simp [bytesOf, ih]

theorem be_lt (l : List Byte) : be l < 256 ^ l.length := by
  induction l with
  | nil => simp [be]
  | cons b l ih =>
    have hb := b.isLt
    simp only [be, List.length_cons, pow_succ]
    have : b.toNat * 256 ^ l.length ≤ 255 * 256 ^ l.length := Nat.mul_le_mul_right _ (by omega)
    omega

/-- Only the value below `256 ^ n` is laid out in `n` bytes. -/
theorem be_bytesOf_mod (n v : Nat) : be (bytesOf n v) = v % 256 ^ n := by
  induction n with
  | zero => simp [bytesOf, be, Nat.mod_one]
  | succ n ih =>
    simp only [bytesOf, be, bytesOf_length, ih, BitVec.toNat_ofNat]
    rw [show 256 ^ (n + 1) = 256 ^ n * 256 from pow_succ _ _, Nat.mod_mul, Nat.add_comm, Nat.mul_comm (256 ^ n)]

theorem be_of_bytesOf {n v : Nat} (h : v < 256 ^ n) : be (bytesOf n v) = v := by
  rw [be_bytesOf_mod, Nat.mod_eq_of_lt h]

theorem bytesOf_add (n a v : Nat) (h : v < 256 ^ n) (b : Nat) :
    n ≤ b → bytesOf n (a * 256 ^ b + v) = bytesOf n v := by
  intro hb
  induction n generalizing v with
  | zero => rfl
  | succ n ih =>
    have hpow : 256 ^ b = 256 ^ (b - (n + 1)) * 256 * 256 ^ n := by
      rw [mul_assoc, ← pow_succ', ← pow_add]; congr 1; omega
    have hdiv : (a * 256 ^ b + v) / 256 ^ n = a * 256 ^ (b - (n + 1)) * 256 + v / 256 ^ n := by
      rw [hpow, ← mul_assoc, ← mul_assoc, Nat.mul_comm _ (256 ^ n),
        Nat.mul_add_div (Nat.pos_of_ne_zero (by positivity))]
    have hmod : a * 256 ^ b + v = (a * 256 ^ (b - n)) * 256 ^ n + v := by
      rw [mul_assoc, ← pow_add]; congr 3; omega
    have hstep : ∀ c x, bytesOf n (c * 256 ^ n + x) = bytesOf n x := by
      intro c x
      clear ih h hdiv hmod hpow hb
      induction n generalizing c x with
      | zero => rfl
      | succ n ih =>
        simp only [bytesOf]
        have h1 : (c * 256 ^ (n + 1) + x) / 256 ^ n = c * 256 + x / 256 ^ n := by
          rw [pow_succ', ← mul_assoc, Nat.mul_comm _ (256 ^ n),
            Nat.mul_add_div (Nat.pos_of_ne_zero (by positivity))]
        rw [h1]
        congr 1
        · apply BitVec.eq_of_toNat_eq; simp [BitVec.toNat_ofNat, Nat.add_mod]
        · rw [pow_succ', ← mul_assoc]; exact ih _ _
    simp only [bytesOf]
    congr 1
    · rw [hdiv]; apply BitVec.eq_of_toNat_eq; simp [BitVec.toNat_ofNat, Nat.add_mod]
    · rw [hmod]; exact hstep _ _

theorem bytesOf_of_be (l : List Byte) : bytesOf l.length (be l) = l := by
  induction l with
  | nil => rfl
  | cons b l ih =>
    simp only [List.length_cons, bytesOf, be]
    congr 1
    · rw [Nat.mul_comm, Nat.mul_add_div (Nat.pos_of_ne_zero (by positivity)), Nat.div_eq_of_lt (be_lt l)]
      simp
    · rw [bytesOf_add _ _ _ (be_lt l) _ (Nat.le_refl _), ih]

theorem beW_bytesOf {w n : Nat} (h : w = 8 * n) (v : BitVec w) : beW w (bytesOf n v.toNat) = v := by
  subst h
  have hv : v.toNat < 256 ^ n := by
    have := v.isLt
    rwa [show (256 : Nat) = 2 ^ 8 from rfl, ← pow_mul]
  rw [beW, be_of_bytesOf hv]
  simp

@[simp] theorem beW_bytes1 (v : Byte) : beW 8 (bytes1 v) = v := beW_bytesOf (n := 1) rfl v
@[simp] theorem beW_bytes2 (v : Half) : beW 16 (bytes2 v) = v := beW_bytesOf (n := 2) rfl v
@[simp] theorem beW_bytes4 (v : Word) : beW 32 (bytes4 v) = v := beW_bytesOf (n := 4) rfl v

theorem bytesOf_beW {w n : Nat} (h : w = 8 * n) (l : List Byte) (hl : l.length = n) :
    bytesOf n (beW w l).toNat = l := by
  subst h hl
  have hb : be l < 2 ^ (8 * l.length) := by
    have := be_lt l
    rwa [show (256 : Nat) = 2 ^ 8 from rfl, ← pow_mul] at this
  rw [beW, BitVec.toNat_ofNat, Nat.mod_eq_of_lt hb, bytesOf_of_be]

@[simp] theorem bytes1_beW (a : Byte) : bytes1 (beW 8 [a]) = [a] := bytesOf_beW rfl _ rfl
@[simp] theorem bytes2_beW (a b : Byte) : bytes2 (beW 16 [a, b]) = [a, b] := bytesOf_beW rfl _ rfl
@[simp] theorem bytes4_beW (a b c d : Byte) : bytes4 (beW 32 [a, b, c, d]) = [a, b, c, d] := bytesOf_beW rfl _ rfl

@[simp] theorem beW_single (b : Byte) : beW 8 [b] = b := by
  apply BitVec.eq_of_toNat_eq; simp [beW, be]

theorem bytes1_eq (v : Byte) : bytes1 v = [v] := by
  simp [bytes1, bytesOf]

theorem ofNat_div_eq_extract {w : Nat} (v : BitVec w) (k : Nat) :
    BitVec.ofNat 8 (v.toNat / 2 ^ k) = v.extractLsb' k 8 := by
  apply BitVec.eq_of_toNat_eq
  rw [BitVec.extractLsb'_toNat, Nat.shiftRight_eq_div_pow, BitVec.toNat_ofNat]

/-- Two bytes: the high half and the low half. -/
theorem bytes2_eq (v : Half) : bytes2 v = [v.extractLsb' 8 8, v.extractLsb' 0 8] := by
  rw [← ofNat_div_eq_extract, ← ofNat_div_eq_extract]
  rfl

theorem bytes4_eq (v : Word) :
    bytes4 v = [v.extractLsb' 24 8, v.extractLsb' 16 8, v.extractLsb' 8 8, v.extractLsb' 0 8] := by
  simp only [← ofNat_div_eq_extract]
  rfl

@[simp] theorem beW16_split (v : Half) : beW 16 [v.extractLsb' 8 8, v.extractLsb' 0 8] = v := by
  rw [← bytes2_eq, beW_bytes2]

@[simp] theorem beW32_split (v : Word) :
    beW 32 [v.extractLsb' 24 8, v.extractLsb' 16 8, v.extractLsb' 8 8, v.extractLsb' 0 8] = v := by
  rw [← bytes4_eq, beW_bytes4]

/-- The big-endian value of two bytes is their concatenation, the first on top (00_scope R8, R10). -/
theorem beW16_eq (a b : Byte) : beW 16 [a, b] = a ++ b := by
  have ha := a.isLt
  have hb := b.isLt
  apply BitVec.eq_of_toNat_eq
  rw [BitVec.toNat_append]
  simp only [beW, be, List.length_cons, List.length_nil, BitVec.toNat_ofNat]
  rw [← Nat.shiftLeft_add_eq_or_of_lt hb, Nat.shiftLeft_eq]
  omega

theorem beW32_eq (a b c d : Byte) : beW 32 [a, b, c, d] = a ++ b ++ c ++ d := by
  have ha := a.isLt
  have hb := b.isLt
  have hc := c.isLt
  have hd := d.isLt
  apply BitVec.eq_of_toNat_eq
  simp only [BitVec.toNat_append]
  simp only [beW, be, List.length_cons, List.length_nil, BitVec.toNat_ofNat]
  rw [← Nat.shiftLeft_add_eq_or_of_lt hb, ← Nat.shiftLeft_add_eq_or_of_lt hc, ← Nat.shiftLeft_add_eq_or_of_lt hd]
  simp only [Nat.shiftLeft_eq]
  omega

@[simp] theorem bytes1_length (v : Byte) : (bytes1 v).length = 1 := bytesOf_length _ _
@[simp] theorem bytes2_length (v : Half) : (bytes2 v).length = 2 := bytesOf_length _ _
@[simp] theorem bytes4_length (v : Word) : (bytes4 v).length = 4 := bytesOf_length _ _
@[simp] theorem bytes6_toList_length (m : Bytes6) : m.toList.length = 6 := rfl
@[simp] theorem bytes4_toList_length (m : Bytes4) : m.toList.length = 4 := rfl
@[simp] theorem bytes6?_toList (m : Bytes6) : bytes6? m.toList = some m := rfl
@[simp] theorem bytes4?_toList (m : Bytes4) : bytes4? m.toList = some m := rfl

end Sys2Proof.Machine
end

