-- ==== Sys2Proof/Laws/Memory.lean ====
section
/-! SUPPORT. Buffers: the canonical form is kept by the operation that writes one, and what a buffer in that form reads
at each address. -/

namespace Sys2Proof.Machine

theorem cellsFrom_snd (a : Nat) (l : List Byte) : (cellsFrom a l).map Prod.snd = l := by
  induction l generalizing a with
  | nil => rfl
  | cons b l ih => simp [cellsFrom, ih]

theorem cellsFrom_rising (a : Nat) (l : List Byte) : risingFrom a (cellsFrom a l) = true := by
  induction l generalizing a with
  | nil => rfl
  | cons b l ih => simp [cellsFrom, risingFrom, ih]

/-- A buffer in canonical form is the one its bytes make. -/
theorem cells_of_rising (a : Nat) (c : List Host.Cell) (h : risingFrom a c = true) :
    c = cellsFrom a (c.map Prod.snd) := by
  induction c generalizing a with
  | nil => rfl
  | cons x c ih =>
    simp only [risingFrom, Bool.and_eq_true, beq_iff_eq] at h
    obtain ⟨rfl, h⟩ := h
    simp only [List.map_cons, cellsFrom]
    rw [← ih _ h]

@[simp] theorem ofBytes_bytes (l : List Byte) : (Memory.ofBytes l).bytes = l := cellsFrom_snd 0 l

/-- Every write of a buffer leaves it in canonical form. -/
@[simp] theorem ofBytes_wf (l : List Byte) : (Memory.ofBytes l).wf = true := cellsFrom_rising 0 l

theorem len_eq_bytes_length (m : Memory) : m.len = m.bytes.length := by simp [Memory.len, Memory.bytes]

@[simp] theorem ofBytes_len (l : List Byte) : (Memory.ofBytes l).len = l.length := by
  rw [len_eq_bytes_length, ofBytes_bytes]

theorem eq_ofBytes_of_wf {m : Memory} (h : m.wf = true) : m = Memory.ofBytes m.bytes := by
  cases m with
  | mk c => exact congrArg Memory.mk (cells_of_rising 0 c h)

theorem find_cellsFrom (a k : Nat) (l : List Byte) :
    ((cellsFrom a l).find? fun c => c.1 == a + k).map Prod.snd = l[k]? := by
  induction l generalizing a k with
  | nil => rfl
  | cons b l ih =>
    cases k with
    | zero => simp [cellsFrom]
    | succ k =>
      have hk := ih (a + 1) k
      rw [show a + 1 + k = a + (k + 1) from by omega] at hk
      simp [cellsFrom, hk]

/-- What a buffer reads at each address after it is written whole. -/
@[simp] theorem readByte_ofBytes (l : List Byte) (a : Nat) : (Memory.ofBytes l).readByte a = l[a]? := by
  have h := find_cellsFrom 0 a l
  rw [Nat.zero_add] at h
  exact h

theorem readByte_of_wf {m : Memory} (h : m.wf = true) (a : Nat) : m.readByte a = m.bytes[a]? := by
  conv_lhs => rw [eq_ofBytes_of_wf h]
  exact readByte_ofBytes _ _

/-- A read of present bytes gives them; this is all a checked read of a canonical buffer can do inside its bounds. -/
theorem readBytes_of_wf {m : Memory} (h : m.wf = true) (a n : Nat) (hn : a + n ≤ m.len) :
    m.readBytes a n = some ((m.bytes.drop a).take n) := by
  induction n generalizing a with
  | zero => simp [Memory.readBytes]
  | succ n ih =>
    rw [len_eq_bytes_length] at hn
    have hlt : a < m.bytes.length := by omega
    rw [Memory.readBytes, ih (a + 1) (by rw [len_eq_bytes_length]; omega), readByte_of_wf h,
      List.getElem?_eq_getElem hlt, List.drop_eq_getElem_cons hlt, List.take_succ_cons]

end Sys2Proof.Machine
end

