-- ==== Sys2Proof/Laws/State.lean ====
section
/-! SUPPORT. One lemma per field per update of the state, and what does not depend on the status register. -/

namespace Sys2Proof.Machine

@[simp] theorem writeStatus_eth (s : State) (st : Status) : (s.writeStatus st).eth = s.eth := rfl
@[simp] theorem writeStatus_vlan (s : State) (st : Status) : (s.writeStatus st).vlan = s.vlan := rfl
@[simp] theorem writeStatus_arp (s : State) (st : Status) : (s.writeStatus st).arp = s.arp := rfl
@[simp] theorem writeStatus_ip4 (s : State) (st : Status) : (s.writeStatus st).ip4 = s.ip4 := rfl
@[simp] theorem writeStatus_tcp (s : State) (st : Status) : (s.writeStatus st).tcp = s.tcp := rfl
@[simp] theorem writeStatus_udp (s : State) (st : Status) : (s.writeStatus st).udp = s.udp := rfl
@[simp] theorem writeStatus_cur (s : State) (st : Status) : (s.writeStatus st).cur = s.cur := rfl
@[simp] theorem writeStatus_ibuf (s : State) (st : Status) : (s.writeStatus st).ibuf = s.ibuf := rfl
@[simp] theorem writeStatus_obuf (s : State) (st : Status) : (s.writeStatus st).obuf = s.obuf := rfl
@[simp] theorem writeStatus_status (s : State) (st : Status) : (s.writeStatus st).status = st := rfl
@[simp] theorem writeStatus_pname (s : State) (st : Status) : (s.writeStatus st).pname = s.pname := rfl
@[simp] theorem writeStatus_inbox (s : State) (st : Status) : (s.writeStatus st).inbox = s.inbox := rfl

@[simp] theorem writeObuf_eth (s : State) (out : List Byte) : (s.writeObuf out).eth = s.eth := rfl
@[simp] theorem writeObuf_vlan (s : State) (out : List Byte) : (s.writeObuf out).vlan = s.vlan := rfl
@[simp] theorem writeObuf_arp (s : State) (out : List Byte) : (s.writeObuf out).arp = s.arp := rfl
@[simp] theorem writeObuf_ip4 (s : State) (out : List Byte) : (s.writeObuf out).ip4 = s.ip4 := rfl
@[simp] theorem writeObuf_tcp (s : State) (out : List Byte) : (s.writeObuf out).tcp = s.tcp := rfl
@[simp] theorem writeObuf_udp (s : State) (out : List Byte) : (s.writeObuf out).udp = s.udp := rfl
@[simp] theorem writeObuf_cur (s : State) (out : List Byte) : (s.writeObuf out).cur = s.cur := rfl
@[simp] theorem writeObuf_ibuf (s : State) (out : List Byte) : (s.writeObuf out).ibuf = s.ibuf := rfl
@[simp] theorem writeObuf_obuf (s : State) (out : List Byte) : (s.writeObuf out).obuf = Memory.ofBytes out := rfl
@[simp] theorem writeObuf_status (s : State) (out : List Byte) : (s.writeObuf out).status = s.status := rfl
@[simp] theorem writeObuf_pname (s : State) (out : List Byte) : (s.writeObuf out).pname = s.pname := rfl
@[simp] theorem writeObuf_inbox (s : State) (out : List Byte) : (s.writeObuf out).inbox = s.inbox := rfl

@[simp] theorem takeInput_eth (s : State) : (s.takeInput).eth = s.eth := rfl
@[simp] theorem takeInput_vlan (s : State) : (s.takeInput).vlan = s.vlan := rfl
@[simp] theorem takeInput_arp (s : State) : (s.takeInput).arp = s.arp := rfl
@[simp] theorem takeInput_ip4 (s : State) : (s.takeInput).ip4 = s.ip4 := rfl
@[simp] theorem takeInput_tcp (s : State) : (s.takeInput).tcp = s.tcp := rfl
@[simp] theorem takeInput_udp (s : State) : (s.takeInput).udp = s.udp := rfl
@[simp] theorem takeInput_cur (s : State) : (s.takeInput).cur = s.cur := rfl
@[simp] theorem takeInput_ibuf (s : State) : (s.takeInput).ibuf = s.ibuf := rfl
@[simp] theorem takeInput_obuf (s : State) : (s.takeInput).obuf = s.obuf := rfl
@[simp] theorem takeInput_status (s : State) : (s.takeInput).status = s.status := rfl
@[simp] theorem takeInput_pname (s : State) : (s.takeInput).pname = s.pname := rfl
@[simp] theorem takeInput_inbox (s : State) : (s.takeInput).inbox = s.inbox.tail := rfl

@[simp] theorem withCommand_eth (s : State) (c : Byte) : (s.withCommand c).eth = s.eth := rfl
@[simp] theorem withCommand_vlan (s : State) (c : Byte) : (s.withCommand c).vlan = s.vlan := rfl
@[simp] theorem withCommand_arp (s : State) (c : Byte) : (s.withCommand c).arp = s.arp := rfl
@[simp] theorem withCommand_ip4 (s : State) (c : Byte) : (s.withCommand c).ip4 = s.ip4 := rfl
@[simp] theorem withCommand_tcp (s : State) (c : Byte) : (s.withCommand c).tcp = s.tcp := rfl
@[simp] theorem withCommand_udp (s : State) (c : Byte) : (s.withCommand c).udp = s.udp := rfl
@[simp] theorem withCommand_cur (s : State) (c : Byte) : (s.withCommand c).cur = s.cur := rfl
@[simp] theorem withCommand_ibuf (s : State) (c : Byte) : (s.withCommand c).ibuf = s.ibuf := rfl
@[simp] theorem withCommand_obuf (s : State) (c : Byte) : (s.withCommand c).obuf = s.obuf := rfl
@[simp] theorem withCommand_status (s : State) (c : Byte) : (s.withCommand c).status = s.status := rfl
@[simp] theorem withCommand_pname (s : State) (c : Byte) : (s.withCommand c).pname = s.pname := rfl
@[simp] theorem withCommand_inbox (s : State) (c : Byte) : (s.withCommand c).inbox = .cmd c :: s.inbox := rfl

@[simp] theorem statusOk_eth (s : State) (n : Half) (l : BitVec 6) (c : FrameClass) (r : Half) : (s.statusOk n l c r).eth = s.eth := rfl
@[simp] theorem statusOk_vlan (s : State) (n : Half) (l : BitVec 6) (c : FrameClass) (r : Half) : (s.statusOk n l c r).vlan = s.vlan := rfl
@[simp] theorem statusOk_arp (s : State) (n : Half) (l : BitVec 6) (c : FrameClass) (r : Half) : (s.statusOk n l c r).arp = s.arp := rfl
@[simp] theorem statusOk_ip4 (s : State) (n : Half) (l : BitVec 6) (c : FrameClass) (r : Half) : (s.statusOk n l c r).ip4 = s.ip4 := rfl
@[simp] theorem statusOk_tcp (s : State) (n : Half) (l : BitVec 6) (c : FrameClass) (r : Half) : (s.statusOk n l c r).tcp = s.tcp := rfl
@[simp] theorem statusOk_udp (s : State) (n : Half) (l : BitVec 6) (c : FrameClass) (r : Half) : (s.statusOk n l c r).udp = s.udp := rfl
@[simp] theorem statusOk_cur (s : State) (n : Half) (l : BitVec 6) (c : FrameClass) (r : Half) : (s.statusOk n l c r).cur = s.cur := rfl
@[simp] theorem statusOk_ibuf (s : State) (n : Half) (l : BitVec 6) (c : FrameClass) (r : Half) : (s.statusOk n l c r).ibuf = s.ibuf := rfl
@[simp] theorem statusOk_obuf (s : State) (n : Half) (l : BitVec 6) (c : FrameClass) (r : Half) : (s.statusOk n l c r).obuf = s.obuf := rfl
@[simp] theorem statusOk_status (s : State) (n : Half) (l : BitVec 6) (c : FrameClass) (r : Half) : (s.statusOk n l c r).status = okStatus n l c r := rfl
@[simp] theorem statusOk_pname (s : State) (n : Half) (l : BitVec 6) (c : FrameClass) (r : Half) : (s.statusOk n l c r).pname = s.pname := rfl
@[simp] theorem statusOk_inbox (s : State) (n : Half) (l : BitVec 6) (c : FrameClass) (r : Half) : (s.statusOk n l c r).inbox = s.inbox := rfl

@[simp] theorem writeStatus_avail (s : State) (st : Status) : (s.writeStatus st).avail = s.avail := rfl
@[simp] theorem writeObuf_avail (s : State) (out : List Byte) : (s.writeObuf out).avail = s.avail := rfl
@[simp] theorem takeInput_avail (s : State) : (s.takeInput).avail = s.avail := rfl
@[simp] theorem writeStatus_view (s : State) (st : Status) : (s.writeStatus st).view = s.view := rfl
@[simp] theorem writeObuf_view (s : State) (out : List Byte) : (s.writeObuf out).view = s.view := rfl
@[simp] theorem takeInput_view (s : State) : (s.takeInput).view = s.view := rfl

@[simp] theorem writeStatus_writeStatus (s : State) (a b : Status) :
    (s.writeStatus a).writeStatus b = s.writeStatus b := rfl

@[simp] theorem writeStatus_self (s : State) : s.writeStatus s.status = s := rfl

end Sys2Proof.Machine
end

