-- ==== Sys2Proof/Laws/View.lean ====
section
/-! SUPPORT. The view of a decode, and what every checked read of it gives when the bytes are present. -/

namespace Sys2Proof.Machine

@[simp] theorem view_length (s : State) : s.view.length = s.avail := by
  rw [State.view, List.length_drop, State.avail, len_eq_bytes_length]

theorem byteAt_view {s : State} (h : s.ibuf.wf = true) (k : Nat) : byteAt s k = s.view.getD k 0 := by
  rw [byteAt, readByte_of_wf h, State.view, List.getD_eq_getElem?_getD, List.getElem?_drop]

theorem bytesAt_view {s : State} (h : s.ibuf.wf = true) {k n : Nat} (hn : k + n ≤ s.avail) :
    bytesAt s k n = (s.view.drop k).take n := by
  have hl : k + n ≤ s.view.length := by rw [view_length]; exact hn
  apply List.ext_getElem
  · simp [bytesAt]; rw [view_length] at hl; omega
  · intro i h1 h2
    have hi : i < n := by simpa [bytesAt] using h1
    simp only [bytesAt, List.getElem_map, List.getElem_range, List.getElem_take, List.getElem_drop]
    rw [byteAt_view h, List.getD_eq_getElem?_getD, List.getElem?_eq_getElem (by omega)]
    rfl

/-- The view is its first bytes and the rest. -/
theorem view_split {s : State} (h : s.ibuf.wf = true) {n : Nat} (hn : n ≤ s.avail) :
    s.view = bytesAt s 0 n ++ s.view.drop n := by
  rw [bytesAt_view h (by omega), List.drop_zero, List.take_append_drop]

/-- A checked read inside the view gives the bytes that stand there. -/
theorem memReadBytes_eq {s : State} (h : s.ibuf.wf = true) {k n : Nat} (hn : k + n ≤ s.avail) (hp : 0 < k + n) :
    s.memReadBytes (s.pcAt k) n = some (bytesAt s k n) := by
  have hlen : s.cur.toNat + k + n ≤ s.ibuf.len := by rw [State.avail] at hn; omega
  rw [bytesAt_view h hn, State.memReadBytes, State.pcAt, readBytes_of_wf h _ _ hlen, State.view, List.drop_drop]

theorem memRead1_eq {s : State} (h : s.ibuf.wf = true) {k : Nat} (hn : k + 1 ≤ s.avail) :
    s.memRead1 (s.pcAt k) = some (byteAt s k) := by
  rw [State.memRead1, memReadBytes_eq h hn (by omega)]
  simp [bytesAt]

theorem memRead2_eq {s : State} (h : s.ibuf.wf = true) {k : Nat} (hn : k + 2 ≤ s.avail) :
    s.memRead2 (s.pcAt k) = some (halfAt s k) := by
  rw [State.memRead2, memReadBytes_eq h hn (by omega)]
  simp [bytesAt, List.range_succ, beW16_eq, halfAt]

theorem memRead4_eq {s : State} (h : s.ibuf.wf = true) {k : Nat} (hn : k + 4 ≤ s.avail) :
    s.memRead4 (s.pcAt k) = some (wordAt s k) := by
  rw [State.memRead4, memReadBytes_eq h hn (by omega)]
  simp [bytesAt, List.range_succ, beW32_eq, wordAt]

theorem memReadMac_eq {s : State} (h : s.ibuf.wf = true) {k : Nat} (hn : k + 6 ≤ s.avail) :
    s.memReadMac (s.pcAt k) = some (macAt s k) := by
  rw [State.memReadMac, memReadBytes_eq h hn (by omega)]
  simp [bytesAt, List.range_succ, bytes6?, macAt]

theorem memReadIp_eq {s : State} (h : s.ibuf.wf = true) {k : Nat} (hn : k + 4 ≤ s.avail) :
    s.memReadIp (s.pcAt k) = some (ipAt s k) := by
  rw [State.memReadIp, memReadBytes_eq h hn (by omega)]
  simp [bytesAt, List.range_succ, bytes4?, ipAt]

/-- The total an ARP message declares never wraps in 16 bits (30_encoding R111). -/
theorem arpTotal_toNat (h p : Byte) : (arpTotal h p).toNat = 8 + 2 * (h.toNat + p.toNat) := by
  have hh := h.isLt
  have hp := p.isLt
  simp only [arpTotal, BitVec.toNat_add, BitVec.toNat_mul, BitVec.toNat_setWidth, BitVec.ofNat_eq_ofNat,
    BitVec.toNat_ofNat]
  omega

theorem arpTotal_le (h p : Byte) : (arpTotal h p).toNat ≤ 1028 := by
  have hh := h.isLt
  have hp := p.isLt
  rw [arpTotal_toNat]
  omega

end Sys2Proof.Machine
end

