-- ==== Sys2Proof/Laws/Layers.lean ====
section
/-! SUPPORT. What the body of each decode does, said once, for a buffer in canonical form: it raises `TooShort` below its
length, and otherwise writes the record that stands at the cursor. -/

namespace Sys2Proof.Machine

theorem readEth_eq {s : State} (h : s.ibuf.wf = true) (hn : 14 ≤ s.avail) : readEth s = some (ethAt s 0) := by
  simp [readEth, memReadMac_eq h (k := 0) (by omega), memReadMac_eq h (k := 6) (by omega),
    memRead2_eq h (k := 12) (by omega), ethAt]

theorem readVlan_eq {s : State} (h : s.ibuf.wf = true) (hn : 4 ≤ s.avail) : readVlan s = some (vlanAt s 0) := by
  simp [readVlan, memRead2_eq h (k := 0) (by omega), memRead2_eq h (k := 2) (by omega), vlanAt, vlanTcOf, vlanVidOf]

theorem readIp4_eq {s : State} (h : s.ibuf.wf = true) (hn : 20 ≤ s.avail) : readIp4 s = some (ip4At s 0) := by
  simp [readIp4, memRead1_eq h (k := 0) (by omega), memRead1_eq h (k := 1) (by omega),
    memRead2_eq h (k := 2) (by omega), memRead2_eq h (k := 4) (by omega), memRead2_eq h (k := 6) (by omega),
    memRead1_eq h (k := 8) (by omega), memRead1_eq h (k := 9) (by omega), memRead2_eq h (k := 10) (by omega),
    memReadIp_eq h (k := 12) (by omega), memReadIp_eq h (k := 16) (by omega), ip4At, ip4VerOf, ip4IhlOf, ip4FlagsOf,
    ip4FoffOf]

theorem readTcp_eq {s : State} (h : s.ibuf.wf = true) (hn : 20 ≤ s.avail) : readTcp s = some (tcpAt s 0) := by
  simp [readTcp, memRead2_eq h (k := 0) (by omega), memRead2_eq h (k := 2) (by omega),
    memRead4_eq h (k := 4) (by omega), memRead4_eq h (k := 8) (by omega), memRead1_eq h (k := 12) (by omega),
    memRead1_eq h (k := 13) (by omega), memRead2_eq h (k := 14) (by omega), memRead2_eq h (k := 16) (by omega),
    memRead2_eq h (k := 18) (by omega), tcpAt]

theorem readUdp_eq {s : State} (h : s.ibuf.wf = true) (hn : 8 ≤ s.avail) : readUdp s = some (udpAt s 0) := by
  simp [readUdp, memRead2_eq h (k := 0) (by omega), memRead2_eq h (k := 2) (by omega),
    memRead2_eq h (k := 4) (by omega), memRead2_eq h (k := 6) (by omega), udpAt]

theorem readArpLens_eq {s : State} (h : s.ibuf.wf = true) (hn : 8 ≤ s.avail) :
    readArpLens s = some (byteAt s 4, byteAt s 5) := by
  simp [readArpLens, memRead1_eq h (k := 4) (by omega), memRead1_eq h (k := 5) (by omega)]

theorem readArp_eq {s : State} (h : s.ibuf.wf = true) (hn : arpTotalAt s 0 ≤ s.avail) :
    readArp s (byteAt s 4).toNat (byteAt s 5).toNat = some (arpAt s 0) := by
  simp only [arpTotalAt, arpHlenAt, arpPlenAt, Nat.zero_add] at hn
  simp [readArp, memRead2_eq h (k := 0) (by omega), memRead2_eq h (k := 2) (by omega),
    memRead1_eq h (k := 4) (by omega), memRead1_eq h (k := 5) (by omega), memRead2_eq h (k := 6) (by omega),
    memReadBytes_eq h (k := 8) (n := (byteAt s 4).toNat) (by omega) (by omega),
    memReadBytes_eq h (k := 8 + (byteAt s 4).toNat) (n := (byteAt s 5).toNat) (by omega) (by omega),
    memReadBytes_eq h (k := 8 + (byteAt s 4).toNat + (byteAt s 5).toNat) (n := (byteAt s 4).toNat) (by omega) (by omega),
    memReadBytes_eq h (k := 8 + 2 * (byteAt s 4).toNat + (byteAt s 5).toNat) (n := (byteAt s 5).toNat) (by omega)
      (by omega), arpAt, arpHlenAt, arpPlenAt]

/-- The state after a layer's record is written and the cursor advanced. -/
theorem layerEth_eq {s : State} (h : s.ibuf.wf = true) :
    layerEth s = if s.avail < 14 then .raised s .tooShort 14 (BitVec.ofNat 16 s.avail)
      else .decoded { s with eth := ethAt s 0, cur := s.cur + 14 } 14 := by
  by_cases hn : s.avail < 14
  · simp [layerEth, needBytes, hn]
  · simp [layerEth, needBytes, hn, readEth_eq h (by omega), withRead]

theorem layerVlan_eq {s : State} (h : s.ibuf.wf = true) :
    layerVlan s = if s.avail < 4 then .raised s .tooShort 4 (BitVec.ofNat 16 s.avail)
      else .decoded { s with vlan := vlanAt s 0, cur := s.cur + 4 } 4 := by
  by_cases hn : s.avail < 4
  · simp [layerVlan, needBytes, hn]
  · simp [layerVlan, needBytes, hn, readVlan_eq h (by omega), withRead]

theorem layerTcp_eq {s : State} (h : s.ibuf.wf = true) :
    layerTcp s = if s.avail < 20 then .raised s .tooShort 20 (BitVec.ofNat 16 s.avail)
      else .decoded { s with tcp := tcpAt s 0, cur := s.cur + 20 } 20 := by
  by_cases hn : s.avail < 20
  · simp [layerTcp, needBytes, hn]
  · simp [layerTcp, needBytes, hn, readTcp_eq h (by omega), withRead]

theorem layerUdp_eq {s : State} (h : s.ibuf.wf = true) :
    layerUdp s = if s.avail < 8 then .raised s .tooShort 8 (BitVec.ofNat 16 s.avail)
      else .decoded { s with udp := udpAt s 0, cur := s.cur + 8 } 8 := by
  by_cases hn : s.avail < 8
  · simp [layerUdp, needBytes, hn]
  · simp [layerUdp, needBytes, hn, readUdp_eq h (by omega), withRead]

theorem layerIp4_eq {s : State} (h : s.ibuf.wf = true) :
    layerIp4 s = if s.avail < 20 then .raised s .tooShort 20 (BitVec.ofNat 16 s.avail)
      else if (ip4At s 0).ver ≠ 4 then .raised { s with ip4 := ip4At s 0 } .unsupportedVersion 0 0
      else .decoded { s with ip4 := ip4At s 0, cur := s.cur + 20 } 20 := by
  by_cases hn : s.avail < 20
  · simp [layerIp4, needBytes, hn]
  · simp [layerIp4, needBytes, hn, readIp4_eq h (by omega), withRead]

theorem layerArp_eq {s : State} (h : s.ibuf.wf = true) :
    layerArp s = if s.avail < 8 then .raised s .tooShort 8 (BitVec.ofNat 16 s.avail)
      else if s.avail < arpTotalAt s 0 then
        .raised s .tooShort (BitVec.ofNat 16 (arpTotalAt s 0)) (BitVec.ofNat 16 s.avail)
      else
        .decoded { s with arp := arpAt s 0, cur := s.cur + BitVec.ofNat 16 (arpTotalAt s 0) }
          (BitVec.ofNat 16 (arpTotalAt s 0)) := by
  have ht : (arpTotal (byteAt s 4) (byteAt s 5)).toNat = arpTotalAt s 0 := by
    simp [arpTotal_toNat, arpTotalAt, arpHlenAt, arpPlenAt]
  have hb : BitVec.ofNat 16 (arpTotalAt s 0) = arpTotal (byteAt s 4) (byteAt s 5) := by simp [← ht]
  by_cases hn : s.avail < 8
  · simp [layerArp, needBytes, hn]
  · by_cases hm : s.avail < arpTotalAt s 0
    · simp [layerArp, needBytes, hn, hm, readArpLens_eq h (by omega), withRead, ht, hb]
    · simp [layerArp, needBytes, hn, hm, readArpLens_eq h (by omega), withRead, ht, hb, readArp_eq h (by omega)]

end Sys2Proof.Machine
end

