-- ==== Sys2Proof/Laws/Cursor.lean ====
section
/-! SUPPORT. The view after the cursor has moved: what stands at an offset from the new cursor stands further on from the
old one. -/

namespace Sys2Proof.Machine

/-- `t` sees the same buffer as `s`, with the cursor `n` bytes further on. -/
structure Moved (s t : State) (n : Nat) : Prop where
  ibuf : t.ibuf = s.ibuf
  cur : t.cur.toNat = s.cur.toNat + n

/-- The 16-bit addition of a consumed length does not wrap while the length is within the view (30_encoding R112). -/
theorem cur_add {s : State} (h : bufferOk s.ibuf) {n : Nat} (hn : n ≤ s.avail) (hp : 0 < n) :
    (s.cur + BitVec.ofNat 16 n).toNat = s.cur.toNat + n := by
  have h2 := h.2
  have hc : Config.current.bufCap = 2048 := rfl
  rw [State.avail] at hn
  rw [BitVec.toNat_add, BitVec.toNat_ofNat]
  omega

section

variable {s t : State} {n : Nat} (h : Moved s t n)

include h

theorem Moved.avail : t.avail = s.avail - n := by
  rw [State.avail, State.avail, h.ibuf, h.cur]
  omega

theorem Moved.byteAt (k : Nat) : byteAt t k = Machine.byteAt s (n + k) := by
  rw [Machine.byteAt, Machine.byteAt, h.ibuf, h.cur, Nat.add_assoc]

theorem Moved.halfAt (k : Nat) : halfAt t k = Machine.halfAt s (n + k) := by
  rw [Machine.halfAt, Machine.halfAt, h.byteAt, h.byteAt, Nat.add_assoc]

theorem Moved.wordAt (k : Nat) : wordAt t k = Machine.wordAt s (n + k) := by
  simp only [Machine.wordAt, h.byteAt, Nat.add_assoc]

theorem Moved.macAt (k : Nat) : macAt t k = Machine.macAt s (n + k) := by
  simp only [Machine.macAt, h.byteAt, Nat.add_assoc]

theorem Moved.ipAt (k : Nat) : ipAt t k = Machine.ipAt s (n + k) := by
  simp only [Machine.ipAt, h.byteAt, Nat.add_assoc]

theorem Moved.bytesAt (k m : Nat) : bytesAt t k m = Machine.bytesAt s (n + k) m := by
  simp only [Machine.bytesAt, h.byteAt, Nat.add_assoc]

theorem Moved.ethAt (k : Nat) : ethAt t k = Machine.ethAt s (n + k) := by
  simp only [Machine.ethAt, h.macAt, h.halfAt, Nat.add_assoc]

theorem Moved.vlanAt (k : Nat) : vlanAt t k = Machine.vlanAt s (n + k) := by
  simp only [Machine.vlanAt, h.halfAt, Nat.add_assoc]

theorem Moved.arpHlenAt (k : Nat) : arpHlenAt t k = Machine.arpHlenAt s (n + k) := by
  simp only [Machine.arpHlenAt, h.byteAt, Nat.add_assoc]

theorem Moved.arpPlenAt (k : Nat) : arpPlenAt t k = Machine.arpPlenAt s (n + k) := by
  simp only [Machine.arpPlenAt, h.byteAt, Nat.add_assoc]

theorem Moved.arpTotalAt (k : Nat) : arpTotalAt t k = Machine.arpTotalAt s (n + k) := by
  simp only [Machine.arpTotalAt, h.arpHlenAt, h.arpPlenAt]

theorem Moved.arpAt (k : Nat) : arpAt t k = Machine.arpAt s (n + k) := by
  simp only [Machine.arpAt, h.halfAt, h.byteAt, h.bytesAt, h.arpHlenAt, h.arpPlenAt, Nat.add_assoc]

theorem Moved.ip4At (k : Nat) : ip4At t k = Machine.ip4At s (n + k) := by
  simp only [Machine.ip4At, h.byteAt, h.halfAt, h.ipAt, Nat.add_assoc]

theorem Moved.tcpAt (k : Nat) : tcpAt t k = Machine.tcpAt s (n + k) := by
  simp only [Machine.tcpAt, h.byteAt, h.halfAt, h.wordAt, Nat.add_assoc]

theorem Moved.udpAt (k : Nat) : udpAt t k = Machine.udpAt s (n + k) := by
  simp only [Machine.udpAt, h.halfAt, Nat.add_assoc]

end

end Sys2Proof.Machine
end

