-- ==== Sys2Proof/Laws/Encode.lean ====
section
/-! SUPPORT. What the output of each encode is: the writes of an operation, one after the other, give the sequence that the
pure function builds. -/

namespace Sys2Proof.Machine

/-- A write at the end of what is filled so far fills the next bytes. -/
theorem memWriteBytes_fill (pre bs : List Byte) (a n : Nat) (ha : a = pre.length) :
    memWriteBytes a bs (pre ++ List.replicate n 0) = (pre ++ bs) ++ List.replicate (n - bs.length) 0 := by
  subst ha
  simp [memWriteBytes, List.drop_append]

theorem newOut_fill (n : Nat) : newOut n = [] ++ List.replicate n 0 := rfl

theorem ethOut_eq (r : EthRec) : ethOut r = ethBuild r := by
  simp only [ethOut, memWrite2, newOut_fill]
  rw [memWriteBytes_fill _ _ _ _ (by simp), memWriteBytes_fill _ _ _ _ (by simp), memWriteBytes_fill _ _ _ _ (by simp)]
  simp [ethBuild]

theorem vlanOut_eq (r : VlanRec) : vlanOut r = vlanBuild r := by
  simp only [vlanOut, memWrite2, newOut_fill]
  rw [memWriteBytes_fill _ _ _ _ (by simp), memWriteBytes_fill _ _ _ _ (by simp)]
  simp [vlanBuild]

theorem ip4Out_eq (r : Ip4Rec) : ip4Out r = ip4Build r := by
  simp only [ip4Out, memWrite1, memWrite2, newOut_fill]
  iterate 10 rw [memWriteBytes_fill _ _ _ _ (by simp)]
  simp [ip4Build]

theorem tcpOut_eq (r : TcpRec) : tcpOut r = tcpBuild r := by
  simp only [tcpOut, memWrite1, memWrite2, memWrite4, newOut_fill]
  iterate 9 rw [memWriteBytes_fill _ _ _ _ (by simp)]
  simp [tcpBuild]

theorem udpOut_eq (r : UdpRec) : udpOut r = udpBuild r := by
  simp only [udpOut, memWrite2, newOut_fill]
  iterate 4 rw [memWriteBytes_fill _ _ _ _ (by simp)]
  simp [udpBuild]

/-- When every address has its declared length, the writes of ARP_ENC fill the output exactly. -/
theorem arpOut_eq (r : ArpRec) (h1 : r.sha.length = r.hlen.toNat) (h2 : r.spa.length = r.plen.toNat)
    (h3 : r.tha.length = r.hlen.toNat) (h4 : r.tpa.length = r.plen.toNat) :
    arpOut r = bytes2 r.htype ++ bytes2 r.ptype ++ bytes1 r.hlen ++ bytes1 r.plen ++ bytes2 r.op ++ r.sha ++ r.spa
      ++ r.tha ++ r.tpa := by
  simp only [arpOut, memWrite1, memWrite2, newOut_fill]
  iterate 9 rw [memWriteBytes_fill _ _ _ _ (by simp [h1, h2, h3]; try omega)]
  simp only [arpTotal_toNat, bytes1_length, bytes2_length, h1, h2, h3, h4, List.nil_append, List.append_assoc]
  rw [show 8 + 2 * (r.hlen.toNat + r.plen.toNat) - 2 - 2 - 1 - 1 - 2 - r.hlen.toNat - r.plen.toNat - r.hlen.toNat
    - r.plen.toNat = 0 by omega]
  simp

@[simp] theorem ethBuild_length (r : EthRec) : (ethBuild r).length = 14 := by simp [ethBuild]
@[simp] theorem vlanBuild_length (r : VlanRec) : (vlanBuild r).length = 4 := by simp [vlanBuild]
@[simp] theorem ip4Build_length (r : Ip4Rec) : (ip4Build r).length = 20 := by simp [ip4Build]
@[simp] theorem tcpBuild_length (r : TcpRec) : (tcpBuild r).length = 20 := by simp [tcpBuild]
@[simp] theorem udpBuild_length (r : UdpRec) : (udpBuild r).length = 8 := by simp [udpBuild]

end Sys2Proof.Machine
end

