-- ==== Sys2Proof/Laws/Fields.lean ====
section
/-! SUPPORT. The packed fields (30_encoding R101 to R103): packing and splitting undo each other, and what bytes a packed
field has. -/

namespace Sys2Proof.Machine

theorem vlanField_hi (tc : BitVec 4) (vid : BitVec 12) :
    (vlanField tc vid).extractLsb' 8 8 = tc ++ vid.extractLsb' 8 4 := by
  apply BitVec.eq_of_getLsbD_eq
  intro i hi
  rw [BitVec.getLsbD_append]
  interval_cases i <;> simp [vlanField]

theorem vlanField_lo (tc : BitVec 4) (vid : BitVec 12) :
    (vlanField tc vid).extractLsb' 0 8 = vid.extractLsb' 0 8 := by
  apply BitVec.eq_of_getLsbD_eq
  intro i hi
  interval_cases i <;> simp [vlanField]

@[simp] theorem vlanTcOf_field (tc : BitVec 4) (vid : BitVec 12) : vlanTcOf (vlanField tc vid) = tc := by
  apply BitVec.eq_of_getLsbD_eq
  intro i hi
  interval_cases i <;> simp [vlanField, vlanTcOf]

@[simp] theorem vlanVidOf_field (tc : BitVec 4) (vid : BitVec 12) : vlanVidOf (vlanField tc vid) = vid := by
  apply BitVec.eq_of_getLsbD_eq
  intro i hi
  interval_cases i <;> simp [vlanField, vlanVidOf]

@[simp] theorem vlanField_of (f : Half) : vlanField (vlanTcOf f) (vlanVidOf f) = f := by
  apply BitVec.eq_of_getLsbD_eq
  intro i hi
  interval_cases i <;> simp [vlanField, vlanVidOf, vlanTcOf]

theorem ip4Byte0_eq (ver ihl : BitVec 4) : ip4Byte0 ver ihl = ver ++ ihl := by
  apply BitVec.eq_of_getLsbD_eq
  intro i hi
  rw [BitVec.getLsbD_append]
  interval_cases i <;> simp [ip4Byte0]

@[simp] theorem ip4VerOf_byte0 (ver ihl : BitVec 4) : ip4VerOf (ip4Byte0 ver ihl) = ver := by
  apply BitVec.eq_of_getLsbD_eq
  intro i hi
  interval_cases i <;> simp [ip4Byte0, ip4VerOf]

@[simp] theorem ip4IhlOf_byte0 (ver ihl : BitVec 4) : ip4IhlOf (ip4Byte0 ver ihl) = ihl := by
  apply BitVec.eq_of_getLsbD_eq
  intro i hi
  interval_cases i <;> simp [ip4Byte0, ip4IhlOf]

@[simp] theorem ip4Byte0_of (b : Byte) : ip4Byte0 (ip4VerOf b) (ip4IhlOf b) = b := by
  apply BitVec.eq_of_getLsbD_eq
  intro i hi
  interval_cases i <;> simp [ip4Byte0, ip4VerOf, ip4IhlOf]

theorem ip4FragField_hi (fl : BitVec 3) (fo : BitVec 13) :
    (ip4FragField fl fo).extractLsb' 8 8 = fl ++ fo.extractLsb' 8 5 := by
  apply BitVec.eq_of_getLsbD_eq
  intro i hi
  rw [BitVec.getLsbD_append]
  interval_cases i <;> simp [ip4FragField]

theorem ip4FragField_lo (fl : BitVec 3) (fo : BitVec 13) :
    (ip4FragField fl fo).extractLsb' 0 8 = fo.extractLsb' 0 8 := by
  apply BitVec.eq_of_getLsbD_eq
  intro i hi
  interval_cases i <;> simp [ip4FragField]

@[simp] theorem ip4FlagsOf_field (fl : BitVec 3) (fo : BitVec 13) : ip4FlagsOf (ip4FragField fl fo) = fl := by
  apply BitVec.eq_of_getLsbD_eq
  intro i hi
  interval_cases i <;> simp [ip4FragField, ip4FlagsOf]

@[simp] theorem ip4FoffOf_field (fl : BitVec 3) (fo : BitVec 13) : ip4FoffOf (ip4FragField fl fo) = fo := by
  apply BitVec.eq_of_getLsbD_eq
  intro i hi
  interval_cases i <;> simp [ip4FragField, ip4FoffOf]

@[simp] theorem ip4FragField_of (f : Half) : ip4FragField (ip4FlagsOf f) (ip4FoffOf f) = f := by
  apply BitVec.eq_of_getLsbD_eq
  intro i hi
  interval_cases i <;> simp [ip4FragField, ip4FlagsOf, ip4FoffOf]
end Sys2Proof.Machine
end

