-- ==== Sys2Proof/Laws/Outcome.lean ====
section
/-! SUPPORT. How an operation ends, said once: what a layer can do in any state, what the end of an operation can answer,
and that a layer neither reads the status register nor changes it. -/

namespace Sys2Proof.Machine

/-! ### What a layer can do, in any state -/

theorem layerEth_cases (s : State) :
    (s.avail < 14 ∧ layerEth s = .raised s .tooShort 14 (BitVec.ofNat 16 s.avail)) ∨
    (14 ≤ s.avail ∧ ∃ r, layerEth s = .decoded { s with eth := r, cur := s.cur + 14 } 14) ∨
    layerEth s = .stopped .noSuchByte := by
  by_cases hn : s.avail < 14
  · exact .inl ⟨hn, by simp [layerEth, needBytes, hn]⟩
  · cases h : readEth s with
    | none => exact .inr (.inr (by simp [layerEth, needBytes, hn, h, withRead]))
    | some r => exact .inr (.inl ⟨by omega, r, by simp [layerEth, needBytes, hn, h, withRead]⟩)

theorem layerVlan_cases (s : State) :
    (s.avail < 4 ∧ layerVlan s = .raised s .tooShort 4 (BitVec.ofNat 16 s.avail)) ∨
    (4 ≤ s.avail ∧ ∃ r, layerVlan s = .decoded { s with vlan := r, cur := s.cur + 4 } 4) ∨
    layerVlan s = .stopped .noSuchByte := by
  by_cases hn : s.avail < 4
  · exact .inl ⟨hn, by simp [layerVlan, needBytes, hn]⟩
  · cases h : readVlan s with
    | none => exact .inr (.inr (by simp [layerVlan, needBytes, hn, h, withRead]))
    | some r => exact .inr (.inl ⟨by omega, r, by simp [layerVlan, needBytes, hn, h, withRead]⟩)

theorem layerTcp_cases (s : State) :
    (s.avail < 20 ∧ layerTcp s = .raised s .tooShort 20 (BitVec.ofNat 16 s.avail)) ∨
    (20 ≤ s.avail ∧ ∃ r, layerTcp s = .decoded { s with tcp := r, cur := s.cur + 20 } 20) ∨
    layerTcp s = .stopped .noSuchByte := by
  by_cases hn : s.avail < 20
  · exact .inl ⟨hn, by simp [layerTcp, needBytes, hn]⟩
  · cases h : readTcp s with
    | none => exact .inr (.inr (by simp [layerTcp, needBytes, hn, h, withRead]))
    | some r => exact .inr (.inl ⟨by omega, r, by simp [layerTcp, needBytes, hn, h, withRead]⟩)

theorem layerUdp_cases (s : State) :
    (s.avail < 8 ∧ layerUdp s = .raised s .tooShort 8 (BitVec.ofNat 16 s.avail)) ∨
    (8 ≤ s.avail ∧ ∃ r, layerUdp s = .decoded { s with udp := r, cur := s.cur + 8 } 8) ∨
    layerUdp s = .stopped .noSuchByte := by
  by_cases hn : s.avail < 8
  · exact .inl ⟨hn, by simp [layerUdp, needBytes, hn]⟩
  · cases h : readUdp s with
    | none => exact .inr (.inr (by simp [layerUdp, needBytes, hn, h, withRead]))
    | some r => exact .inr (.inl ⟨by omega, r, by simp [layerUdp, needBytes, hn, h, withRead]⟩)

theorem layerIp4_cases (s : State) :
    (s.avail < 20 ∧ layerIp4 s = .raised s .tooShort 20 (BitVec.ofNat 16 s.avail)) ∨
    (20 ≤ s.avail ∧ ∃ r : Ip4Rec, r.ver = 4 ∧ layerIp4 s = .decoded { s with ip4 := r, cur := s.cur + 20 } 20) ∨
    (20 ≤ s.avail ∧ ∃ r : Ip4Rec, r.ver ≠ 4 ∧ layerIp4 s = .raised { s with ip4 := r } .unsupportedVersion 0 0) ∨
    layerIp4 s = .stopped .noSuchByte := by
  by_cases hn : s.avail < 20
  · exact .inl ⟨hn, by simp [layerIp4, needBytes, hn]⟩
  · cases h : readIp4 s with
    | none => exact .inr (.inr (.inr (by simp [layerIp4, needBytes, hn, h, withRead])))
    | some r =>
      by_cases hv : r.ver = 4
      · exact .inr (.inl ⟨by omega, r, hv, by simp [layerIp4, needBytes, hn, h, withRead, hv]⟩)
      · exact .inr (.inr (.inl ⟨by omega, r, hv, by simp [layerIp4, needBytes, hn, h, withRead]; exact hv⟩))

theorem readArp_lengths {s : State} {h p : Nat} {r : ArpRec} (hr : readArp s h p = some r) :
    r.sha.length = h ∧ r.spa.length = p ∧ r.tha.length = h ∧ r.tpa.length = p := by
  have len : ∀ (m : Memory) (a n : Nat) (l : List Byte), m.readBytes a n = some l → l.length = n := by
    intro m a n
    induction n generalizing a with
    | zero => intro l hl; simp [Memory.readBytes] at hl; simp [← hl]
    | succ n ih =>
      intro l hl
      simp only [Memory.readBytes] at hl
      split at hl
      · rename_i b l' _ h2
        cases hl
        simp [ih _ _ h2]
      · cases hl
  simp only [readArp, Option.bind_eq_bind, Option.bind_eq_some_iff, Option.pure_def, Option.some.injEq] at hr
  obtain ⟨_, _, _, _, _, _, _, _, _, _, sha, h1, spa, h2, tha, h3, tpa, h4, rfl⟩ := hr
  exact ⟨len _ _ _ _ h1, len _ _ _ _ h2, len _ _ _ _ h3, len _ _ _ _ h4⟩

theorem layerArp_cases (s : State) :
    (s.avail < 8 ∧ layerArp s = .raised s .tooShort 8 (BitVec.ofNat 16 s.avail)) ∨
    (∃ n : Half, 8 ≤ n.toNat ∧ n.toNat ≤ 1028 ∧ s.avail < n.toNat ∧
      layerArp s = .raised s .tooShort n (BitVec.ofNat 16 s.avail)) ∨
    (∃ (n : Half) (r : ArpRec), 8 ≤ n.toNat ∧ n.toNat ≤ 1028 ∧ n.toNat ≤ s.avail ∧
      r.sha.length ≤ 255 ∧ r.spa.length ≤ 255 ∧ r.tha.length ≤ 255 ∧ r.tpa.length ≤ 255 ∧
      layerArp s = .decoded { s with arp := r, cur := s.cur + n } n) ∨
    layerArp s = .stopped .noSuchByte := by
  by_cases hn : s.avail < 8
  · exact .inl ⟨hn, by simp [layerArp, needBytes, hn]⟩
  · cases hl : readArpLens s with
    | none => exact .inr (.inr (.inr (by simp [layerArp, needBytes, hn, hl, withRead])))
    | some lens =>
      obtain ⟨h, p⟩ := lens
      have h8 : 8 ≤ (arpTotal h p).toNat := by rw [arpTotal_toNat]; omega
      have hle := arpTotal_le h p
      by_cases ht : s.avail < (arpTotal h p).toNat
      · exact .inr (.inl ⟨arpTotal h p, h8, hle, ht, by simp [layerArp, needBytes, hn, hl, withRead, ht]⟩)
      · cases hr : readArp s h.toNat p.toNat with
        | none => exact .inr (.inr (.inr (by simp [layerArp, needBytes, hn, hl, withRead, ht, hr])))
        | some r =>
          obtain ⟨h1, h2, h3, h4⟩ := readArp_lengths hr
          have hh := h.isLt
          have hp := p.isLt
          exact .inr (.inr (.inl ⟨arpTotal h p, r, h8, hle, by omega, by omega, by omega, by omega, by omega,
            by simp [layerArp, needBytes, hn, hl, withRead, ht, hr]⟩))

theorem needBytes_of_lt {need : Half} {s : State} {body : LayerOut} (h : s.avail < need.toNat) :
    needBytes need s body = .raised s .tooShort need (BitVec.ofNat 16 s.avail) := if_pos h

theorem needBytes_of_not_lt {need : Half} {s : State} {body : LayerOut} (h : ¬ s.avail < need.toNat) :
    needBytes need s body = body := if_neg h

/-! ### A layer does not read the status register -/

/-- The outcome of a layer with the status of its state replaced. -/
def LayerOut.withStatus (st : Status) : LayerOut → LayerOut
  | .decoded s n => .decoded (s.writeStatus st) n
  | .raised s k exp act => .raised (s.writeStatus st) k exp act
  | .stopped f => .stopped f

theorem layerEth_writeStatus (s : State) (st : Status) :
    layerEth (s.writeStatus st) = (layerEth s).withStatus st := by
  by_cases hn : s.avail < BitVec.toNat ethHlen
  · rw [layerEth, layerEth, needBytes_of_lt (s := s) hn, needBytes_of_lt (s := s.writeStatus st) hn]; rfl
  · rw [layerEth, layerEth, needBytes_of_not_lt (s := s) hn, needBytes_of_not_lt (s := s.writeStatus st) hn]
    change withRead (readEth s) _ = _
    cases readEth s <;> rfl

theorem layerVlan_writeStatus (s : State) (st : Status) :
    layerVlan (s.writeStatus st) = (layerVlan s).withStatus st := by
  by_cases hn : s.avail < BitVec.toNat vlanHlen
  · rw [layerVlan, layerVlan, needBytes_of_lt (s := s) hn, needBytes_of_lt (s := s.writeStatus st) hn]; rfl
  · rw [layerVlan, layerVlan, needBytes_of_not_lt (s := s) hn, needBytes_of_not_lt (s := s.writeStatus st) hn]
    change withRead (readVlan s) _ = _
    cases readVlan s <;> rfl

theorem layerTcp_writeStatus (s : State) (st : Status) :
    layerTcp (s.writeStatus st) = (layerTcp s).withStatus st := by
  by_cases hn : s.avail < BitVec.toNat tcpHlen
  · rw [layerTcp, layerTcp, needBytes_of_lt (s := s) hn, needBytes_of_lt (s := s.writeStatus st) hn]; rfl
  · rw [layerTcp, layerTcp, needBytes_of_not_lt (s := s) hn, needBytes_of_not_lt (s := s.writeStatus st) hn]
    change withRead (readTcp s) _ = _
    cases readTcp s <;> rfl

theorem layerUdp_writeStatus (s : State) (st : Status) :
    layerUdp (s.writeStatus st) = (layerUdp s).withStatus st := by
  by_cases hn : s.avail < BitVec.toNat udpHlen
  · rw [layerUdp, layerUdp, needBytes_of_lt (s := s) hn, needBytes_of_lt (s := s.writeStatus st) hn]; rfl
  · rw [layerUdp, layerUdp, needBytes_of_not_lt (s := s) hn, needBytes_of_not_lt (s := s.writeStatus st) hn]
    change withRead (readUdp s) _ = _
    cases readUdp s <;> rfl

theorem layerIp4_writeStatus (s : State) (st : Status) :
    layerIp4 (s.writeStatus st) = (layerIp4 s).withStatus st := by
  by_cases hn : s.avail < BitVec.toNat ip4Hlen
  · rw [layerIp4, layerIp4, needBytes_of_lt (s := s) hn, needBytes_of_lt (s := s.writeStatus st) hn]; rfl
  · rw [layerIp4, layerIp4, needBytes_of_not_lt (s := s) hn, needBytes_of_not_lt (s := s.writeStatus st) hn]
    change withRead (readIp4 s) _ = _
    cases readIp4 s with
    | none => rfl
    | some r =>
      by_cases hv : r.ver ≠ 4
      · simp only [withRead, if_pos hv]; rfl
      · simp only [withRead, if_neg hv]; rfl

theorem layerArp_writeStatus (s : State) (st : Status) :
    layerArp (s.writeStatus st) = (layerArp s).withStatus st := by
  by_cases hn : s.avail < BitVec.toNat arpFixed
  · rw [layerArp, layerArp, needBytes_of_lt (s := s) hn, needBytes_of_lt (s := s.writeStatus st) hn]; rfl
  · rw [layerArp, layerArp, needBytes_of_not_lt (s := s) hn, needBytes_of_not_lt (s := s.writeStatus st) hn]
    change withRead (readArpLens s) _ = _
    cases readArpLens s with
    | none => rfl
    | some lens =>
      by_cases ht : s.avail < (arpTotal lens.1 lens.2).toNat
      · simp only [withRead, needBytes_of_lt (s := s) ht]
        exact needBytes_of_lt (s := s.writeStatus st) ht
      · simp only [withRead, needBytes_of_not_lt (s := s) ht]
        rw [needBytes_of_not_lt (s := s.writeStatus st) ht]
        change withRead (readArp s lens.1.toNat lens.2.toNat) _ = _
        cases readArp s lens.1.toNat lens.2.toNat <;> rfl

/-! ### The end of an operation -/

@[simp] theorem finish_eq (w : Walk) (s : State) :
    finish w s = .next { s with status := okStatus w.nbytes w.layers w.cls w.raw } := rfl

@[simp] theorem raiseError_eq (u : CodecUnit) (k : ErrKind) (exp act : Half) (w : Walk) (s : State) :
    raiseError u k exp act w s = .next { s with
      status := { err := k, unit := u, exp := exp, act := act, nbytes := w.nbytes, layers := w.layers, cls := w.cls
                  raw := w.raw } } := rfl

@[simp] theorem encoded_eq (out : List Byte) (n : Half) (s : State) :
    encoded out n s = .next { s with obuf := Memory.ofBytes out, status := okStatus n 0 .noClass 0 } := rfl

theorem finish_next {w : Walk} {s t : State} (h : finish w s = .next t) :
    t = { s with status := okStatus w.nbytes w.layers w.cls w.raw } := by
  rw [finish_eq] at h
  exact (Host.Outcome.next.inj h).symm

theorem raiseError_next {u : CodecUnit} {k : ErrKind} {x a : Half} {w : Walk} {s t : State}
    (h : raiseError u k x a w s = .next t) :
    t = { s with status := { err := k, unit := u, exp := x, act := a, nbytes := w.nbytes, layers := w.layers
                             cls := w.cls, raw := w.raw } } := by
  rw [raiseError_eq] at h
  exact (Host.Outcome.next.inj h).symm

theorem encoded_next {out : List Byte} {n : Half} {s t : State} (h : encoded out n s = .next t) :
    t = { s with obuf := Memory.ofBytes out, status := okStatus n 0 .noClass 0 } := by
  rw [encoded_eq] at h
  exact (Host.Outcome.next.inj h).symm

theorem named_next {name : List Byte} {s t : State} (h : named name s = .next t) :
    t = { s with pname := pnameOf name, status := okStatus 0 0 .noClass 0 } := by
  simp only [named, finish_eq] at h
  exact (Host.Outcome.next.inj h).symm

/-- Everything the sequencing of two layers can answer when it answers a next state. -/
theorem andThen_next {u : CodecUnit} {w : Walk} {o : LayerOut} {k : Walk → State → Result} {t : State}
    (h : andThen u w o k = .next t) :
    (∃ s n, o = .decoded s n ∧ k (w.decoded u n) s = .next t) ∨
    (∃ s e x a, o = .raised s e x a ∧ t = { s with
      status := { err := e, unit := u, exp := x, act := a, nbytes := w.nbytes, layers := w.layers, cls := w.cls
                  raw := w.raw } }) := by
  cases o with
  | decoded s n => exact .inl ⟨s, n, rfl, h⟩
  | raised s e x a => exact .inr ⟨s, e, x, a, rfl, by simpa [andThen] using h.symm⟩
  | stopped f => cases h

/-- A single-layer decode answers the layer's state with a status of its own. -/
theorem singleDecode_eq (u : CodecUnit) (o : LayerOut) :
    singleDecode u o = match o with
      | .decoded s n => .next { s with status := okStatus n (layerBit u) .noClass 0 }
      | .raised s k exp act => .next { s with status := errStatus k u exp act }
      | .stopped f => .fault f := by
  cases o with
  | decoded s n =>
    simp only [singleDecode, andThen, finish_eq, Walk.decoded, Walk.start]
    congr 3 <;> simp
  | raised s k exp act => rfl
  | stopped f => rfl

end Sys2Proof.Machine
end

