-- ==== Sys2Proof/Laws/Frame.lean ====
section
/-! SUPPORT. The chained decode: one rule that carries a property through its layers, so that a proof about FRAME_DEC is a
proof about each layer. -/

namespace Sys2Proof.Machine

/-- The layer of a unit; the units without a record have none. -/
def layerOf (u : CodecUnit) (s : State) : LayerOut :=
  match u with
  | .eth => layerEth s
  | .vlan => layerVlan s
  | .arp => layerArp s
  | .ip4 => layerIp4 s
  | .tcp => layerTcp s
  | .udp => layerUdp s
  | .frame => .stopped .noSuchByte
  | .pname => .stopped .noSuchByte

/-- What a layer that decodes changes: records and the cursor, by a length that the view holds. -/
theorem layerOf_decoded {u : CodecUnit} {s s' : State} {n : Half} (h : layerOf u s = .decoded s' n) :
    n.toNat ≤ s.avail ∧ (arpOk s.arp → arpOk s'.arp) ∧
    s' = { s with eth := s'.eth, vlan := s'.vlan, arp := s'.arp, ip4 := s'.ip4, tcp := s'.tcp, udp := s'.udp
                  cur := s.cur + n } := by
  cases u <;> simp only [layerOf, reduceCtorEq] at h
  case eth =>
    obtain ⟨_, e⟩ | ⟨hn, r, e⟩ | e := layerEth_cases s <;> rw [e] at h <;> cases h
    exact ⟨hn, id, rfl⟩
  case vlan =>
    obtain ⟨_, e⟩ | ⟨hn, r, e⟩ | e := layerVlan_cases s <;> rw [e] at h <;> cases h
    exact ⟨hn, id, rfl⟩
  case arp =>
    obtain ⟨_, e⟩ | ⟨m, _, _, _, e⟩ | ⟨m, r, _, _, hn, h1, h2, h3, h4, e⟩ | e := layerArp_cases s <;> rw [e] at h <;>
      cases h
    exact ⟨hn, fun _ => ⟨h1, h2, h3, h4⟩, rfl⟩
  case ip4 =>
    obtain ⟨_, e⟩ | ⟨hn, r, _, e⟩ | ⟨_, r, _, e⟩ | e := layerIp4_cases s <;> rw [e] at h <;> cases h
    exact ⟨hn, id, rfl⟩
  case tcp =>
    obtain ⟨_, e⟩ | ⟨hn, r, e⟩ | e := layerTcp_cases s <;> rw [e] at h <;> cases h
    exact ⟨hn, id, rfl⟩
  case udp =>
    obtain ⟨_, e⟩ | ⟨hn, r, e⟩ | e := layerUdp_cases s <;> rw [e] at h <;> cases h
    exact ⟨hn, id, rfl⟩

/-- What a layer that fails reports: `TooShort` with nothing changed, or `UnsupportedVersion` with the IP4 record written
(60_exceptions R276). -/
theorem layerOf_raised {u : CodecUnit} {s s' : State} {e : ErrKind} {x a : Half} (h : layerOf u s = .raised s' e x a) :
    (e = .tooShort ∧ s' = s ∧ a = BitVec.ofNat 16 s.avail ∧ s.avail < x.toNat) ∨
    (u = .ip4 ∧ e = .unsupportedVersion ∧ x = 0 ∧ a = 0 ∧ s' = { s with ip4 := s'.ip4 }) := by
  cases u <;> simp only [layerOf, reduceCtorEq] at h
  case eth =>
    obtain ⟨hn, e⟩ | ⟨_, r, e⟩ | e := layerEth_cases s <;> rw [e] at h <;> cases h
    exact .inl ⟨rfl, rfl, rfl, hn⟩
  case vlan =>
    obtain ⟨hn, e⟩ | ⟨_, r, e⟩ | e := layerVlan_cases s <;> rw [e] at h <;> cases h
    exact .inl ⟨rfl, rfl, rfl, hn⟩
  case arp =>
    obtain ⟨hn, e⟩ | ⟨m, _, _, hn, e⟩ | ⟨m, r, _, _, _, _, _, _, _, e⟩ | e := layerArp_cases s <;> rw [e] at h <;>
      cases h
    · exact .inl ⟨rfl, rfl, rfl, hn⟩
    · exact .inl ⟨rfl, rfl, rfl, hn⟩
  case ip4 =>
    obtain ⟨hn, e⟩ | ⟨_, r, _, e⟩ | ⟨_, r, _, e⟩ | e := layerIp4_cases s <;> rw [e] at h <;> cases h
    · exact .inl ⟨rfl, rfl, rfl, hn⟩
    · exact .inr ⟨rfl, rfl, rfl, rfl, rfl⟩
  case tcp =>
    obtain ⟨hn, e⟩ | ⟨_, r, e⟩ | e := layerTcp_cases s <;> rw [e] at h <;> cases h
    exact .inl ⟨rfl, rfl, rfl, hn⟩
  case udp =>
    obtain ⟨hn, e⟩ | ⟨_, r, e⟩ | e := layerUdp_cases s <;> rw [e] at h <;> cases h
    exact .inl ⟨rfl, rfl, rfl, hn⟩

/-- On a buffer in canonical form no layer stops (20_memory R64). -/
theorem layerOf_ne_stopped {u : CodecUnit} {s : State} {f : Fault} (hw : s.ibuf.wf = true) (hu : layerBit u ≠ 0) :
    layerOf u s ≠ .stopped f := by
  cases u
  case frame => exact absurd rfl hu
  case pname => exact absurd rfl hu
  case eth => simp only [layerOf, layerEth_eq hw]; split_ifs <;> simp
  case vlan => simp only [layerOf, layerVlan_eq hw]; split_ifs <;> simp
  case arp => simp only [layerOf, layerArp_eq hw]; split_ifs <;> simp
  case ip4 => simp only [layerOf, layerIp4_eq hw]; split_ifs <;> simp
  case tcp => simp only [layerOf, layerTcp_eq hw]; split_ifs <;> simp
  case udp => simp only [layerOf, layerUdp_eq hw]; split_ifs <;> simp

theorem classifyEthertype_ne (t : Half) : (classifyEthertype t).1 ≠ .noClass := by
  unfold classifyEthertype; split_ifs <;> simp

theorem classifyProto_ne (cfg : Config) (p : Byte) : (classifyProto cfg p).1 ≠ .noClass := by
  unfold classifyProto; split_ifs <;> simp

section Rule

variable {cfg : Config} {t : State} (P : Walk → State → Prop) (Q : State → Prop)
  (hd : ∀ u w s s' n, P w s → layerOf u s = .decoded s' n → P (w.decoded u n) s')
  (hc : ∀ w s c, c.1 ≠ FrameClass.noClass → P w s → P (w.classified c) s)
  (hf : ∀ w s, P w s → Q { s with status := okStatus w.nbytes w.layers w.cls w.raw })
  (hr : ∀ u w s s' e x a, P w s → layerOf u s = .raised s' e x a → Q { s' with
    status := { err := e, unit := u, exp := x, act := a, nbytes := w.nbytes, layers := w.layers, cls := w.cls
                raw := w.raw } })

include hd hf hr in
theorem andThen_finish_rule {u : CodecUnit} {w : Walk} {s : State} (hP : P w s)
    (h : andThen u w (layerOf u s) finish = .next t) : Q t := by
  obtain ⟨s', n, ho, hk⟩ | ⟨s', e, x, a, ho, rfl⟩ := andThen_next h
  · rw [finish_eq] at hk
    cases hk
    exact hf _ _ (hd _ _ _ _ _ hP ho)
  · exact hr _ _ _ _ _ _ _ hP ho

include hd hf hr in
theorem frameTransport_rule {w : Walk} {s : State} (hP : P w s) (h : frameTransport w s = .next t) : Q t := by
  have fin : finish w s = .next t → Q t := by
    intro h
    rw [finish_eq] at h
    cases h
    exact hf _ _ hP
  unfold frameTransport at h
  split at h
  · exact andThen_finish_rule P Q hd hf hr (u := .tcp) hP h
  · exact andThen_finish_rule P Q hd hf hr (u := .udp) hP h
  · exact fin h

include hd hc hf hr in
theorem frameNetwork_rule {w : Walk} {s : State} (hP : P w s) (h : frameNetwork cfg w s = .next t) : Q t := by
  unfold frameNetwork at h
  split at h
  · exact andThen_finish_rule P Q hd hf hr (u := .arp) hP h
  · obtain ⟨s', n, ho, hk⟩ | ⟨s', e, x, a, ho, rfl⟩ := andThen_next h
    · exact frameTransport_rule P Q hd hf hr (hc _ _ _ (classifyProto_ne _ _) (hd .ip4 _ _ _ _ hP ho)) hk
    · exact hr .ip4 _ _ _ _ _ _ hP ho
  · rw [finish_eq] at h
    cases h
    exact hf _ _ hP

include hd hc hf hr in
/-- A property that holds at the start, and that every layer and every classification keeps, holds where FRAME_DEC ends. -/
theorem frameDec_rule {s : State} (h0 : P Walk.start s) (h : frameDecAt cfg s = .next t) : Q t := by
  unfold frameDecAt at h
  obtain ⟨s1, n1, ho, hk⟩ | ⟨s1, e, x, a, ho, rfl⟩ := andThen_next h
  case inr => exact hr .eth _ _ _ _ _ _ h0 ho
  have h1 := hc _ _ _ (classifyEthertype_ne s1.eth.type) (hd .eth _ _ _ _ h0 ho)
  simp only [frameLink] at hk
  split at hk
  case h_2 => exact frameNetwork_rule P Q hd hc hf hr h1 hk
  obtain ⟨s2, n2, ho2, hk2⟩ | ⟨s2, e, x, a, ho2, rfl⟩ := andThen_next hk
  case inr => exact hr .vlan _ _ _ _ _ _ h1 ho2
  have h2 := hc _ _ _ (classifyEthertype_ne s2.vlan.type) (hd .vlan _ _ _ _ h1 ho2)
  simp only [frameTagged] at hk2
  split at hk2
  · rw [finish_eq] at hk2
    cases hk2
    exact hf _ _ h2
  · exact frameNetwork_rule P Q hd hc hf hr h2 hk2

end Rule

end Sys2Proof.Machine
end

