-- ==== Sys2Proof/Laws/Parse.lean ====
section
/-! SUPPORT. The pure parse of a view is the record that stands at the cursor, or `TooShort`. -/

namespace Sys2Proof.Machine

theorem arpTotal_ofNat (h p : Byte) : arpTotal h p = BitVec.ofNat 16 (8 + 2 * (h.toNat + p.toNat)) := by
  rw [← arpTotal_toNat]; simp

theorem view_prefix {s : State} (hw : s.ibuf.wf = true) {n : Nat} (hn : n ≤ s.avail) :
    ∃ rest, s.view = bytesAt s 0 n ++ rest := ⟨_, view_split hw hn⟩

theorem ethParse_view {s : State} (hw : s.ibuf.wf = true) : ethParse s.view =
    if s.avail < 14 then .error (.tooShort 14 s.avail) else .ok (ethAt s 0, 14) := by
  split
  · rename_i h
    rw [← view_length] at h ⊢
    unfold ethParse; split
    · rename_i hv; rw [hv] at h; simp at h; omega
    · rfl
  · rename_i h
    obtain ⟨rest, e⟩ := view_prefix hw (n := 14) (by omega)
    rw [e]; simp [bytesAt, List.range_succ, ethParse, ethAt, macAt, halfAt, beW16_eq]

theorem vlanParse_view {s : State} (hw : s.ibuf.wf = true) : vlanParse s.view =
    if s.avail < 4 then .error (.tooShort 4 s.avail) else .ok (vlanAt s 0, 4) := by
  split
  · rename_i h
    rw [← view_length] at h ⊢
    unfold vlanParse; split
    · rename_i hv; rw [hv] at h; simp at h; omega
    · rfl
  · rename_i h
    obtain ⟨rest, e⟩ := view_prefix hw (n := 4) (by omega)
    rw [e]; simp [bytesAt, List.range_succ, vlanParse, vlanAt, halfAt, beW16_eq, vlanTcOf, vlanVidOf]

theorem tcpParse_view {s : State} (hw : s.ibuf.wf = true) : tcpParse s.view =
    if s.avail < 20 then .error (.tooShort 20 s.avail) else .ok (tcpAt s 0, 20) := by
  split
  · rename_i h
    rw [← view_length] at h ⊢
    unfold tcpParse; split
    · rename_i hv; rw [hv] at h; simp at h; omega
    · rfl
  · rename_i h
    obtain ⟨rest, e⟩ := view_prefix hw (n := 20) (by omega)
    rw [e]; simp [bytesAt, List.range_succ, tcpParse, tcpAt, halfAt, wordAt, beW16_eq, beW32_eq]

theorem udpParse_view {s : State} (hw : s.ibuf.wf = true) : udpParse s.view =
    if s.avail < 8 then .error (.tooShort 8 s.avail) else .ok (udpAt s 0, 8) := by
  split
  · rename_i h
    rw [← view_length] at h ⊢
    unfold udpParse; split
    · rename_i hv; rw [hv] at h; simp at h; omega
    · rfl
  · rename_i h
    obtain ⟨rest, e⟩ := view_prefix hw (n := 8) (by omega)
    rw [e]; simp [bytesAt, List.range_succ, udpParse, udpAt, halfAt, beW16_eq]

theorem ip4Parse_view {s : State} (hw : s.ibuf.wf = true) : ip4Parse s.view =
    if s.avail < 20 then .error (.tooShort 20 s.avail) else
      if (ip4At s 0).ver ≠ 4 then .error (.unsupportedVersion (ip4At s 0)) else .ok (ip4At s 0, 20) := by
  by_cases h : s.avail < 20
  · rw [if_pos h]
    rw [← view_length] at h ⊢
    have : ip4Fields s.view = none := by
      unfold ip4Fields; split
      · rename_i hv; rw [hv] at h; simp at h; omega
      · rfl
    simp [ip4Parse, this]
  · rw [if_neg h]
    obtain ⟨rest, e⟩ := view_prefix hw (n := 20) (by omega)
    rw [e]
    simp [bytesAt, List.range_succ, ip4Parse, ip4Fields, ip4At, halfAt, ipAt, beW16_eq, ip4VerOf, ip4IhlOf, ip4FlagsOf,
      ip4FoffOf]

theorem arpParse_view {s : State} (hw : s.ibuf.wf = true) : arpParse s.view =
    if s.avail < 8 then .error (.tooShort 8 s.avail) else
      if s.avail < arpTotalAt s 0 then .error (.tooShort (arpTotalAt s 0) s.avail)
      else .ok (arpAt s 0, arpTotalAt s 0) := by
  by_cases h : s.avail < 8
  · rw [if_pos h]
    rw [← view_length] at h ⊢
    unfold arpParse; split
    · rename_i hv; rw [hv] at h; simp at h; omega
    · rfl
  · rw [if_neg h]
    have ht : (arpTotal (byteAt s 4) (byteAt s 5)).toNat = arpTotalAt s 0 := by
      simp [arpTotal_toNat, arpTotalAt, arpHlenAt, arpPlenAt]
    have e := view_split hw (n := 8) (by omega)
    have hl : s.view.length = s.avail := view_length s
    have e2 : arpParse s.view = arpParse (bytesAt s 0 8 ++ s.view.drop 8) := by rw [← e]
    rw [e2]
    have hll : (s.view.drop 8).length + 8 = s.avail := by rw [List.length_drop, hl]; omega
    have e8 : bytesAt s 0 8 =
        [byteAt s 0, byteAt s 1, byteAt s 2, byteAt s 3, byteAt s 4, byteAt s 5, byteAt s 6, byteAt s 7] := by
      simp [bytesAt, List.range_succ]
    by_cases ht2 : s.avail < arpTotalAt s 0
    · simp [arpParse, ht, e8, show s.avail - 8 + 1 + 1 + 1 + 1 + 1 + 1 + 1 + 1 = s.avail by omega, ht2]
    · have ht3 : 8 + 2 * ((byteAt s 4).toNat + (byteAt s 5).toNat) ≤ s.avail := by
        simpa [arpTotalAt, arpHlenAt, arpPlenAt] using ht2
      simp only [arpParse, ht, e8, hll, ht2, List.cons_append, List.nil_append, List.length_cons, if_false, arpAt,
        arpHlenAt, arpPlenAt, Nat.zero_add]
      rw [bytesAt_view hw (k := 8) (by omega), bytesAt_view hw (by omega), bytesAt_view hw (by omega),
        bytesAt_view hw (by omega)]
      simp [halfAt, beW16_eq, List.drop_drop, Nat.add_assoc]

end Sys2Proof.Machine
end

