-- ==== Sys2Proof/Laws/PerInstr.lean ====
section
/-! SUPPORT. The laws stated of every instruction as syntax, one lemma for each constructor. -/

namespace Sys2Proof.Laws.WordFits

/-- The word of an instruction fits the bytes of its format, whatever the parameters: no bit of it is dropped by `encode`
(30_encoding R90, R116). -/
def Statement (i : Instr) : Prop := ∀ cfg : Config, encodeWord cfg i < 256 ^ i.format.nbytes

theorem frameDec : Statement .frameDec := fun _ => Nat.le_of_ble_eq_true rfl
theorem ethDec : Statement .ethDec := fun _ => Nat.le_of_ble_eq_true rfl
theorem ethEnc : Statement .ethEnc := fun _ => Nat.le_of_ble_eq_true rfl
theorem ethClass : Statement .ethClass := fun _ => Nat.le_of_ble_eq_true rfl
theorem vlanDec : Statement .vlanDec := fun _ => Nat.le_of_ble_eq_true rfl
theorem vlanEnc : Statement .vlanEnc := fun _ => Nat.le_of_ble_eq_true rfl
theorem vlanClass : Statement .vlanClass := fun _ => Nat.le_of_ble_eq_true rfl
theorem arpDec : Statement .arpDec := fun _ => Nat.le_of_ble_eq_true rfl
theorem arpEnc : Statement .arpEnc := fun _ => Nat.le_of_ble_eq_true rfl
theorem arpClass : Statement .arpClass := fun _ => Nat.le_of_ble_eq_true rfl
theorem ip4Dec : Statement .ip4Dec := fun _ => Nat.le_of_ble_eq_true rfl
theorem ip4Enc : Statement .ip4Enc := fun _ => Nat.le_of_ble_eq_true rfl
theorem ip4Class : Statement .ip4Class := fun _ => Nat.le_of_ble_eq_true rfl
theorem tcpDec : Statement .tcpDec := fun _ => Nat.le_of_ble_eq_true rfl
theorem tcpEnc : Statement .tcpEnc := fun _ => Nat.le_of_ble_eq_true rfl
theorem udpDec : Statement .udpDec := fun _ => Nat.le_of_ble_eq_true rfl
theorem udpEnc : Statement .udpEnc := fun _ => Nat.le_of_ble_eq_true rfl
theorem protoName : Statement .protoName := fun _ => Nat.le_of_ble_eq_true rfl
theorem illegal (cmd : Byte) : Statement (.illegal cmd) := fun _ => cmd.isLt
theorem ethertypeVlan : Statement .ethertypeVlan := fun _ => Nat.le_of_ble_eq_true rfl
theorem ethertypeArp : Statement .ethertypeArp := fun _ => Nat.le_of_ble_eq_true rfl
theorem ethertypeIpv4 : Statement .ethertypeIpv4 := fun _ => Nat.le_of_ble_eq_true rfl
theorem ethertypeIpv6 : Statement .ethertypeIpv6 := fun _ => Nat.le_of_ble_eq_true rfl
theorem ethertypeOther (t : Half) : Statement (.ethertypeOther t) := fun _ => t.isLt
theorem arpPtypeIpv4 : Statement .arpPtypeIpv4 := fun _ => Nat.le_of_ble_eq_true rfl
theorem arpPtypeOther (t : Half) : Statement (.arpPtypeOther t) := fun _ => t.isLt
theorem ipprotoTcp : Statement .ipprotoTcp := fun cfg => cfg.protoTcp.isLt
theorem ipprotoUdp : Statement .ipprotoUdp := fun cfg => cfg.protoUdp.isLt
theorem ipprotoOther (p : Byte) : Statement (.ipprotoOther p) := fun _ => p.isLt
theorem protonameIcmp : Statement .protonameIcmp := fun cfg => cfg.protoIcmp.isLt
theorem protonameIgmp : Statement .protonameIgmp := fun cfg => cfg.protoIgmp.isLt
theorem protonameIpip : Statement .protonameIpip := fun cfg => cfg.protoIpip.isLt
theorem protonameTcp : Statement .protonameTcp := fun cfg => cfg.protoTcp.isLt
theorem protonameUdp : Statement .protonameUdp := fun cfg => cfg.protoUdp.isLt
theorem protonameEsp : Statement .protonameEsp := fun cfg => cfg.protoEsp.isLt
theorem protonameAh : Statement .protonameAh := fun cfg => cfg.protoAh.isLt
theorem protonameOspf : Statement .protonameOspf := fun cfg => cfg.protoOspf.isLt
theorem protonamePim : Statement .protonamePim := fun cfg => cfg.protoPim.isLt
theorem protonameVrrp : Statement .protonameVrrp := fun cfg => cfg.protoVrrp.isLt
theorem protonameIsis : Statement .protonameIsis := fun cfg => cfg.protoIsis.isLt
theorem protonameHex (p : Byte) : Statement (.protonameHex p) := fun _ => p.isLt

end Sys2Proof.Laws.WordFits
end

