-- ==== Sys2Proof/Laws/Walk.lean ====
section
/-! SUPPORT. The stages of the chained decode as equations, by the class each branches on, and where FRAME_DEC stands after
its first one or two layers: what the statements about FRAME_DEC cite instead of unfolding it. -/

namespace Sys2Proof.Machine

theorem classifyEthertype_snd (t : Half) : (classifyEthertype t).2 = t := by unfold classifyEthertype; split_ifs <;> rfl
theorem classifyProto_snd (cfg : Config) (p : Byte) : (classifyProto cfg p).2 = p.setWidth 16 := by
  unfold classifyProto; split_ifs <;> rfl

theorem frameLink_vlan {cfg : Config} {w : Walk} {s : State} (hc : w.cls = .vlan) : frameLink cfg w s =
    andThen .vlan w (layerVlan s) fun w s => frameTagged cfg (w.classified (classifyEthertype s.vlan.type)) s := by
  unfold frameLink; rw [hc]

theorem frameLink_other {cfg : Config} {w : Walk} {s : State} (hc : w.cls ≠ .vlan) :
    frameLink cfg w s = frameNetwork cfg w s := by
  unfold frameLink; split <;> first | contradiction | rfl

theorem frameTagged_vlan {cfg : Config} {w : Walk} {s : State} (hc : w.cls = .vlan) :
    frameTagged cfg w s = finish w s := by
  unfold frameTagged; rw [hc]

theorem frameTagged_other {cfg : Config} {w : Walk} {s : State} (hc : w.cls ≠ .vlan) :
    frameTagged cfg w s = frameNetwork cfg w s := by
  unfold frameTagged; split <;> first | contradiction | rfl

theorem frameNetwork_arp {cfg : Config} {w : Walk} {s : State} (hc : w.cls = .arp) :
    frameNetwork cfg w s = andThen .arp w (layerArp s) finish := by
  unfold frameNetwork; rw [hc]

theorem frameNetwork_ipv4 {cfg : Config} {w : Walk} {s : State} (hc : w.cls = .ipv4) : frameNetwork cfg w s =
    andThen .ip4 w (layerIp4 s) fun w s => frameTransport (w.classified (classifyProto cfg s.ip4.proto)) s := by
  unfold frameNetwork; rw [hc]

theorem frameNetwork_other {cfg : Config} {w : Walk} {s : State} (ha : w.cls ≠ .arp) (hi : w.cls ≠ .ipv4) :
    frameNetwork cfg w s = finish w s := by
  unfold frameNetwork; split <;> first | contradiction | rfl

theorem frameTransport_tcp {w : Walk} {s : State} (hc : w.cls = .tcp) :
    frameTransport w s = andThen .tcp w (layerTcp s) finish := by
  unfold frameTransport; rw [hc]

theorem frameTransport_udp {w : Walk} {s : State} (hc : w.cls = .udp) :
    frameTransport w s = andThen .udp w (layerUdp s) finish := by
  unfold frameTransport; rw [hc]

theorem frameTransport_other {w : Walk} {s : State} (ht : w.cls ≠ .tcp) (hu : w.cls ≠ .udp) :
    frameTransport w s = finish w s := by
  unfold frameTransport; split <;> first | contradiction | rfl

/-- What FRAME_DEC has accumulated after the Ethernet header, and the state it goes on from. -/
def walkEth (s : State) : Walk :=
  { nbytes := 14, layers := 0b000001, cls := (classifyEthertype (halfAt s 12)).1, raw := halfAt s 12 }

def stateEth (s : State) : State := { s with eth := ethAt s 0, cur := s.cur + 14 }

/-- What FRAME_DEC has accumulated after a VLAN tag, and the state it goes on from. -/
def walkVlan (s : State) : Walk :=
  { nbytes := 18, layers := 0b000011, cls := (classifyEthertype (halfAt s 16)).1, raw := halfAt s 16 }

def stateVlan (s : State) : State := { s with eth := ethAt s 0, vlan := vlanAt s 14, cur := s.cur + 18 }

theorem moved_stateEth {s : State} (h : bufferOk s.ibuf) (hn : 14 ≤ s.avail) : Moved s (stateEth s) 14 :=
  ⟨rfl, cur_add h (n := 14) hn (by omega)⟩

theorem moved_stateVlan {s : State} (h : bufferOk s.ibuf) (hn : 18 ≤ s.avail) : Moved s (stateVlan s) 18 :=
  ⟨rfl, cur_add h (n := 18) hn (by omega)⟩

/-- FRAME_DEC past the Ethernet header. -/
theorem frameDecAt_eth {cfg : Config} {s : State} (h : s.ibuf.wf = true) (hn : 14 ≤ s.avail) :
    frameDecAt cfg s = frameLink cfg (walkEth s) (stateEth s) := by
  unfold frameDecAt
  rw [layerEth_eq h, if_neg (by omega)]
  show frameLink _ (Walk.classified _ (classifyEthertype (halfAt s 12))) (stateEth s) = _
  unfold Walk.classified
  rw [classifyEthertype_snd]
  rfl

/-- FRAME_DEC past a VLAN tag. -/
theorem frameDecAt_vlan {cfg : Config} {s : State} (h : bufferOk s.ibuf) (hn : 18 ≤ s.avail)
    (ht : halfAt s 12 = 0x8100) : frameDecAt cfg s = frameTagged cfg (walkVlan s) (stateVlan s) := by
  have hm := moved_stateEth h (show 14 ≤ s.avail by omega)
  have hl : layerVlan (stateEth s) = .decoded (stateVlan s) 4 := by
    rw [layerVlan_eq (by rw [hm.ibuf]; exact h.1), if_neg (by rw [hm.avail]; omega), hm.vlanAt]
    have : (stateEth s).cur + 4 = s.cur + 18 := by
      show s.cur + 14 + 4 = _
      rw [BitVec.add_assoc]; rfl
    rw [this]; rfl
  rw [frameDecAt_eth h.1 (by omega), frameLink_vlan (by rw [walkEth, ht]; decide), hl]
  show frameTagged _ (Walk.classified _ (classifyEthertype (halfAt s 16))) (stateVlan s) = _
  have hw : Walk.classified ((walkEth s).decoded .vlan 4) (classifyEthertype (halfAt s 16)) = walkVlan s := by
    unfold Walk.classified
    rw [classifyEthertype_snd]
    simp [walkEth, Walk.decoded, layerBit, walkVlan]
  rw [hw]

theorem moved_afterLink {s : State} {k : Nat} (h : bufferOk s.ibuf) (hn : k ≤ s.avail) (hk : 0 < k) :
    Moved s (afterLink s k) k := ⟨rfl, cur_add h hn hk⟩

/-- FRAME_DEC at the layer after the link layers, untagged or behind one tag: what it has accumulated, and the state. -/
theorem frameDecAt_link {cfg : Config} {s : State} {k : Nat} {t : Half} (h : bufferOk s.ibuf) (hn : k ≤ s.avail)
    (hk : linkType s k t) (ht : t ≠ 0x8100) : frameDecAt cfg s = frameNetwork cfg
      { nbytes := BitVec.ofNat 16 k, layers := linkLayers k, cls := (classifyEthertype t).1, raw := t }
      (afterLink s k) := by
  have hc : (classifyEthertype t).1 ≠ .vlan := by
    unfold classifyEthertype
    rw [if_neg ht]
    split_ifs <;> simp
  obtain ⟨rfl, h1⟩ | ⟨rfl, h1, h2⟩ := hk
  · rw [frameDecAt_eth h.1 hn, frameLink_other (by rw [walkEth, h1]; exact hc), walkEth, h1]
    rfl
  · rw [frameDecAt_vlan h hn h1, frameTagged_other (by rw [walkVlan, h2]; exact hc), walkVlan, h2]
    rfl

end Sys2Proof.Machine
end

