-- ==== Sys2Proof/Tests/Slice0.lean ====
section
/-! SUPPORT. The tests: the well-formedness smoke, words written out from the encoding tables, one step per instruction with
the results that spec/95_test_vectors gives (the row is named in each comment), and for every obligation with hypotheses a
concrete state and operands that meet them. -/

namespace Sys2Proof.Tests

open Sys2Proof Sys2Proof.Machine

/-! ### Helpers -/

/-- The three test frames of 95_test_vectors. -/
def frameA : List Byte :=
  [0xff, 0xff, 0xff, 0xff, 0xff, 0xff, 0x02, 0x00, 0x00, 0x00, 0x00, 0x01, 0x08, 0x00] ++
  [0x45, 0x00, 0x00, 0x1c, 0x12, 0x34, 0x40, 0x00, 0x40, 0x11, 0x00, 0x00, 0x0a, 0x00, 0x00, 0x01] ++
  [0x0a, 0x00, 0x00, 0x02] ++ [0x04, 0xd2, 0x00, 0x35, 0x00, 0x08, 0x00, 0x00]

def arpB : List Byte :=
  [0x00, 0x01, 0x08, 0x00, 0x06, 0x04, 0x00, 0x01] ++ [0x02, 0x00, 0x00, 0x00, 0x00, 0x01] ++
  [0x0a, 0x00, 0x00, 0x01] ++ [0x00, 0x00, 0x00, 0x00, 0x00, 0x00] ++ [0x0a, 0x00, 0x00, 0x02]

def frameB : List Byte :=
  [0xff, 0xff, 0xff, 0xff, 0xff, 0xff, 0x02, 0x00, 0x00, 0x00, 0x00, 0x01, 0x81, 0x00] ++
  [0xa0, 0x64, 0x08, 0x06] ++ arpB

def ip4C : List Byte :=
  [0x45, 0x00, 0x00, 0x28, 0x12, 0x34, 0x40, 0x64, 0x40, 0x06, 0x00, 0x00, 0xc0, 0xa8, 0x00, 0x01] ++
  [0xc0, 0xa8, 0x00, 0x02]

def tcpC : List Byte :=
  [0xc0, 0x00, 0x00, 0x50, 0x01, 0x02, 0x03, 0x04, 0x00, 0x00, 0x00, 0x00, 0x50, 0x02, 0xff, 0xff] ++
  [0x12, 0x34, 0x00, 0x00]

def frameC : List Byte :=
  [0x02, 0x00, 0x00, 0x00, 0x00, 0x02, 0x02, 0x00, 0x00, 0x00, 0x00, 0x01, 0x08, 0x00] ++ ip4C ++ tcpC

/-- An Ethernet header with an ethertype, for the frames that 95_test_vectors gives as variations. -/
def headerOf (t : List Byte) : List Byte := frameA.take 12 ++ t

/-- The state after reset with bytes loaded and the cursor set. -/
def loaded (l : List Byte) (cur : Half) : State := { State.reset with ibuf := Memory.ofBytes l, cur := cur }

/-- The state after reset with an input waiting. -/
def given (x : Input) : State := { State.reset with inbox := [x] }

/-- The status an outcome leaves. -/
def stat (r : Result) : Option Status := (next? r).map State.status

/-- The bytes an outcome leaves in `OBUF`. -/
def out (r : Result) : Option (List Byte) := (next? r).map fun s => s.obuf.bytes

/-- The status tuple of 95_test_vectors, in its order. -/
def tuple (err : ErrKind) (unit : CodecUnit) (exp act nbytes : Half) (layers : BitVec 6) (cls : FrameClass) (raw : Half) :
    Status :=
  { err := err, unit := unit, exp := exp, act := act, nbytes := nbytes, layers := layers, cls := cls, raw := raw }

/-- The status of a success that classified nothing. -/
def done (nbytes : Half) (layers : BitVec 6) : Status := tuple .none .frame 0 0 nbytes layers .noClass 0

/-- The status of a classification. -/
def classed (c : FrameClass) (raw : Half) : Status := tuple .none .frame 0 0 0 0 c raw

/-- The records of 95_test_vectors. -/
def ethA : EthRec := { dst := Bytes6.all 0xff, src := ⟨0x02, 0, 0, 0, 0, 0x01⟩, type := 0x0800 }

def arpReqB : ArpRec :=
  { htype := 1, ptype := 0x0800, hlen := 6, plen := 4, op := 1, sha := [0x02, 0, 0, 0, 0, 0x01], spa := [0x0a, 0, 0, 0x01]
    tha := [0, 0, 0, 0, 0, 0], tpa := [0x0a, 0, 0, 0x02] }

def ip4RecC : Ip4Rec :=
  { ver := 4, ihl := 5, tos := 0, tlen := 40, id := 0x1234, flags := 2, foff := 100, ttl := 64, proto := 6, csum := 0
    src := ⟨0xc0, 0xa8, 0x00, 0x01⟩, dst := ⟨0xc0, 0xa8, 0x00, 0x02⟩ }

def tcpRecC : TcpRec :=
  { sport := 49152, dport := 80, seq := 0x01020304, ack := 0, doff := 0x50, ctrl := 0x02, win := 0xffff, csum := 0x1234
    urg := 0 }

/-- A state with a protocol number. -/
def protoState (p : Byte) : State := { State.reset with ip4.proto := p }

/-- A state with an ARP record. -/
def arpState (r : ArpRec) : State := { State.reset with arp := r }

/-! ### Well-formedness: an ill-formed term for each check -/

/-- 0x10 is ETH_DEC, so no illegal command. -/
theorem test_wf_illegal : (Instr.illegal 0x10).wf Config.current = false := by decide

/-- 0x8100 has a row of its own. -/
theorem test_wf_ethertypeOther : (Instr.ethertypeOther 0x8100).wf Config.current = false := by decide

/-- 0x0800 has a row of its own. -/
theorem test_wf_arpPtypeOther : (Instr.arpPtypeOther 0x0800).wf Config.current = false := by decide

/-- 6 is TCP and 17 is UDP. -/
theorem test_wf_ipprotoOther :
    (Instr.ipprotoOther 6).wf Config.current = false ∧ (Instr.ipprotoOther 17).wf Config.current = false := by decide

/-- 1 is ICMP and 124 is IS-IS. -/
theorem test_wf_protonameHex :
    (Instr.protonameHex 1).wf Config.current = false ∧ (Instr.protonameHex 124).wf Config.current = false := by decide

/-! ### Decoding: words written out from the encoding tables -/

/-- 30_encoding R90: the unit in bits 7 to 4, the function in bits 3 to 0; R93, its table. -/
theorem test_decode_frame_and_name : decodeCmd 0b00000000 = .frameDec ∧ decodeCmd 0b01110011 = .protoName := by decide

theorem test_decode_ethernet :
    decodeCmd 0b00010000 = .ethDec ∧ decodeCmd 0b00010001 = .ethEnc ∧ decodeCmd 0b00010010 = .ethClass := by decide

theorem test_decode_vlan :
    decodeCmd 0b00100000 = .vlanDec ∧ decodeCmd 0b00100001 = .vlanEnc ∧ decodeCmd 0b00100010 = .vlanClass := by decide

theorem test_decode_arp :
    decodeCmd 0b00110000 = .arpDec ∧ decodeCmd 0b00110001 = .arpEnc ∧ decodeCmd 0b00110010 = .arpClass := by decide

theorem test_decode_ipv4 :
    decodeCmd 0b01000000 = .ip4Dec ∧ decodeCmd 0b01000001 = .ip4Enc ∧ decodeCmd 0b01000010 = .ip4Class := by decide

theorem test_decode_transport :
    decodeCmd 0b01010000 = .tcpDec ∧ decodeCmd 0b01010001 = .tcpEnc ∧ decodeCmd 0b01100000 = .udpDec ∧
    decodeCmd 0b01100001 = .udpEnc := by decide

/-- The illegal bytes that 95_test_vectors 2.8 lists. -/
theorem test_decode_illegal :
    ∀ c ∈ ([0x01, 0x02, 0x03, 0x04, 0x13, 0x1f, 0x23, 0x33, 0x43, 0x52, 0x53, 0x62, 0x63, 0x70, 0x71, 0x72, 0x74, 0x80,
      0xff] : List Byte), decodeCmd c = .illegal c := by decide

/-- 30_encoding R105, each value with its bits written out. -/
theorem test_decode_ethertype :
    decodeEthertype 0b1000000100000000 = .ethertypeVlan ∧ decodeEthertype 0b0000100000000110 = .ethertypeArp ∧
    decodeEthertype 0b0000100000000000 = .ethertypeIpv4 ∧ decodeEthertype 0b1000011011011101 = .ethertypeIpv6 ∧
    decodeEthertype 0b0000100000000001 = .ethertypeOther 0x0801 := by decide

/-- 42_arp R169. -/
theorem test_decode_arpPtype :
    decodeArpPtype 0b0000100000000000 = .arpPtypeIpv4 ∧
    decodeArpPtype 0b1000000100000000 = .arpPtypeOther 0x8100 := by decide

/-- 30_encoding R106 and R107. -/
theorem test_decode_ipproto :
    decodeIpproto Config.current 0b00000110 = .ipprotoTcp ∧ decodeIpproto Config.current 0b00010001 = .ipprotoUdp ∧
    decodeIpproto Config.current 0b00000001 = .ipprotoOther 1 := by decide

/-- 30_encoding R107 and 45_protocol_name R243. -/
theorem test_decode_protoname :
    decodeProtoname Config.current 0b00000001 = .protonameIcmp ∧ decodeProtoname Config.current 0b00000010 = .protonameIgmp ∧
    decodeProtoname Config.current 0b00000100 = .protonameIpip ∧ decodeProtoname Config.current 0b00000110 = .protonameTcp ∧
    decodeProtoname Config.current 0b00010001 = .protonameUdp ∧ decodeProtoname Config.current 0b00110010 = .protonameEsp ∧
    decodeProtoname Config.current 0b00110011 = .protonameAh ∧ decodeProtoname Config.current 0b01011001 = .protonameOspf ∧
    decodeProtoname Config.current 0b01100111 = .protonamePim ∧ decodeProtoname Config.current 0b01110000 = .protonameVrrp ∧
    decodeProtoname Config.current 0b01111100 = .protonameIsis ∧
    decodeProtoname Config.current 0b00000011 = .protonameHex 3 := by decide

/-- A 16-bit value is two bytes, the first on top; a sequence of another length is rejected by name. -/
theorem test_decodeIn :
    (decodeIn Config.current .ethertype [0x08, 0x06]).toOption = some .ethertypeArp ∧
    (decodeIn Config.current .cmd []).toOption = none ∧
    (decodeIn Config.current .ethertype [0x08]).toOption = none := by decide

/-- Table words (log entry 9). -/
theorem test_decodeTableWord :
    decodeTableWord 8 0x41 = some .ip4Enc ∧ decodeTableWord 16 0x8100 = some .ethertypeVlan ∧
    decodeTableWord 8 0x100 = none ∧ decodeTableWord 24 0 = none := by decide

/-- The next step after `withFetchWord` runs the word's instruction. -/
theorem test_withFetchWord :
    stat (step (State.reset.withFetchWord 8 0x11)) = some (done 14 0) ∧
    stat (step (State.reset.withFetchWord 16 0x0806)) = some (classed .arp 0x0806) := by decide

/-! ### FRAME_DEC -/

/-- F1. -/
theorem test_frameDec_udp : stat (exec .frameDec (loaded frameA 0)) =
    some (tuple .none .frame 0 0 42 0b101001 .udp 0x0011) := by decide

/-- F16: the failing layer and what was accumulated before it. -/
theorem test_frameDec_shortArp : stat (exec .frameDec (loaded (frameB.take 40) 0)) =
    some (tuple .tooShort .arp 28 22 18 0b000011 .arp 0x0806) := by decide

/-- 46_frame_dispatch R254 on F3: the walk by hand leaves what FRAME_DEC leaves but for the status. -/
theorem test_walkByHand :
    (next? (walkByHand (loaded frameC 0))).map (fun s => { s with status := State.reset.status }) =
    (next? (exec .frameDec (loaded frameC 0))).map (fun s => { s with status := State.reset.status }) := by decide

/-! ### Ethernet -/

/-- E7: any fourteen bytes at the cursor. -/
theorem test_ethDec : next? (exec .ethDec (loaded frameA 28)) = some { loaded frameA 42 with
    eth := { dst := ⟨0x00, 0x01, 0x0a, 0x00, 0x00, 0x02⟩, src := ⟨0x04, 0xd2, 0x00, 0x35, 0x00, 0x08⟩, type := 0 }
    status := done 14 0b000001 } := by decide

/-- E6: one byte short. -/
theorem test_ethDec_short : next? (exec .ethDec (loaded frameA 29)) = some { loaded frameA 29 with
    status := tuple .tooShort .eth 14 13 0 0 .noClass 0 } := by decide

/-- E10, E12. -/
theorem test_ethEnc : out (exec .ethEnc { State.reset with eth := ethA, obuf := Memory.ofBytes frameB }) =
    some (frameA.take 14) := by decide

/-- E13, E16, E20. -/
theorem test_ethClass :
    stat (exec .ethClass { State.reset with eth.type := 0x8100 }) = some (classed .vlan 0x8100) ∧
    stat (exec .ethClass { State.reset with eth.type := 0x86dd }) = some (classed .unknownEther 0x86dd) ∧
    stat (exec .ethClass { State.reset with eth.type := 0x0801 }) = some (classed .unknownEther 0x0801) := by decide

/-! ### VLAN -/

/-- V3 and V7: which bits are the tag control and which the id. -/
theorem test_vlanDec :
    next? (exec .vlanDec (loaded [0xa0, 0x64, 0x08, 0x06] 0)) = some { loaded [0xa0, 0x64, 0x08, 0x06] 4 with
      vlan := { tc := 10, vid := 100, type := 0x0806 }, status := done 4 0b000010 } ∧
    (next? (exec .vlanDec (loaded [0x10, 0x00, 0x08, 0x00] 0))).map State.vlan =
      some { tc := 1, vid := 0, type := 0x0800 } := by decide

/-- V9. -/
theorem test_vlanDec_short : stat (exec .vlanDec (loaded frameB 43)) =
    some (tuple .tooShort .vlan 4 3 0 0 .noClass 0) := by decide

/-- V12, V13, V15. -/
theorem test_vlanEnc :
    out (exec .vlanEnc { State.reset with vlan := { tc := 1, vid := 1, type := 0x0800 } }) = some [0x10, 0x01, 0x08, 0x00] ∧
    out (exec .vlanEnc { State.reset with vlan := { tc := 0, vid := 4095, type := 0x0800 } }) =
      some [0x0f, 0xff, 0x08, 0x00] ∧
    out (exec .vlanEnc { State.reset with vlan := { tc := 10, vid := 100, type := 0x0806 } }) =
      some [0xa0, 0x64, 0x08, 0x06] := by decide

/-- E14 with `VLAN.TYPE` in place of `ETH.TYPE`. -/
theorem test_vlanClass :
    stat (exec .vlanClass { State.reset with vlan.type := 0x0806 }) = some (classed .arp 0x0806) := by decide

/-! ### ARP -/

/-- A9: four addresses of two lengths, in their order. -/
theorem test_arpDec : (next? (exec .arpDec (loaded
    [0x00, 0x01, 0x08, 0x00, 0x01, 0x02, 0x00, 0x02, 0xaa, 0xb1, 0xb2, 0xcc, 0xd1, 0xd2, 0xee] 0))).map
      (fun s => (s.arp, s.cur, s.status)) =
    some ({ htype := 1, ptype := 0x0800, hlen := 1, plen := 2, op := 2, sha := [0xaa], spa := [0xb1, 0xb2], tha := [0xcc]
            tpa := [0xd1, 0xd2] }, 14, done 14 0b000100) := by decide

/-- A6: the total is 1028 and nothing but the fixed part is read. -/
theorem test_arpDec_short : next? (exec .arpDec (loaded
    ([0x00, 0x01, 0x08, 0x00, 0xff, 0xff, 0x00, 0x01] ++ List.replicate 12 0) 0)) = some { loaded
      ([0x00, 0x01, 0x08, 0x00, 0xff, 0xff, 0x00, 0x01] ++ List.replicate 12 0) 0 with
        status := tuple .tooShort .arp 1028 20 0 0 .noClass 0 } := by decide

/-- S5. -/
theorem test_arpEnc : out (exec .arpEnc (arpState arpReqB)) = some arpB := by decide

/-- A17: the first mismatch is the one reported. -/
theorem test_arpEnc_mismatch :
    next? (exec .arpEnc (arpState { arpReqB with sha := [0x02, 0, 0, 0, 0], tpa := [0x0a, 0, 0] })) =
      some { arpState { arpReqB with sha := [0x02, 0, 0, 0, 0], tpa := [0x0a, 0, 0] } with
        status := tuple .addrLenMismatch .arp 6 5 0 0 .noClass 0 } := by decide

/-- A19, A21. -/
theorem test_arpClass :
    stat (exec .arpClass (arpState { arpReqB with ptype := 0x0800 })) = some (classed .ipv4 0x0800) ∧
    stat (exec .arpClass (arpState { arpReqB with ptype := 0x8100 })) = some (classed .unknownEther 0x8100) := by decide

/-! ### IPv4 -/

/-- I4. -/
theorem test_ip4Dec : next? (exec .ip4Dec (loaded ip4C 0)) = some { loaded ip4C 20 with
    ip4 := ip4RecC, status := done 20 0b001000 } := by decide

/-- I8: a rejected version is written and the cursor stays. -/
theorem test_ip4Dec_version : (next? (exec .ip4Dec (loaded
    [0x60, 0x00, 0x00, 0x00, 0x00, 0x08, 0x11, 0x40, 0x01, 0x02, 0x03, 0x04, 0x05, 0x06, 0x07, 0x08, 0x09, 0x0a, 0x0b, 0x0c]
    0))).map (fun s => (s.ip4, s.cur, s.status)) =
    some ({ ver := 6, ihl := 0, tos := 0, tlen := 0, id := 8, flags := 0, foff := 0x1140, ttl := 1, proto := 2
            csum := 0x0304, src := ⟨5, 6, 7, 8⟩, dst := ⟨9, 10, 11, 12⟩ }, 0,
      tuple .unsupportedVersion .ip4 0 0 0 0 .noClass 0) := by decide

/-- I14. -/
theorem test_ip4Enc : out (exec .ip4Enc { State.reset with ip4 := ip4RecC }) = some ip4C := by decide

/-- I19, I20, I23. -/
theorem test_ip4Class :
    stat (exec .ip4Class (protoState 6)) = some (classed .tcp 0x0006) ∧
    stat (exec .ip4Class (protoState 17)) = some (classed .udp 0x0011) ∧
    stat (exec .ip4Class (protoState 255)) = some (classed .otherProto 0x00ff) := by decide

/-! ### TCP and UDP -/

/-- T4. -/
theorem test_tcpDec : next? (exec .tcpDec (loaded tcpC 0)) = some { loaded tcpC 20 with
    tcp := tcpRecC, status := done 20 0b010000 } := by decide

/-- T7. -/
theorem test_tcpDec_short : stat (exec .tcpDec (loaded frameC 35)) =
    some (tuple .tooShort .tcp 20 19 0 0 .noClass 0) := by decide

/-- T10. -/
theorem test_tcpEnc : out (exec .tcpEnc { State.reset with tcp := tcpRecC }) = some tcpC := by decide

/-- UD6. -/
theorem test_udpDec : next? (exec .udpDec (loaded frameA 34)) = some { loaded frameA 42 with
    udp := { sport := 1234, dport := 53, len := 8, csum := 0 }, status := done 8 0b100000 } := by decide

/-- UD7. -/
theorem test_udpDec_short : stat (exec .udpDec (loaded frameA 35)) =
    some (tuple .tooShort .udp 8 7 0 0 .noClass 0) := by decide

/-- UD10. -/
theorem test_udpEnc :
    out (exec .udpEnc { State.reset with udp := { sport := 0xffff, dport := 0, len := 0x0102, csum := 0xabcd } }) =
      some [0xff, 0xff, 0x00, 0x00, 0x01, 0x02, 0xab, 0xcd] := by decide

/-! ### Names and the illegal command -/

/-- PN4, PN8. -/
theorem test_protoName :
    (next? (exec .protoName (protoState 6))).map State.pname = some { len := 3, ch := ⟨0x74, 0x63, 0x70, 0x00⟩ } ∧
    (next? (exec .protoName (protoState 89))).map State.pname = some { len := 4, ch := ⟨0x6f, 0x73, 0x70, 0x66⟩ } := by
  decide

/-- PN16, PN20: lower case, the leading zero kept. -/
theorem test_protoName_hex :
    (next? (exec .protoName (protoState 0x0a))).map State.pname = some { len := 2, ch := ⟨0x30, 0x61, 0x00, 0x00⟩ } ∧
    (next? (exec .protoName (protoState 0xff))).map State.pname = some { len := 2, ch := ⟨0x66, 0x66, 0x00, 0x00⟩ } := by
  decide

/-- 95_test_vectors 2.8. -/
theorem test_illegal : next? (exec (.illegal 0x33) (loaded frameA 5)) = some { loaded frameA 5 with
    status := tuple .illegalOp .frame 0 0 0 0 .noClass 0 } := by decide

/-! ### The dispatch rows -/

/-- E13 to E16 and E18. -/
theorem test_ethertype_rows :
    stat (exec .ethertypeVlan State.reset) = some (classed .vlan 0x8100) ∧
    stat (exec .ethertypeArp State.reset) = some (classed .arp 0x0806) ∧
    stat (exec .ethertypeIpv4 State.reset) = some (classed .ipv4 0x0800) ∧
    stat (exec .ethertypeIpv6 State.reset) = some (classed .unknownEther 0x86dd) ∧
    stat (exec (.ethertypeOther 0x88a8) State.reset) = some (classed .unknownEther 0x88a8) := by decide

/-- A19, A22; I19, I20, I25. -/
theorem test_ptype_and_proto_rows :
    stat (exec .arpPtypeIpv4 State.reset) = some (classed .ipv4 0x0800) ∧
    stat (exec (.arpPtypeOther 0x0806) State.reset) = some (classed .unknownEther 0x0806) ∧
    stat (exec .ipprotoTcp State.reset) = some (classed .tcp 0x0006) ∧
    stat (exec .ipprotoUdp State.reset) = some (classed .udp 0x0011) ∧
    stat (exec (.ipprotoOther 89) State.reset) = some (classed .otherProto 0x0059) := by decide

/-- PN7, PN9, PN19. -/
theorem test_name_rows :
    (next? (exec .protonameAh State.reset)).map State.pname = some { len := 2, ch := ⟨0x61, 0x68, 0x00, 0x00⟩ } ∧
    (next? (exec .protonamePim State.reset)).map State.pname = some { len := 3, ch := ⟨0x70, 0x69, 0x6d, 0x00⟩ } ∧
    (next? (exec (.protonameHex 0x2f) State.reset)).map State.pname =
      some { len := 2, ch := ⟨0x32, 0x66, 0x00, 0x00⟩ } := by decide

/-! ### The host port -/

/-- 41_vlan R156 and the width of a three-bit register. -/
theorem test_set :
    (next? (step (given (.set .vlanVid (.int 4095))))).map (fun s => s.vlan.vid) = some 4095 ∧
    next? (step (given (.set .vlanVid (.int 4096)))) = none ∧
    next? (step (given (.set .ip4Flags (.int 8)))) = none ∧
    next? (step (given (.set .ethDst (.bytes [1, 2, 3, 4, 5])))) = none := by decide

/-- LOAD and RESET. -/
theorem test_load_and_reset :
    (next? (step (given (.load [1, 2, 3])))).map (fun s => (s.ibuf.bytes, s.ibuf.len)) = some ([1, 2, 3], 3) ∧
    next? (step { loaded frameA 7 with eth := ethA, inbox := [.reset] }) = some State.reset := by decide

/-! ### Witnesses: a state and operands that meet the hypotheses of each obligation, clause by clause -/

/-- OtherCommandBytesRaiseIllegalOp: just past a legal byte of each kind, and the last byte. -/
theorem witness_OtherCommandBytes :
    ∀ c ∈ ([0x01, 0x13, 0x52, 0x72, 0x74, 0x80, 0xff] : List Byte), c ∉ legalCmds := by decide

/-- DecodeOfEncodeGivesTheInstruction: the machine's parameters, and an instruction of each format with its operand next to
a value that has a row of its own. -/
theorem witness_DecodeOfEncode :
    Config.current.valid = true ∧
    ∀ i ∈ ([.protoName, .illegal 0x74, .ethertypeOther 0x0801, .arpPtypeOther 0x0806, .ipprotoOther 7, .protonameHex 3,
      .protonameHex 255] : List Instr), i.wf Config.current = true := by decide

/-- EncodeOfDecodeGivesTheBytes. -/
theorem witness_EncodeOfDecode :
    ([0xff] : List Byte).length = Format.cmd.nbytes ∧ ([0x81, 0x00] : List Byte).length = Format.ethertype.nbytes ∧
    ([0x08, 0x00] : List Byte).length = Format.arpptype.nbytes ∧ ([0x06] : List Byte).length = Format.ipproto.nbytes ∧
    ([0x00] : List Byte).length = Format.protoname.nbytes := by decide

/-- StepRunsTheDecodedCommand: a legal command, an illegal one, and no input. -/
theorem witness_StepRuns :
    (given (.cmd 0x73)).inbox = .cmd 0x73 :: [] ∧ decodeIn Config.current .cmd [0x73] = .ok .protoName ∧
    (given (.cmd 0x74)).inbox = .cmd 0x74 :: [] ∧ decodeIn Config.current .cmd [0x74] = .ok (.illegal 0x74) ∧
    State.reset.inbox = [] := ⟨rfl, rfl, rfl, rfl, rfl⟩

/-- ResetLeavesTheTableOfValues, LoadReplacesTheInputBufferAndNothingElse and ArpLenIsAViewThatNeverWraps: the inputs; a
load of exactly `BUF_CAP` bytes and one of a byte more. -/
theorem witness_HostInputs :
    (given .reset).inbox = .reset :: [] ∧ (given (.load frameA)).inbox = .load frameA :: [] ∧
    (given (.get .ibuf)).inbox = .get .ibuf :: [] ∧
    (given (.set .arpLen (.int 8))).inbox = .set .arpLen (.int 8) :: [] ∧
    (List.replicate 2048 (0 : Byte)).length ≤ Config.current.bufCap ∧
    Config.current.bufCap < (List.replicate 2049 (0 : Byte)).length := by
  refine ⟨rfl, rfl, rfl, rfl, ?_, ?_⟩ <;> rw [List.length_replicate] <;> decide

/-- SetTakesExactlyTheValuesThatFit: the greatest value that fits, the least that does not, a sequence a byte too long, and a
register the host cannot write. -/
theorem witness_SetTakes :
    (given (.set .vlanVid (.int 4095))).inbox = .set .vlanVid (.int 4095) :: [] ∧
    (writable .vlanVid = true ∧ fits .vlanVid (.int 4095) = true) ∧
    (writable .vlanVid = true ∧ fits .vlanVid (.int 4096) = false) ∧
    (writable .ethSrc = true ∧ fits .ethSrc (.bytes [0, 0, 0, 0, 0, 0, 0]) = false) ∧
    (writable .arpSha = true ∧ fits .arpSha (.bytes []) = true) ∧ writable .kZeroMac = false := by decide

/-- SetWritesItsRegisterAndNoOther: a SET that is taken. -/
theorem witness_SetWrites : ∃ t, step (given (.set .tcpSeq (.int 0xffffffff))) = .next t ∧
    Reg.tcpAck ≠ .tcpSeq ∧ Reg.tcpAck ≠ .arpLen := ⟨_, rfl, by decide, by decide⟩

/-- VlanIdRangeIsCheckedByTheSet: both sides of the boundary. -/
theorem witness_VlanIdRange :
    (given (.set .vlanVid (.int 4096))).inbox = .set .vlanVid (.int 4096) :: [] ∧ 4095 < 4096 ∧
    (given (.set .vlanVid (.int 4095))).inbox = .set .vlanVid (.int 4095) :: [] ∧ 4095 ≤ 4095 := by decide

/-- PseudoInstructionsTestWhatTheyName: a predicate and REWIND. -/
theorem witness_Pseudo :
    Pseudo.isTcp ≠ .rewind ∧
    ({ State.reset with inbox := expandPseudo .isTcp } : State).inbox = expandPseudo .isTcp ++ [] ∧
    ({ State.reset with inbox := expandPseudo .rewind } : State).inbox = expandPseudo .rewind ++ [] := by decide

/-- BigEndianBytesAndValueAreInverse: the greatest value of two bytes. -/
theorem witness_BigEndian : 65535 < 256 ^ 2 := by decide

/-- WrittenBufferReadsBackByteForByte, its third clause. -/
theorem witness_WrittenBuffer :
    (Memory.ofBytes frameA).wf = true ∧ ∀ a, (Memory.ofBytes frameA).readByte a = (Memory.ofBytes frameA).readByte a :=
  ⟨by decide, fun _ => rfl⟩

/-- ViewStartsAtTheCursor: the cursor at the end, past it, and one byte before it. -/
theorem witness_View :
    bufferOk (loaded frameA 42).ibuf ∧ (loaded frameA 42).cur.toNat ≤ (loaded frameA 42).ibuf.len ∧
    (loaded frameA 43).ibuf.len < (loaded frameA 43).cur.toNat ∧ 0 < (loaded frameA 41).avail :=
  ⟨⟨by decide, by decide⟩, by decide, by decide, by decide⟩

/-- NoOperationReadsOutsideTheBuffer and OperationsWireTheirPureFunctions, and with them FrameDecEqualsTheWalkByHand: a buffer
in canonical form. -/
theorem witness_wf : (loaded frameA 34).ibuf.wf = true ∧ (loaded [] 9).ibuf.wf = true := by decide

/-- A state that meets the invariant, with both buffers filled, a name and an error in `STATUS`. -/
def busy : State :=
  { loaded frameB 18 with
    obuf := Memory.ofBytes arpB, arp := arpReqB, pname := { len := 2, ch := ⟨0x61, 0x68, 0x00, 0x00⟩ }
    status := tuple .tooShort .arp 28 22 18 0b000011 .arp 0x0806, inbox := [.cmd 0x30] }

theorem busy_inv : busy.Inv where
  ibuf := ⟨by decide, by decide⟩
  obuf := ⟨by decide, by decide⟩
  arp := by unfold arpOk; decide
  pname := by
    refine ⟨by decide, fun i hi => ?_⟩
    rcases i with _ | _ | _ | _ | i
    · exact absurd hi (by decide)
    · exact absurd hi (by decide)
    · rfl
    · rfl
    · rfl
  status := by constructor <;> decide

/-- EveryStepKeepsTheInvariant and EveryInstructionCompletes. -/
theorem witness_Inv : busy.Inv ∧ ∃ t, step busy = .next t := ⟨busy_inv, _, rfl⟩

/-- The six statements about single-layer decodes: exactly enough bytes, and one byte too few. -/
theorem witness_EthDec : (loaded frameA 28).ibuf.wf = true ∧ 14 ≤ (loaded frameA 28).avail ∧
    (loaded frameA 29).avail < 14 := by decide

theorem witness_VlanDec : (loaded frameB 42).ibuf.wf = true ∧ 4 ≤ (loaded frameB 42).avail ∧
    (loaded frameB 43).avail < 4 := by decide

theorem witness_ArpDec : (loaded frameB 18).ibuf.wf = true ∧
    (8 ≤ (loaded frameB 18).avail ∧ arpTotalAt (loaded frameB 18) 0 ≤ (loaded frameB 18).avail) ∧
    (8 ≤ (loaded (frameB.take 45) 18).avail ∧
      (loaded (frameB.take 45) 18).avail < arpTotalAt (loaded (frameB.take 45) 18) 0) ∧
    (loaded frameB 39).avail < 8 := by decide

theorem witness_Ip4Dec : (loaded ip4C 0).ibuf.wf = true ∧
    (20 ≤ (loaded ip4C 0).avail ∧ (ip4At (loaded ip4C 0) 0).ver = 4) ∧
    (20 ≤ (loaded (0x65 :: ip4C.tail) 0).avail ∧ (ip4At (loaded (0x65 :: ip4C.tail) 0) 0).ver ≠ 4) ∧
    (loaded ip4C 1).avail < 20 := by decide

theorem witness_TcpDec : (loaded frameC 34).ibuf.wf = true ∧ 20 ≤ (loaded frameC 34).avail ∧
    (loaded frameC 35).avail < 20 := by decide

theorem witness_UdpDec : (loaded frameA 34).ibuf.wf = true ∧ 8 ≤ (loaded frameA 34).avail ∧
    (loaded frameA 35).avail < 8 := by decide

/-- ArpEncWritesTheMessageOrReportsTheFirstMismatch: a record for each of the five clauses. -/
theorem witness_ArpEnc :
    (arpReqB.sha.length = arpReqB.hlen.toNat ∧ arpReqB.spa.length = arpReqB.plen.toNat ∧
      arpReqB.tha.length = arpReqB.hlen.toNat ∧ arpReqB.tpa.length = arpReqB.plen.toNat) ∧
    ([0, 0, 0, 0, 0] : List Byte).length ≠ arpReqB.hlen.toNat ∧
    ([0, 0, 0, 0, 0, 0, 0] : List Byte).length ≠ arpReqB.hlen.toNat ∧
    ([] : List Byte).length ≠ arpReqB.plen.toNat := by decide

/-- The round trips: views of exactly the length, views a byte short, valid records, and the standard ARP message. -/
theorem witness_RoundTrips :
    (14 ≤ (frameA.take 14).length ∧ (frameA.take 13).length < 14) ∧
    (4 ≤ ([0xa0, 0x64, 0x08, 0x06] : List Byte).length ∧ ([0xa0, 0x64, 0x08] : List Byte).length < 4) ∧
    (arpReqB.valid = true ∧ arpB.length = 28 ∧ arpB[4]? = some 6 ∧ arpB[5]? = some 4) ∧
    (ip4RecC.valid = true ∧ 20 ≤ ip4C.length ∧ (ip4C.take 19).length < 20) ∧
    (20 ≤ tcpC.length ∧ (tcpC.take 19).length < 20) ∧
    (8 ≤ (frameA.drop 34).length ∧ (frameA.drop 35).length < 8) := by decide

/-- ArpMessagesRoundTrip, its second clause. -/
theorem witness_ArpParse : (arpParse arpB).toOption = some (arpReqB, 28) := by decide

/-- EthertypesFallInExactlyOneClass: each value, and one that is none of them. -/
theorem witness_Ethertypes : (0x0801 : Half) ≠ 0x8100 ∧ (0x0801 : Half) ≠ 0x0806 ∧ (0x0801 : Half) ≠ 0x0800 := by decide

/-- Ip4ClassReportsTheProtocol and ProtocolNumbersHaveTheirNames: admissible parameters, each clause's number, and a number
that is none of the eleven. -/
theorem witness_Protocols :
    Config.current.valid = true ∧ (6 : Byte) = Config.current.protoTcp ∧ (17 : Byte) = Config.current.protoUdp ∧
    ((7 : Byte) ≠ Config.current.protoTcp ∧ (7 : Byte) ≠ Config.current.protoUdp) ∧
    (3 : Byte) ∉ Config.current.protos := by decide

/-- FrameDecStopsAtASecondTag: exactly eighteen bytes. -/
theorem witness_SecondTag :
    bufferOk (loaded (headerOf [0x81, 0x00, 0x20, 0x05, 0x81, 0x00]) 0).ibuf ∧
    18 ≤ (loaded (headerOf [0x81, 0x00, 0x20, 0x05, 0x81, 0x00]) 0).avail ∧
    halfAt (loaded (headerOf [0x81, 0x00, 0x20, 0x05, 0x81, 0x00]) 0) 12 = 0x8100 ∧
    halfAt (loaded (headerOf [0x81, 0x00, 0x20, 0x05, 0x81, 0x00]) 0) 16 = 0x8100 :=
  ⟨⟨by decide, by decide⟩, by decide, by decide, by decide⟩

/-- The frames of F17 (a tagged IPv4 frame), and of F10 (neither TCP nor UDP). -/
def taggedA : List Byte := headerOf [0x81, 0x00, 0x00, 0x05, 0x08, 0x00] ++ frameA.drop 14

def icmpA : List Byte := frameA.take 23 ++ [0x01] ++ frameA.drop 24

/-- FrameDecWalksIpv4ToTheTransportHeader, untagged with UDP, TCP and another protocol, each with exactly the bytes needed; and
tagged. -/
theorem witness_WalksIpv4 :
    (bufferOk (loaded frameA 0).ibuf ∧ halfAt (loaded frameA 0) 12 = 0x0800 ∧ (ip4At (loaded frameA 0) 14).ver = 4 ∧
      14 + 28 ≤ (loaded frameA 0).avail ∧ byteAt (loaded frameA 0) (14 + 9) = 17) ∧
    (bufferOk (loaded frameC 0).ibuf ∧ halfAt (loaded frameC 0) 12 = 0x0800 ∧ (ip4At (loaded frameC 0) 14).ver = 4 ∧
      14 + 40 ≤ (loaded frameC 0).avail ∧ byteAt (loaded frameC 0) (14 + 9) = 6) ∧
    (bufferOk (loaded icmpA 0).ibuf ∧ halfAt (loaded icmpA 0) 12 = 0x0800 ∧ (ip4At (loaded icmpA 0) 14).ver = 4 ∧
      14 + 20 ≤ (loaded icmpA 0).avail ∧ byteAt (loaded icmpA 0) (14 + 9) ≠ 17 ∧
      byteAt (loaded icmpA 0) (14 + 9) ≠ 6) ∧
    (bufferOk (loaded taggedA 0).ibuf ∧ halfAt (loaded taggedA 0) 12 = 0x8100 ∧ halfAt (loaded taggedA 0) 16 = 0x0800 ∧
      (ip4At (loaded taggedA 0) 18).ver = 4 ∧ 18 + 28 ≤ (loaded taggedA 0).avail ∧
      byteAt (loaded taggedA 0) (18 + 9) = 17) := by
  unfold bufferOk; decide

/-- The untagged ARP frame that Frame B becomes without its tag. -/
def untaggedB : List Byte := headerOf [0x08, 0x06] ++ arpB

/-- FrameDecWalksArpAndStopsAtUnknown: untagged and tagged ARP with exactly the bytes needed, F9 and F18. -/
theorem witness_WalksArp :
    (bufferOk (loaded untaggedB 0).ibuf ∧ 14 ≤ (loaded untaggedB 0).avail ∧ halfAt (loaded untaggedB 0) 12 = 0x0806 ∧
      14 + arpTotalAt (loaded untaggedB 0) 14 ≤ (loaded untaggedB 0).avail) ∧
    (bufferOk (loaded frameB 0).ibuf ∧ 14 ≤ (loaded frameB 0).avail ∧ halfAt (loaded frameB 0) 12 = 0x8100 ∧
      halfAt (loaded frameB 0) 16 = 0x0806 ∧ 18 + arpTotalAt (loaded frameB 0) 18 ≤ (loaded frameB 0).avail) ∧
    (bufferOk (loaded (headerOf [0x86, 0xdd]) 0).ibuf ∧ 14 ≤ (loaded (headerOf [0x86, 0xdd]) 0).avail ∧
      halfAt (loaded (headerOf [0x86, 0xdd]) 0) 12 ≠ 0x8100 ∧ halfAt (loaded (headerOf [0x86, 0xdd]) 0) 12 ≠ 0x0806 ∧
      halfAt (loaded (headerOf [0x86, 0xdd]) 0) 12 ≠ 0x0800) ∧
    (bufferOk (loaded (headerOf [0x81, 0x00, 0x00, 0x05, 0x88, 0xcc]) 0).ibuf ∧
      halfAt (loaded (headerOf [0x81, 0x00, 0x00, 0x05, 0x88, 0xcc]) 0) 12 = 0x8100 ∧
      18 ≤ (loaded (headerOf [0x81, 0x00, 0x00, 0x05, 0x88, 0xcc]) 0).avail ∧
      halfAt (loaded (headerOf [0x81, 0x00, 0x00, 0x05, 0x88, 0xcc]) 0) 16 = 0x88cc) := by
  unfold bufferOk; decide

/-- The frame of F11, and Frame C behind the tag of F17. -/
def ipv6InA : List Byte := frameA.take 14 ++ [0x65] ++ frameA.drop 15

def taggedC : List Byte := headerOf [0x81, 0x00, 0x00, 0x05, 0x08, 0x00] ++ frameC.drop 14

/-- FrameDecReportsTheFailingLayer, the two link layers, each a byte short: F5, F14. -/
theorem witness_FailingLink :
    (bufferOk (loaded (frameA.take 13) 0).ibuf ∧ (loaded (frameA.take 13) 0).avail < 14) ∧
    (bufferOk (loaded (frameB.take 17) 0).ibuf ∧ 14 ≤ (loaded (frameB.take 17) 0).avail ∧
      (loaded (frameB.take 17) 0).avail < 18 ∧ halfAt (loaded (frameB.take 17) 0) 12 = 0x8100) := by
  unfold bufferOk; decide

/-- FrameDecReportsTheFailingLayer, an ARP message a byte short of the fixed part and of its total: untagged, and tagged (F15
and a frame like F16). -/
theorem witness_FailingArp :
    (∀ x ∈ ([(untaggedB.take 21, 14), (frameB.take 25, 18)] : List (List Byte × Nat)),
      bufferOk (loaded x.1 0).ibuf ∧ x.2 ≤ (loaded x.1 0).avail ∧ linkType (loaded x.1 0) x.2 0x0806 ∧
      (loaded x.1 0).avail < x.2 + 8) ∧
    (∀ x ∈ ([(untaggedB.take 41, 14), (frameB.take 45, 18)] : List (List Byte × Nat)),
      bufferOk (loaded x.1 0).ibuf ∧ x.2 ≤ (loaded x.1 0).avail ∧ linkType (loaded x.1 0) x.2 0x0806 ∧
      x.2 + 8 ≤ (loaded x.1 0).avail ∧ (loaded x.1 0).avail < x.2 + arpTotalAt (loaded x.1 0) x.2) := by
  unfold bufferOk linkType; decide

/-- FrameDecReportsTheFailingLayer, an IPv4 header a byte short and one of another version (F11): untagged and tagged. -/
theorem witness_FailingIpv4 :
    (∀ x ∈ ([(frameA.take 33, 14), (taggedA.take 37, 18)] : List (List Byte × Nat)),
      bufferOk (loaded x.1 0).ibuf ∧ x.2 ≤ (loaded x.1 0).avail ∧ linkType (loaded x.1 0) x.2 0x0800 ∧
      (loaded x.1 0).avail < x.2 + 20) ∧
    (∀ x ∈ ([(ipv6InA, 14), (taggedA.take 18 ++ [0x65] ++ taggedA.drop 19, 18)] : List (List Byte × Nat)),
      bufferOk (loaded x.1 0).ibuf ∧ linkType (loaded x.1 0) x.2 0x0800 ∧ x.2 + 20 ≤ (loaded x.1 0).avail ∧
      (ip4At (loaded x.1 0) x.2).ver ≠ 4) := by
  unfold bufferOk linkType; decide

/-- FrameDecReportsTheFailingLayer, a TCP and a UDP header a byte short: untagged and tagged. -/
theorem witness_FailingTransport :
    (∀ x ∈ ([(frameC.take 53, 14), (taggedC.take 57, 18)] : List (List Byte × Nat)),
      bufferOk (loaded x.1 0).ibuf ∧ linkType (loaded x.1 0) x.2 0x0800 ∧ x.2 + 20 ≤ (loaded x.1 0).avail ∧
      (loaded x.1 0).avail < x.2 + 40 ∧ (ip4At (loaded x.1 0) x.2).ver = 4 ∧ byteAt (loaded x.1 0) (x.2 + 9) = 6) ∧
    (∀ x ∈ ([(frameA.take 41, 14), (taggedA.take 45, 18)] : List (List Byte × Nat)),
      bufferOk (loaded x.1 0).ibuf ∧ linkType (loaded x.1 0) x.2 0x0800 ∧ x.2 + 20 ≤ (loaded x.1 0).avail ∧
      (loaded x.1 0).avail < x.2 + 28 ∧ (ip4At (loaded x.1 0) x.2).ver = 4 ∧ byteAt (loaded x.1 0) (x.2 + 9) = 17) := by
  unfold bufferOk linkType; decide

/-- FrameDecIsBounded. -/
theorem witness_Bounded : bufferOk (loaded frameB 0).ibuf := ⟨by decide, by decide⟩

/-- DecodesChangeOnlyTheirRecordCursorAndStatus: each decode answers a next state somewhere. -/
theorem witness_DecodeFrames :
    ∀ i ∈ Instr.frameDec :: decodeOps, (next? (exec i (loaded frameA 0))).isSome = true := by decide

/-- EncodesChangeOnlyObufAndStatus: each encode answers a next state, and one of them fails. -/
theorem witness_EncodeFrames :
    (∀ i ∈ encodeOps, (next? (exec i State.reset)).isSome = true) ∧
    (stat (exec .arpEnc (arpState { arpReqB with tpa := [] }))).map Status.err = some .addrLenMismatch := by decide

/-- OtherInstructionsChangeOnlyStatusOrPname: a classify operation, an illegal command and a name. -/
theorem witness_OtherFrames :
    (Instr.ethClass ∉ Instr.frameDec :: decodeOps ∧ Instr.ethClass ∉ encodeOps ∧ Instr.ethClass ≠ .protoName ∧
      Instr.ethClass.format ≠ .protoname ∧ (next? (exec .ethClass busy)).isSome = true) ∧
    (Instr.illegal 0x33 ∉ Instr.frameDec :: decodeOps ∧ Instr.illegal 0x33 ∉ encodeOps ∧
      (next? (exec (.illegal 0x33) busy)).isSome = true) ∧
    (Instr.protonameHex 3 ∉ Instr.frameDec :: decodeOps ∧ Instr.protonameHex 3 ∉ encodeOps ∧
      (next? (exec (.protonameHex 3) busy)).isSome = true) := by decide

/-- DecodesDependOnTheViewAlone: Frame B from its tag on, and the same bytes loaded alone. -/
theorem witness_ViewAlone :
    bufferOk (loaded frameB 14).ibuf ∧ bufferOk (loaded (frameB.drop 14) 0).ibuf ∧
    (loaded frameB 14).view = (loaded (frameB.drop 14) 0).view :=
  ⟨⟨by decide, by decide⟩, ⟨by decide, by decide⟩, by decide⟩

/-- EncodesAndClassifiesDependOnTheirOperandAlone: two states that agree on every record and on little else. -/
theorem witness_OperandAlone :
    ({ loaded frameA 7 with arp := arpReqB } : State).arp = (arpState arpReqB).arp ∧
    (loaded frameA 7).eth = State.reset.eth ∧ (loaded frameA 7).vlan = State.reset.vlan ∧
    (loaded frameA 7).ip4 = State.reset.ip4 ∧ (loaded frameA 7).tcp = State.reset.tcp ∧
    (loaded frameA 7).udp = State.reset.udp := by decide

/-- InstructionsRaiseOnlyTheirErrors and FailingOperationsChangeNothingElse: an operation that fails with each kind. -/
theorem witness_Failing :
    (Instr.ip4Dec ≠ .frameDec ∧
      (stat (exec .ip4Dec (loaded (0x65 :: ip4C.tail) 0))).map Status.err = some .unsupportedVersion) ∧
    (stat (exec .tcpDec (loaded ip4C 1))).map Status.err = some .tooShort ∧
    (stat (exec (.illegal 0x33) State.reset)).map Status.err = some .illegalOp := by decide

/-- DecodeIssuedTwiceGivesTheSame. -/
theorem witness_IssuedTwice :
    Instr.ethDec ∈ decodeOps ∧ (loaded frameA 0).ibuf.wf = true ∧ (next? (exec .ethDec (loaded frameA 0))).isSome = true := by
  decide

end Sys2Proof.Tests
end

/-! SUPPORT. The statements of 00_scope: byte order (R10), and each codec operation as its pure function wired to the
registers and buffers (R12). -/

namespace Sys2Proof.Machine

/-- Settles O14, from the laws of `be` and `bytesOf`: each of them is an induction over the bytes. -/
theorem bigEndianBytesAndValueAreInverse : Obligations.BigEndianBytesAndValueAreInverse :=
  ⟨rfl, fun _ _ => rfl, be_lt, fun n v h => ⟨bytesOf_length n v, be_of_bytesOf h⟩, bytesOf_of_be⟩

/-! ### Decodes -/

/-- The layer that wires the result of a pure parse to the record and the cursor: `put` writes the record parsed,
`reject` the record of a header whose version is not supported. -/
def parsedLayer {α : Type} (parsed : Except CodecError (α × Nat)) (put : α → State) (reject : Ip4Rec → State)
    (s : State) : LayerOut :=
  match parsed with
  | .ok (r, n) => .decoded { put r with cur := s.cur + BitVec.ofNat 16 n } (BitVec.ofNat 16 n)
  | .error (.tooShort e a) => .raised s .tooShort (BitVec.ofNat 16 e) (BitVec.ofNat 16 a)
  | .error (.unsupportedVersion r) => .raised (reject r) .unsupportedVersion 0 0
  | .error (.addrLenMismatch e a) => .raised s .addrLenMismatch (BitVec.ofNat 16 e) (BitVec.ofNat 16 a)

/-- A decode whose layer is such a layer is the wiring of 00_scope R12. -/
theorem singleDecode_eq_wireDecode {α : Type} {u : CodecUnit} {o : LayerOut} {parsed : Except CodecError (α × Nat)}
    {put : α → State} {reject : Ip4Rec → State} {s : State} (h : o = parsedLayer parsed put reject s) :
    singleDecode u o = wireDecode u parsed put reject s := by
  rw [h, singleDecode_eq]
  match parsed with
  | .ok _ => rfl
  | .error (.tooShort _ _) => rfl
  | .error (.unsupportedVersion _) => rfl
  | .error (.addrLenMismatch _ _) => rfl

section Layers

variable {s : State} (h : s.ibuf.wf = true)

include h

theorem layerEth_eq_parsedLayer :
    layerEth s = parsedLayer (ethParse s.view) (fun r => { s with eth := r }) (fun _ => s) s := by
  rw [layerEth_eq h, ethParse_view h]
  split_ifs <;> rfl

theorem layerVlan_eq_parsedLayer :
    layerVlan s = parsedLayer (vlanParse s.view) (fun r => { s with vlan := r }) (fun _ => s) s := by
  rw [layerVlan_eq h, vlanParse_view h]
  split_ifs <;> rfl

theorem layerArp_eq_parsedLayer :
    layerArp s = parsedLayer (arpParse s.view) (fun r => { s with arp := r }) (fun _ => s) s := by
  rw [layerArp_eq h, arpParse_view h]
  split_ifs <;> rfl

theorem layerIp4_eq_parsedLayer :
    layerIp4 s = parsedLayer (ip4Parse s.view) (fun r => { s with ip4 := r }) (fun r => { s with ip4 := r }) s := by
  rw [layerIp4_eq h, ip4Parse_view h]
  split_ifs <;> rfl

theorem layerTcp_eq_parsedLayer :
    layerTcp s = parsedLayer (tcpParse s.view) (fun r => { s with tcp := r }) (fun _ => s) s := by
  rw [layerTcp_eq h, tcpParse_view h]
  split_ifs <;> rfl

theorem layerUdp_eq_parsedLayer :
    layerUdp s = parsedLayer (udpParse s.view) (fun r => { s with udp := r }) (fun _ => s) s := by
  rw [layerUdp_eq h, udpParse_view h]
  split_ifs <;> rfl

end Layers

/-! ### Encodes -/

/-- The end of a successful encode wires its output, when the operation writes the output that is built and reports its
length. -/
theorem encoded_eq_wireEncode {u : CodecUnit} {out built : List Byte} {n : Half} (s : State) (ho : out = built)
    (hn : n = BitVec.ofNat 16 built.length) : encoded out n s = wireEncode u (.ok built) s := by
  rw [encoded_eq, ho, hn, wireEncode]

/-- A length check in front of a wired build is the check of the pure function, wired. -/
theorem checkAddr_eq_wireEncode {declared : Byte} {addr : List Byte} {s : State} {body : Result}
    {built : Except CodecError (List Byte)}
    (h : addr.length = declared.toNat → body = wireEncode .arp built s) :
    checkAddr declared addr s body = wireEncode .arp
      (if addr.length ≠ declared.toNat then .error (.addrLenMismatch declared.toNat addr.length) else built) s := by
  by_cases hl : addr.length = declared.toNat
  · rw [checkAddr, if_neg (not_not.mpr hl), if_neg (not_not.mpr hl), h hl]
  · rw [checkAddr, if_pos hl, if_pos hl, raiseError_eq, wireEncode, BitVec.ofNat_toNat]
    rfl

/-- ARP_ENC makes the checks of `arp_build` in the same order, and past all of them fills the output exactly (42_arp
R167, R168). -/
theorem execArpEnc_eq_wireEncode (s : State) : execArpEnc s = wireEncode .arp (arpBuild s.arp) s :=
  checkAddr_eq_wireEncode fun hsha => checkAddr_eq_wireEncode fun hspa =>
    checkAddr_eq_wireEncode fun htha => checkAddr_eq_wireEncode fun htpa =>
      encoded_eq_wireEncode s (arpOut_eq s.arp hsha hspa htha htpa) (by
        rw [arpTotal_ofNat]
        congr 1
        simp only [List.length_append, bytes1_length, bytes2_length, hsha, hspa, htha, htpa]
        omega)

/-- Settles O32: each decode is its layer run alone, and on a canonical buffer the layer is the wired parse of the view;
each encode fills its output with what the build function gives. -/
theorem operationsWireTheirPureFunctions : Obligations.OperationsWireTheirPureFunctions := fun s =>
  ⟨fun h =>
    ⟨singleDecode_eq_wireDecode (layerEth_eq_parsedLayer h), singleDecode_eq_wireDecode (layerVlan_eq_parsedLayer h),
      singleDecode_eq_wireDecode (layerArp_eq_parsedLayer h), singleDecode_eq_wireDecode (layerIp4_eq_parsedLayer h),
      singleDecode_eq_wireDecode (layerTcp_eq_parsedLayer h), singleDecode_eq_wireDecode (layerUdp_eq_parsedLayer h)⟩,
    encoded_eq_wireEncode s (ethOut_eq s.eth) (by simp),
    encoded_eq_wireEncode s (vlanOut_eq s.vlan) (by simp),
    execArpEnc_eq_wireEncode s,
    encoded_eq_wireEncode s (ip4Out_eq s.ip4) (by simp),
    encoded_eq_wireEncode s (tcpOut_eq s.tcp) (by simp),
    encoded_eq_wireEncode s (udpOut_eq s.udp) (by simp)⟩

end Sys2Proof.Machine

/-! SUPPORT. The instructions by their group, each said once: a decode runs its layer alone, an encode writes `OBUF` or
names the address that has the wrong length, and every other instruction reports a class, an error or a name. -/

namespace Sys2Proof.Machine

/-! ### What an instruction does, by its group -/

/-- A single-layer decode runs the layer of its unit. -/
theorem exec_of_mem_decodeOps {i : Instr} (hi : i ∈ decodeOps) :
    ∃ u, layerBit u ≠ 0 ∧ ∀ s, exec i s = singleDecode u (layerOf u s) := by
  simp only [decodeOps, List.mem_cons, List.not_mem_nil, or_false] at hi
  obtain rfl | rfl | rfl | rfl | rfl | rfl := hi
  · exact ⟨.eth, by decide, fun _ => rfl⟩
  · exact ⟨.vlan, by decide, fun _ => rfl⟩
  · exact ⟨.arp, by decide, fun _ => rfl⟩
  · exact ⟨.ip4, by decide, fun _ => rfl⟩
  · exact ⟨.tcp, by decide, fun _ => rfl⟩
  · exact ⟨.udp, by decide, fun _ => rfl⟩

theorem checkAddr_of_eq {declared : Byte} {addr : List Byte} {s : State} {body : Result}
    (h : addr.length = declared.toNat) : checkAddr declared addr s body = body := if_neg (not_not.mpr h)

theorem checkAddr_of_ne {declared : Byte} {addr : List Byte} {s : State} {body : Result}
    (h : addr.length ≠ declared.toNat) : checkAddr declared addr s body =
      raiseError .arp .addrLenMismatch (declared.setWidth 16) (BitVec.ofNat 16 addr.length) Walk.start s := if_pos h

/-- ARP_ENC fills at most 1028 bytes, or rejects one of the four addresses (42_arp R168). -/
theorem execArpEnc_cases (s : State) :
    (∃ out n, out.length ≤ 1028 ∧ execArpEnc s = encoded out n s) ∨
    (∃ (declared : Byte) (addr : List Byte), addr ∈ [s.arp.sha, s.arp.spa, s.arp.tha, s.arp.tpa] ∧
      addr.length ≠ declared.toNat ∧ execArpEnc s =
        raiseError .arp .addrLenMismatch (declared.setWidth 16) (BitVec.ofNat 16 addr.length) Walk.start s) := by
  unfold execArpEnc
  by_cases hsha : s.arp.sha.length = s.arp.hlen.toNat
  case neg => exact .inr ⟨_, _, by simp, hsha, checkAddr_of_ne hsha⟩
  rw [checkAddr_of_eq hsha]
  by_cases hspa : s.arp.spa.length = s.arp.plen.toNat
  case neg => exact .inr ⟨_, _, by simp, hspa, checkAddr_of_ne hspa⟩
  rw [checkAddr_of_eq hspa]
  by_cases htha : s.arp.tha.length = s.arp.hlen.toNat
  case neg => exact .inr ⟨_, _, by simp, htha, checkAddr_of_ne htha⟩
  rw [checkAddr_of_eq htha]
  by_cases htpa : s.arp.tpa.length = s.arp.plen.toNat
  case neg => exact .inr ⟨_, _, by simp, htpa, checkAddr_of_ne htpa⟩
  rw [checkAddr_of_eq htpa]
  refine .inl ⟨_, _, ?_, rfl⟩
  have hh := s.arp.hlen.isLt
  have hp := s.arp.plen.isLt
  simp only [arpOut_eq s.arp hsha hspa htha htpa, List.length_append, bytes1_length, bytes2_length, hsha, hspa, htha,
    htpa]
  omega

/-- An encode replaces `OBUF` by at most 1028 bytes, or rejects the length of an ARP address. -/
theorem exec_encode_cases {i : Instr} (hi : i ∈ encodeOps) (s : State) :
    (∃ out n, out.length ≤ 1028 ∧ exec i s = encoded out n s) ∨
    (∃ (declared : Byte) (addr : List Byte), addr ∈ [s.arp.sha, s.arp.spa, s.arp.tha, s.arp.tpa] ∧
      addr.length ≠ declared.toNat ∧ exec i s =
        raiseError .arp .addrLenMismatch (declared.setWidth 16) (BitVec.ofNat 16 addr.length) Walk.start s) := by
  simp only [encodeOps, List.mem_cons, List.not_mem_nil, or_false] at hi
  obtain rfl | rfl | rfl | rfl | rfl | rfl := hi
  · exact .inl ⟨_, _, by simp [ethOut_eq], rfl⟩
  · exact .inl ⟨_, _, by simp [vlanOut_eq], rfl⟩
  · exact execArpEnc_cases s
  · exact .inl ⟨_, _, by simp [ip4Out_eq], rfl⟩
  · exact .inl ⟨_, _, by simp [tcpOut_eq], rfl⟩
  · exact .inl ⟨_, _, by simp [udpOut_eq], rfl⟩

/-- Every name has 2 to 4 characters (45_protocol_name R240, R242). -/
theorem protoName_length (cfg : Config) (p : Byte) :
    2 ≤ (protoName cfg p).length ∧ (protoName cfg p).length ≤ 4 := by
  unfold protoName
  repeat' refine iteInduction (motive := fun l : List Byte => 2 ≤ l.length ∧ l.length ≤ 4) (fun _ => ?_) fun _ => ?_
  all_goals exact ⟨Nat.le_of_ble_eq_true rfl, Nat.le_of_ble_eq_true rfl⟩

/-- An instruction that is no decode and no encode reports a class, the illegal command, or a name. -/
theorem exec_other_cases {i : Instr} (hd : i ∉ Instr.frameDec :: decodeOps) (he : i ∉ encodeOps) (s : State) :
    (∃ c : FrameClass × Half, c.1 ≠ .noClass ∧ exec i s = finish (Walk.start.classified c) s) ∨
    exec i s = raiseError .frame .illegalOp 0 0 Walk.start s ∨
    ((i = .protoName ∨ i.format = .protoname) ∧
      ∃ name : List Byte, (2 ≤ name.length ∧ name.length ≤ 4) ∧ exec i s = named name s) := by
  cases i
  case frameDec | ethDec | vlanDec | arpDec | ip4Dec | tcpDec | udpDec => exact absurd (by decide) hd
  case ethEnc | vlanEnc | arpEnc | ip4Enc | tcpEnc | udpEnc => exact absurd (by decide) he
  case ethClass => exact .inl ⟨_, classifyEthertype_ne s.eth.type, rfl⟩
  case vlanClass => exact .inl ⟨_, classifyEthertype_ne s.vlan.type, rfl⟩
  case arpClass =>
    refine .inl ⟨classifyArpPtype s.arp, ?_, rfl⟩
    unfold classifyArpPtype
    split_ifs <;> simp
  case ip4Class => exact .inl ⟨_, classifyProto_ne Config.current s.ip4.proto, rfl⟩
  case ethertypeVlan | ethertypeArp | ethertypeIpv4 | ethertypeIpv6 | ethertypeOther | arpPtypeIpv4 | arpPtypeOther
      | ipprotoTcp | ipprotoUdp | ipprotoOther =>
    exact .inl ⟨(_, _), by simp, rfl⟩
  case illegal => exact .inr (.inl rfl)
  case protoName => exact .inr (.inr ⟨.inl rfl, _, protoName_length Config.current s.ip4.proto, rfl⟩)
  case protonameIcmp | protonameIgmp | protonameIpip | protonameTcp | protonameUdp | protonameEsp | protonameAh
      | protonameOspf | protonamePim | protonameVrrp | protonameIsis =>
    exact .inr (.inr ⟨.inr rfl, _, by decide, rfl⟩)
  case protonameHex p => exact .inr (.inr ⟨.inr rfl, hex2 p, by simp [hex2], rfl⟩)

end Sys2Proof.Machine

/-! SUPPORT. Frames: which registers and buffers an instruction can change, and that none reads `STATUS`. -/

namespace Sys2Proof.Machine

/-! ### What a decode changes -/

/-- The state a layer leaves, if it does not stop the machine. -/
def LayerOut.state? : LayerOut → Option State
  | .decoded s _ => some s
  | .raised s _ _ _ => some s
  | .stopped _ => none

/-- `t` with everything that a decode of unit `u` can write taken back to `s`: the record of `u`, `CUR` and `STATUS`. -/
def undoDecode (u : CodecUnit) (s t : State) : State :=
  match u with
  | .eth => { t with eth := s.eth, cur := s.cur, status := s.status }
  | .vlan => { t with vlan := s.vlan, cur := s.cur, status := s.status }
  | .arp => { t with arp := s.arp, cur := s.cur, status := s.status }
  | .ip4 => { t with ip4 := s.ip4, cur := s.cur, status := s.status }
  | .tcp => { t with tcp := s.tcp, cur := s.cur, status := s.status }
  | .udp => { t with udp := s.udp, cur := s.cur, status := s.status }
  | .frame => { t with cur := s.cur, status := s.status }
  | .pname => { t with cur := s.cur, status := s.status }

/-- A layer changes its own record and the cursor alone (10_state R29). -/
theorem layerOf_frame {u : CodecUnit} {s t : State} (h : (layerOf u s).state? = some t) : undoDecode u s t = s := by
  cases u <;> simp only [layerOf] at h
  case frame | pname => cases h
  case eth => obtain ⟨_, e⟩ | ⟨_, _, e⟩ | e := layerEth_cases s <;> rw [e] at h <;> cases h <;> rfl
  case vlan => obtain ⟨_, e⟩ | ⟨_, _, e⟩ | e := layerVlan_cases s <;> rw [e] at h <;> cases h <;> rfl
  case arp =>
    obtain ⟨_, e⟩ | ⟨_, _, _, _, e⟩ | ⟨_, _, _, _, _, _, _, _, _, e⟩ | e := layerArp_cases s <;> rw [e] at h <;>
      cases h <;> rfl
  case ip4 =>
    obtain ⟨_, e⟩ | ⟨_, _, _, e⟩ | ⟨_, _, _, e⟩ | e := layerIp4_cases s <;> rw [e] at h <;> cases h <;> rfl
  case tcp => obtain ⟨_, e⟩ | ⟨_, _, e⟩ | e := layerTcp_cases s <;> rw [e] at h <;> cases h <;> rfl
  case udp => obtain ⟨_, e⟩ | ⟨_, _, e⟩ | e := layerUdp_cases s <;> rw [e] at h <;> cases h <;> rfl

theorem undoDecode_status (u : CodecUnit) (s t : State) (st : Status) :
    undoDecode u s { t with status := st } = undoDecode u s t := by
  cases u <;> rfl

/-- A single-layer decode leaves the state its layer leaves, with a status of its own. -/
theorem singleDecode_next {u : CodecUnit} {o : LayerOut} {t : State} (h : singleDecode u o = .next t) :
    ∃ s' st, o.state? = some s' ∧ t = { s' with status := st } := by
  rw [singleDecode_eq] at h
  cases o <;> cases h <;> exact ⟨_, _, rfl, rfl⟩

/-- A single-layer decode changes only its record, `CUR` and `STATUS`. -/
theorem singleDecode_frame {u : CodecUnit} {s t : State} (h : singleDecode u (layerOf u s) = .next t) :
    undoDecode u s t = s := by
  obtain ⟨s', st, hs, rfl⟩ := singleDecode_next h
  rw [undoDecode_status, layerOf_frame hs]

/-- `t` with everything that a chained decode can write taken back to `s`: the six records, `CUR` and `STATUS`. -/
def undoDecodes (s t : State) : State :=
  { t with eth := s.eth, vlan := s.vlan, arp := s.arp, ip4 := s.ip4, tcp := s.tcp, udp := s.udp, cur := s.cur
           status := s.status }

theorem undoDecodes_of_undoDecode {u : CodecUnit} {s t : State} (h : undoDecode u s t = s) (s₀ : State) :
    undoDecodes s₀ t = undoDecodes s₀ s := by
  rw [← h]
  cases u <;> rfl

theorem undoDecodes_self (s : State) : undoDecodes s s = s := rfl

/-- FRAME_DEC changes only the six records, `CUR` and `STATUS`. -/
theorem frameDecAt_frame {cfg : Config} {s t : State} (h : frameDecAt cfg s = .next t) : undoDecodes s t = s := by
  refine frameDec_rule (P := fun _ r => undoDecodes s r = s) (Q := fun r => undoDecodes s r = s) ?_ ?_ ?_ ?_
    (undoDecodes_self s) h
  · intro u w r r' n hr ho
    rw [undoDecodes_of_undoDecode (layerOf_frame (by rw [ho]; rfl)), hr]
  · exact fun _ _ _ _ hr => hr
  · exact fun _ _ hr => hr
  · intro u w r r' e x a hr ho
    exact (undoDecodes_of_undoDecode (layerOf_frame (t := r') (by rw [ho]; rfl)) s).trans hr

/-- A decode writes to neither buffer, nor to `PNAME` (20_memory R76). -/
theorem exec_decode_frame {i : Instr} (hi : i ∈ Instr.frameDec :: decodeOps) {s t : State} (h : exec i s = .next t) :
    undoDecodes s t = s := by
  obtain rfl | hi := List.mem_cons.mp hi
  · exact frameDecAt_frame h
  · obtain ⟨u, -, e⟩ := exec_of_mem_decodeOps hi
    rw [undoDecodes_of_undoDecode (singleDecode_frame (e s ▸ h)), undoDecodes_self]

/-- Settles O51: each layer changes its record and the cursor, and FRAME_DEC is a chain of layers. -/
theorem decodesChangeOnlyTheirRecordCursorAndStatus : Obligations.DecodesChangeOnlyTheirRecordCursorAndStatus := by
  intro s t
  refine ⟨singleDecode_frame (u := .eth), singleDecode_frame (u := .vlan), singleDecode_frame (u := .arp),
    singleDecode_frame (u := .ip4), singleDecode_frame (u := .tcp), singleDecode_frame (u := .udp),
    frameDecAt_frame, ?_⟩
  intro i hi h a
  have hf := exec_decode_frame hi h
  have hibuf : t.ibuf = s.ibuf := (congrArg State.ibuf hf :)
  have hobuf : t.obuf = s.obuf := (congrArg State.obuf hf :)
  rw [hibuf, hobuf]
  exact ⟨rfl, rfl⟩

/-! ### What the other instructions change -/

/-- Settles O53: an instruction that is no decode and no encode reports a class or an error, which writes `STATUS`, or a
name, which writes `PNAME` too. -/
theorem otherInstructionsChangeOnlyStatusOrPname : Obligations.OtherInstructionsChangeOnlyStatusOrPname := by
  intro i s t hd he h
  obtain ⟨c, -, e⟩ | e | ⟨hi, name, -, e⟩ := exec_other_cases hd he s <;> rw [e] at h
  · rw [finish_next h]
    exact ⟨rfl, fun _ _ => rfl, fun _ => ⟨rfl, rfl⟩⟩
  · rw [raiseError_next h]
    exact ⟨rfl, fun _ _ => rfl, fun _ => ⟨rfl, rfl⟩⟩
  · rw [named_next h]
    exact ⟨rfl, fun hp hf => absurd hi (not_or.mpr ⟨hp, hf⟩), fun _ => ⟨rfl, rfl⟩⟩

/-! ### No instruction reads `STATUS` -/

theorem layerOf_writeStatus (u : CodecUnit) (s : State) (st : Status) :
    layerOf u (s.writeStatus st) = (layerOf u s).withStatus st := by
  cases u
  case eth => exact layerEth_writeStatus s st
  case vlan => exact layerVlan_writeStatus s st
  case arp => exact layerArp_writeStatus s st
  case ip4 => exact layerIp4_writeStatus s st
  case tcp => exact layerTcp_writeStatus s st
  case udp => exact layerUdp_writeStatus s st
  case frame | pname => rfl

/-- `k` goes on the same way whatever `STATUS` holds. -/
def IgnoresStatus (k : State → Result) : Prop := ∀ s st, k (s.writeStatus st) = k s

theorem finish_ignoresStatus (w : Walk) : IgnoresStatus (finish w) := fun _ _ => rfl

/-- A layer and what follows it ignore `STATUS`, since an error overwrites it whole (10_state R41). -/
theorem andThen_ignoresStatus (u : CodecUnit) (w : Walk) {k : Walk → State → Result} (hk : ∀ w, IgnoresStatus (k w)) :
    IgnoresStatus fun s => andThen u w (layerOf u s) k := by
  intro s st
  simp only [layerOf_writeStatus]
  cases layerOf u s with
  | decoded s' n => exact hk _ s' st
  | raised s' e x a => rfl
  | stopped f => rfl

theorem frameTransport_ignoresStatus (w : Walk) : IgnoresStatus (frameTransport w) := by
  unfold frameTransport
  intro s st
  split
  · exact andThen_ignoresStatus .tcp w finish_ignoresStatus s st
  · exact andThen_ignoresStatus .udp w finish_ignoresStatus s st
  · rfl

theorem frameNetwork_ignoresStatus (cfg : Config) (w : Walk) : IgnoresStatus (frameNetwork cfg w) := by
  unfold frameNetwork
  intro s st
  split
  · exact andThen_ignoresStatus .arp w finish_ignoresStatus s st
  · refine andThen_ignoresStatus .ip4 w ?_ s st
    exact fun _ _ _ => frameTransport_ignoresStatus _ _ _
  · rfl

theorem frameTagged_ignoresStatus (cfg : Config) (w : Walk) : IgnoresStatus (frameTagged cfg w) := by
  unfold frameTagged
  intro s st
  split
  · rfl
  · exact frameNetwork_ignoresStatus cfg w s st

theorem frameLink_ignoresStatus (cfg : Config) (w : Walk) : IgnoresStatus (frameLink cfg w) := by
  unfold frameLink
  intro s st
  split
  · refine andThen_ignoresStatus .vlan w ?_ s st
    exact fun _ _ _ => frameTagged_ignoresStatus cfg _ _ _
  · exact frameNetwork_ignoresStatus cfg w s st

theorem frameDecAt_ignoresStatus (cfg : Config) : IgnoresStatus (frameDecAt cfg) :=
  andThen_ignoresStatus .eth Walk.start fun _ _ _ => frameLink_ignoresStatus cfg _ _ _

/-- Settles O54: a decode chains layers that ignore `STATUS`, and every other instruction reads other registers. -/
theorem noInstructionReadsStatus : Obligations.NoInstructionReadsStatus := by
  intro i s st
  by_cases hd : i ∈ decodeOps
  · obtain ⟨u, -, e⟩ := exec_of_mem_decodeOps hd
    rw [e, e]
    exact andThen_ignoresStatus u Walk.start finish_ignoresStatus s st
  cases i
  case frameDec => exact frameDecAt_ignoresStatus Config.current s st
  case ethDec | vlanDec | arpDec | ip4Dec | tcpDec | udpDec => exact absurd (by decide) hd
  case arpEnc =>
    show execArpEnc _ = execArpEnc _
    rw [execArpEnc_eq_wireEncode, execArpEnc_eq_wireEncode]
    cases arpBuild s.arp with
    | ok out => rfl
    | error e => cases e <;> rfl
  all_goals rfl

/-! ### What an encode, a classify operation and PROTO_NAME depend on -/

theorem encoded_alike {out out' : List Byte} {n n' : Half} {s s' t t' : State} (ho : out = out') (hn : n = n')
    (h : encoded out n s = .next t) (h' : encoded out' n' s' = .next t') : t.obuf = t'.obuf ∧ t.status = t'.status := by
  rw [encoded_next h, encoded_next h', ho, hn]
  exact ⟨rfl, rfl⟩

theorem finish_alike {w w' : Walk} {s s' t t' : State} (hw : w = w') (h : finish w s = .next t)
    (h' : finish w' s' = .next t') : t.status = t'.status := by
  rw [finish_next h, finish_next h', hw]

theorem named_alike {name name' : List Byte} {s s' t t' : State} (hn : name = name') (h : named name s = .next t)
    (h' : named name' s' = .next t') : t.status = t'.status ∧ t.pname = t'.pname := by
  rw [named_next h, named_next h', hn]
  exact ⟨rfl, rfl⟩

theorem wireEncode_alike {u : CodecUnit} {built built' : Except CodecError (List Byte)} {s s' t t' : State}
    (hb : built = built') (h : wireEncode u built s = .next t) (h' : wireEncode u built' s' = .next t') :
    t.status = t'.status ∧ (t.status.err = .none → t.obuf = t'.obuf) := by
  subst hb
  cases built with
  | ok out => cases h; cases h'; exact ⟨rfl, fun _ => rfl⟩
  | error e => cases e <;> cases h <;> cases h' <;> exact ⟨rfl, nofun⟩

/-- Settles O56: the output and the status of an encode are those of its record, a class and a name those of one
register. -/
theorem encodesAndClassifiesDependOnTheirOperandAlone : Obligations.EncodesAndClassifiesDependOnTheirOperandAlone := by
  intro s s' t t'
  refine ⟨fun e => encoded_alike (congrArg ethOut e) rfl, fun e => encoded_alike (congrArg vlanOut e) rfl, ?_,
    fun e => encoded_alike (congrArg ip4Out e) rfl, fun e => encoded_alike (congrArg tcpOut e) rfl,
    fun e => encoded_alike (congrArg udpOut e) rfl,
    fun e => finish_alike (congrArg (fun x => Walk.start.classified (classifyEthertype x)) e),
    fun e => finish_alike (congrArg (fun x => Walk.start.classified (classifyEthertype x)) e), ?_,
    fun e => finish_alike (congrArg (fun x => Walk.start.classified (classifyProto Config.current x)) e),
    fun e => named_alike (congrArg (protoName Config.current) e)⟩
  · intro e h h'
    exact wireEncode_alike (congrArg arpBuild e) ((execArpEnc_eq_wireEncode s).symm.trans h)
      ((execArpEnc_eq_wireEncode s').symm.trans h')
  · intro e
    exact finish_alike (by rw [classifyArpPtype, classifyArpPtype, arpIsIpv4, arpIsIpv4, e])

end Sys2Proof.Machine

/-! SUPPORT. The host port: what each input does in a step, what a GET shows, what RESET leaves and what a SET
writes. -/

namespace Sys2Proof.Machine

/-! ### The step, by the input it takes -/

section Step

variable {s : State} {rest : List Input}

theorem takeInput_eq {i : Input} (h : s.inbox = i :: rest) : s.takeInput = { s with inbox := rest } := by
  rw [State.takeInput, h]
  rfl

theorem step_idle (h : s.inbox = []) : step s = .next s := by rw [step, h]

theorem step_cmd {c : Byte} (h : s.inbox = .cmd c :: rest) :
    step s = exec (decodeCmd c) { s with inbox := rest } := by rw [← takeInput_eq h, step, h]

theorem step_load {l : List Byte} (h : s.inbox = .load l :: rest) :
    step s = hostLoad Config.current l { s with inbox := rest } := by rw [← takeInput_eq h, step, h]

theorem step_set {r : Reg} {v : Value} (h : s.inbox = .set r v :: rest) :
    step s = hostSet r v { s with inbox := rest } := by rw [← takeInput_eq h, step, h]

theorem step_get {r : Reg} (h : s.inbox = .get r :: rest) : step s = .next { s with inbox := rest } := by
  rw [← takeInput_eq h, step, h]
  rfl

theorem step_reset (h : s.inbox = .reset :: rest) : step s = .next { State.reset with inbox := rest } := by
  rw [step, h, takeInput_eq h, hostReset]

end Step

/-! ### What a GET shows -/

/-- Settles O60: each read-only register is the code or the number of its field, and the codes are those of the
tables. -/
theorem readOnlyRegistersReadAsTheTablesSay : Obligations.ReadOnlyRegistersReadAsTheTablesSay := by
  intro cfg s
  have errCodes : ∀ x ∈ ([(.none, 0), (.tooShort, 1), (.unsupportedVersion, 2), (.malformedLength, 3),
      (.addrLenMismatch, 4), (.illegalOp, 5)] : List (ErrKind × Nat)), x.1.code.toNat = x.2 := by decide
  have unitCodes : ∀ x ∈ ([(.frame, 0), (.eth, 1), (.vlan, 2), (.arp, 3), (.ip4, 4), (.tcp, 5), (.udp, 6),
      (.pname, 7)] : List (CodecUnit × Nat)), x.1.code = x.2 := by decide
  have classCodes : ∀ x ∈ ([(.noClass, 0), (.vlan, 1), (.arp, 2), (.ipv4, 3), (.unknownEther, 4), (.tcp, 5),
      (.udp, 6), (.otherProto, 7)] : List (FrameClass × Nat)), x.1.code.toNat = x.2 := by decide
  have layerBits : ∀ x ∈ ([(.eth, 1), (.vlan, 2), (.arp, 4), (.ip4, 8), (.tcp, 16), (.udp, 32)] :
      List (CodecUnit × Nat)), (layerBit x.1).toNat = x.2 := by decide
  exact ⟨fun x hx => congrArg Value.int (errCodes x hx), fun x hx => congrArg Value.int (unitCodes x hx),
    fun x hx => congrArg Value.int (classCodes x hx), fun x hx => congrArg Value.int (layerBits x hx),
    rfl, rfl, rfl, rfl, rfl, rfl, rfl, rfl, congrArg Value.int (len_eq_bytes_length s.ibuf), rfl,
    congrArg Value.int (len_eq_bytes_length s.obuf), rfl, rfl, rfl⟩

/-- Settles O12: the 16-bit total is the exact one (30_encoding R111), and the view is no register the host may
write. -/
theorem arpLenIsAViewThatNeverWraps : Obligations.ArpLenIsAViewThatNeverWraps := by
  intro s
  have total := arpTotal_toNat s.arp.hlen s.arp.plen
  have bound := arpTotal_le s.arp.hlen s.arp.plen
  refine ⟨congrArg Value.int total, Nat.le_add_right _ _, total ▸ bound, fun v rest h => ?_⟩
  rw [step_set h]
  rfl

/-! ### RESET -/

/-- A constant reads the same in every state (10_state R37). -/
theorem readReg_constant (cfg : Config) (s t : State) :
    ∀ r ∈ ([.kZeroMac, .kBcastMac, .kDefaultMac] : List Reg), readReg cfg r s = readReg cfg r t := by
  simp [readReg]

/-- Settles O7: RESET leaves the reset state, and the constants are no state. -/
theorem resetLeavesTheTableOfValues : Obligations.ResetLeavesTheTableOfValues := by
  intro s rest h
  refine ⟨_, step_reset h, ?_⟩
  and_intros
  any_goals rfl
  exact readReg_constant _ _ _

/-! ### SET -/

theorem setInt_eq_some {w : Nat} {v : Value} {k : BitVec w → State} {t : State} :
    setInt w v k = some t ↔ ∃ x, v = intOf x ∧ k x = t := by
  constructor
  · intro h
    cases v with
    | bytes l => cases h
    | int n =>
      simp only [setInt, Option.ite_none_right_eq_some, Option.some.injEq] at h
      obtain ⟨hn, rfl⟩ := h
      exact ⟨BitVec.ofNat w n, by rw [intOf, BitVec.toNat_ofNat, Nat.mod_eq_of_lt hn], rfl⟩
  · rintro ⟨x, rfl, rfl⟩
    simp [setInt, intOf, x.isLt]

theorem bytes6?_eq_some {l : List Byte} {x : Bytes6} : bytes6? l = some x ↔ l = x.toList := by
  constructor
  · unfold bytes6?
    split
    · rintro ⟨⟩
      rfl
    · nofun
  · rintro rfl
    exact bytes6?_toList x

theorem bytes4?_eq_some {l : List Byte} {x : Bytes4} : bytes4? l = some x ↔ l = x.toList := by
  constructor
  · unfold bytes4?
    split
    · rintro ⟨⟩
      rfl
    · nofun
  · rintro rfl
    exact bytes4?_toList x

theorem setMac_eq_some {v : Value} {k : Bytes6 → State} {t : State} :
    setMac v k = some t ↔ ∃ x : Bytes6, v = .bytes x.toList ∧ k x = t := by
  cases v <;> simp [setMac, bytes6?_eq_some]

theorem setIp_eq_some {v : Value} {k : Bytes4 → State} {t : State} :
    setIp v k = some t ↔ ∃ x : Bytes4, v = .bytes x.toList ∧ k x = t := by
  cases v <;> simp [setIp, bytes4?_eq_some]

theorem setAddr_eq_some {v : Value} {k : List Byte → State} {t : State} :
    setAddr v k = some t ↔ ∃ l : List Byte, l.length ≤ 255 ∧ v = .bytes l ∧ k l = t := by
  cases v <;> simp [setAddr]

/-- What a SET that is taken does to the state: its register reads as the value and every other register as before, save
the view `ARP.LEN` of two of them; the ARP addresses stay as short as they must be, and what no SET can write stays. -/
structure Written (r : Reg) (v : Value) (s t : State) : Prop where
  reads : ∀ cfg, readReg cfg r t = v
  others : ∀ cfg r', r' ≠ r → r' ≠ .arpLen → readReg cfg r' t = readReg cfg r' s
  arp : arpOk s.arp → arpOk t.arp
  ibuf : t.ibuf = s.ibuf
  obuf : t.obuf = s.obuf
  status : t.status = s.status
  pname : t.pname = s.pname
  inbox : t.inbox = s.inbox

/-- Each register the host may write is one field of the state, and no field is part of two registers (10_state R29). -/
theorem writeReg_written {r : Reg} {v : Value} {s t : State} (h : writeReg r v s = some t) : Written r v s t := by
  cases r
  case arpLen | ibuf | ibufLen | obuf | obufLen | statusErr | statusUnit | statusExp | statusAct | statusNbytes
      | statusLayers | statusClass | statusRaw | pnameLen | pnameCh | kZeroMac | kBcastMac | kDefaultMac => cases h
  case arpSha | arpSpa | arpTha | arpTpa =>
    obtain ⟨l, hl, rfl, rfl⟩ := setAddr_eq_some.mp h
    refine ⟨fun _ => rfl, fun cfg r' hr ha => ?_, fun ⟨h1, h2, h3, h4⟩ => ⟨?_, ?_, ?_, ?_⟩, rfl, rfl, rfl, rfl, rfl⟩
    case refine_1 => cases r' <;> first | contradiction | rfl
    all_goals assumption
  all_goals
    simp only [writeReg, setInt_eq_some, setMac_eq_some, setIp_eq_some] at h
    obtain ⟨x, rfl, rfl⟩ := h
    refine ⟨fun _ => rfl, fun cfg r' hr ha => ?_, id, rfl, rfl, rfl, rfl, rfl⟩
    cases r' <;> first | contradiction | rfl

/-- A SET that answers a next state has written its register. -/
theorem hostSet_written {r : Reg} {v : Value} {s t : State} (h : hostSet r v s = .next t) : Written r v s t := by
  unfold hostSet at h
  split at h
  case h_1 hw =>
    cases h
    exact writeReg_written hw
  case h_2 => split at h <;> cases h

/-- No register shows the waiting inputs. -/
theorem readReg_withInbox (cfg : Config) (r : Reg) (s : State) (rest : List Input) :
    readReg cfg r { s with inbox := rest } = readReg cfg r s := by
  cases r <;> rfl

/-- Settles O10: a SET writes its register, and what a GET of another one shows is another field. -/
theorem setWritesItsRegisterAndNoOther : Obligations.SetWritesItsRegisterAndNoOther := by
  intro s t r v rest h ht
  have w := hostSet_written (step_set h ▸ ht)
  exact ⟨w.reads _, w.inbox, fun r' hr ha => (w.others _ r' hr ha).trans (readReg_withInbox _ r' s rest)⟩

/-! ### What fits a register -/

theorem bytes6?_isSome (l : List Byte) : (bytes6? l).isSome = decide (6 ≤ l.length ∧ l.length ≤ 6) := by
  match l with
  | [] | [_] | [_, _] | [_, _, _] | [_, _, _, _] | [_, _, _, _, _] | [_, _, _, _, _, _] => rfl
  | _ :: _ :: _ :: _ :: _ :: _ :: _ :: _ => simp [bytes6?]

theorem bytes4?_isSome (l : List Byte) : (bytes4? l).isSome = decide (4 ≤ l.length ∧ l.length ≤ 4) := by
  match l with
  | [] | [_] | [_, _] | [_, _, _] | [_, _, _, _] => rfl
  | _ :: _ :: _ :: _ :: _ :: _ => simp [bytes4?]

section Fits

variable {r : Reg} (v : Value)

theorem setInt_isSome {w : Nat} (k : BitVec w → State) (hw : intWidth r = some w) (hs : seqLength r = none) :
    (setInt w v k).isSome = fits r v := by
  cases v with
  | int n => by_cases hn : n < 2 ^ w <;> simp [setInt, fits, hw, hn]
  | bytes l => simp [setInt, fits, hs]

theorem setMac_isSome (k : Bytes6 → State) (hw : intWidth r = none) (hs : seqLength r = some (6, 6)) :
    (setMac v k).isSome = fits r v := by
  cases v with
  | int n => simp [setMac, fits, hw]
  | bytes l => simp [setMac, fits, hs, bytes6?_isSome]

theorem setIp_isSome (k : Bytes4 → State) (hw : intWidth r = none) (hs : seqLength r = some (4, 4)) :
    (setIp v k).isSome = fits r v := by
  cases v with
  | int n => simp [setIp, fits, hw]
  | bytes l => simp [setIp, fits, hs, bytes4?_isSome]

theorem setAddr_isSome (k : List Byte → State) (hw : intWidth r = none) (hs : seqLength r = some (0, 255)) :
    (setAddr v k).isSome = fits r v := by
  cases v with
  | int n => simp [setAddr, fits, hw]
  | bytes l => by_cases hl : l.length ≤ 255 <;> simp [setAddr, fits, hs, hl]

end Fits

theorem fits_of_not_writable {r : Reg} (h : writable r = false) (v : Value) : fits r v = false := by
  cases r
  case arpLen | ibuf | ibufLen | obuf | obufLen | statusErr | statusUnit | statusExp | statusAct | statusNbytes
      | statusLayers | statusClass | statusRaw | pnameLen | pnameCh | kZeroMac | kBcastMac | kDefaultMac =>
    cases v <;> rfl
  all_goals cases h

/-- A SET is taken exactly when the value has the width that the tables give the register (10_state R22 to R30). -/
theorem writeReg_isSome (r : Reg) (v : Value) (s : State) : (writeReg r v s).isSome = fits r v := by
  cases r
  case arpLen | ibuf | ibufLen | obuf | obufLen | statusErr | statusUnit | statusExp | statusAct | statusNbytes
      | statusLayers | statusClass | statusRaw | pnameLen | pnameCh | kZeroMac | kBcastMac | kDefaultMac =>
    exact (fits_of_not_writable rfl v).symm
  case ethDst | ethSrc => exact setMac_isSome v _ rfl rfl
  case ip4Src | ip4Dst => exact setIp_isSome v _ rfl rfl
  case arpSha | arpSpa | arpTha | arpTpa => exact setAddr_isSome v _ rfl rfl
  all_goals
    unfold writeReg
    exact setInt_isSome v _ rfl rfl

theorem hostSet_of_fits {r : Reg} {v : Value} (h : fits r v = true) (s : State) : ∃ t, hostSet r v s = .next t := by
  rw [← writeReg_isSome r v s] at h
  obtain ⟨t, ht⟩ := Option.isSome_iff_exists.mp h
  exact ⟨t, by rw [hostSet, ht]⟩

theorem hostSet_of_not_fits {r : Reg} {v : Value} (h : fits r v = false) (s : State) :
    hostSet r v s = if writable r then .refused .setDoesNotFit else .refused .setReadOnly := by
  rw [← writeReg_isSome r v s, Option.isSome_eq_false_iff, Option.isNone_iff_eq_none] at h
  rw [hostSet, h]

/-- Settles O9: a SET is taken exactly when the value fits, and no value fits a register the host cannot write. -/
theorem setTakesExactlyTheValuesThatFit : Obligations.SetTakesExactlyTheValuesThatFit := by
  intro s r v rest h
  rw [step_set h]
  refine ⟨fun _ hf => hostSet_of_fits hf _, fun hw hf => ?_, fun hw => ?_⟩
  · rw [hostSet_of_not_fits hf, if_pos hw]
  · rw [hostSet_of_not_fits (fits_of_not_writable hw v), hw]
    rfl

end Sys2Proof.Machine

/-! SUPPORT. The invariant: every end of an operation leaves a legal `STATUS`, every write of a buffer or of `PNAME`
a legal one, so every instruction and every host action keeps it. -/

namespace Sys2Proof.Machine

/-! ### The parts of the invariant -/

theorem bufferOk_ofBytes {l : List Byte} (h : l.length ≤ Config.current.bufCap) : bufferOk (Memory.ofBytes l) :=
  ⟨ofBytes_wf l, (ofBytes_len l).trans_le h⟩

/-- A name is written with zeros behind it (45_protocol_name R241). -/
theorem pnameOf_ch {name : List Byte} (h : name.length ≤ 4) :
    (pnameOf name).ch.toList = name ++ List.replicate (4 - name.length) 0 := by
  match name with
  | [] | [_] | [_, _] | [_, _, _] | [_, _, _, _] => rfl
  | _ :: _ :: _ :: _ :: _ :: _ =>
    simp only [List.length_cons] at h
    omega

theorem pnameOk_pnameOf {name : List Byte} (h : 2 ≤ name.length ∧ name.length ≤ 4) : pnameOk (pnameOf name) := by
  obtain ⟨h2, h4⟩ := h
  constructor
  · have : name.length = 2 ∨ name.length = 3 ∨ name.length = 4 := by omega
    obtain e | e | e := this <;> simp [pnameOf, e]
  · intro i hi
    have hlen : (pnameOf name).len.toNat = name.length := by
      rw [pnameOf, BitVec.toNat_ofNat]
      omega
    rw [pnameOf_ch h4, List.getD_append_right _ _ _ _ (hlen ▸ hi)]
    exact List.getElem?_getD_replicate_default_eq 0 _ _

/-- A success is a legal status, when it has a raw value only with a class. -/
theorem statusOkay_okStatus (n : Half) (l : BitVec 6) {c : FrameClass} {raw : Half} (h : c = .noClass → raw = 0) :
    statusOkay (okStatus n l c raw) where
  success _ := ⟨rfl, rfl, rfl⟩
  tooShort := nofun
  version := nofun
  malformed := nofun
  addrLen := nofun
  illegal := nofun
  rawOfNoClass := h

/-- A read of the view that is too short is reported with a length below the one it needs (60_exceptions R271). -/
theorem statusOkay_tooShort {u : CodecUnit} {need : Half} {avail : Nat} {w : Walk} (h : avail < need.toNat)
    (hw : w.cls = .noClass → w.raw = 0) :
    statusOkay { err := .tooShort, unit := u, exp := need, act := BitVec.ofNat 16 avail, nbytes := w.nbytes
                 layers := w.layers, cls := w.cls, raw := w.raw } where
  success := nofun
  tooShort _ := (BitVec.toNat_ofNat avail 16).trans_lt ((Nat.mod_le _ _).trans_lt h)
  version := nofun
  malformed := nofun
  addrLen := nofun
  illegal := nofun
  rawOfNoClass := hw

theorem statusOkay_version {w : Walk} (hw : w.cls = .noClass → w.raw = 0) :
    statusOkay { err := .unsupportedVersion, unit := .ip4, exp := 0, act := 0, nbytes := w.nbytes, layers := w.layers
                 cls := w.cls, raw := w.raw } where
  success := nofun
  tooShort := nofun
  version _ := ⟨rfl, rfl, rfl⟩
  malformed := nofun
  addrLen := nofun
  illegal := nofun
  rawOfNoClass := hw

/-- Two different lengths of an ARP address are different in 16 bits too. -/
theorem statusOkay_addrLen {declared : Byte} {n : Nat} (hn : n ≤ 255) (hne : n ≠ declared.toNat) :
    statusOkay (errStatus .addrLenMismatch .arp (declared.setWidth 16) (BitVec.ofNat 16 n)) where
  success := nofun
  tooShort := nofun
  version := nofun
  malformed := nofun
  addrLen _ := by
    refine ⟨rfl, fun e => hne ?_⟩
    have hd := declared.isLt
    have e' := congrArg BitVec.toNat e
    simp only [errStatus, BitVec.toNat_setWidth, BitVec.toNat_ofNat] at e'
    omega
  illegal := nofun
  rawOfNoClass _ := rfl

theorem statusOkay_illegal : statusOkay (errStatus .illegalOp .frame 0 0) where
  success := nofun
  tooShort := nofun
  version := nofun
  malformed := nofun
  addrLen := nofun
  illegal _ := ⟨rfl, rfl, rfl, rfl, rfl, rfl⟩
  rawOfNoClass _ := rfl

/-- Settles O18: both buffers, the ARP addresses and the name are empty, and `STATUS` reports a success. -/
theorem resetStateMeetsTheInvariant : Obligations.ResetStateMeetsTheInvariant where
  ibuf := ⟨rfl, Nat.zero_le _⟩
  obuf := ⟨rfl, Nat.zero_le _⟩
  arp := ⟨Nat.zero_le _, Nat.zero_le _, Nat.zero_le _, Nat.zero_le _⟩
  pname := ⟨.inl rfl, fun i _ => List.getElem?_getD_replicate_default_eq 0 4 i⟩
  status := statusOkay_okStatus 0 0 fun _ => rfl

theorem State.Inv.withStatus {s : State} (h : s.Inv) {st : Status} (hst : statusOkay st) :
    State.Inv { s with status := st } := ⟨h.ibuf, h.obuf, h.arp, h.pname, hst⟩

/-! ### Decodes -/

/-- What holds after each layer of a decode: the invariant, and a raw value only with a class. -/
def WalkInv (w : Walk) (s : State) : Prop := s.Inv ∧ (w.cls = .noClass → w.raw = 0)

theorem WalkInv.decoded {u : CodecUnit} {w : Walk} {s s' : State} {n : Half} (h : WalkInv w s)
    (ho : layerOf u s = .decoded s' n) : WalkInv (w.decoded u n) s' := by
  obtain ⟨hs, hw⟩ := h
  obtain ⟨-, harp, e⟩ := layerOf_decoded ho
  have ha := harp hs.arp
  rw [e]
  exact ⟨⟨hs.ibuf, hs.obuf, ha, hs.pname, hs.status⟩, hw⟩

theorem WalkInv.classified {w : Walk} {s : State} {c : FrameClass × Half} (hc : c.1 ≠ .noClass) (h : WalkInv w s) :
    WalkInv (w.classified c) s := ⟨h.1, fun e => absurd e hc⟩

theorem WalkInv.finish {w : Walk} {s : State} (h : WalkInv w s) :
    State.Inv { s with status := okStatus w.nbytes w.layers w.cls w.raw } :=
  h.1.withStatus (statusOkay_okStatus _ _ h.2)

theorem WalkInv.raised {u : CodecUnit} {w : Walk} {s s' : State} {e : ErrKind} {x a : Half} (h : WalkInv w s)
    (ho : layerOf u s = .raised s' e x a) : State.Inv { s' with
      status := { err := e, unit := u, exp := x, act := a, nbytes := w.nbytes, layers := w.layers, cls := w.cls
                  raw := w.raw } } := by
  obtain ⟨hs, hw⟩ := h
  obtain ⟨rfl, rfl, rfl, hlt⟩ | ⟨rfl, rfl, rfl, rfl, e⟩ := layerOf_raised ho
  · exact hs.withStatus (statusOkay_tooShort hlt hw)
  · rw [e]
    exact ⟨hs.ibuf, hs.obuf, hs.arp, hs.pname, statusOkay_version hw⟩

theorem exec_decode_keeps_inv {i : Instr} (hi : i ∈ Instr.frameDec :: decodeOps) {s t : State} (hs : s.Inv)
    (h : exec i s = .next t) : t.Inv := by
  have start : WalkInv Walk.start s := ⟨hs, fun _ => rfl⟩
  obtain rfl | hi := List.mem_cons.mp hi
  · exact frameDec_rule WalkInv State.Inv (fun _ _ _ _ _ => WalkInv.decoded) (fun _ _ _ => WalkInv.classified)
      (fun _ _ => WalkInv.finish) (fun _ _ _ _ _ _ _ => WalkInv.raised) start h
  · obtain ⟨u, -, e⟩ := exec_of_mem_decodeOps hi
    exact andThen_finish_rule WalkInv State.Inv (fun _ _ _ _ _ => WalkInv.decoded) (fun _ _ => WalkInv.finish)
      (fun _ _ _ _ _ _ _ => WalkInv.raised) start ((e s).symm.trans h)

/-! ### The other instructions -/

theorem exec_encode_keeps_inv {i : Instr} (hi : i ∈ encodeOps) {s t : State} (hs : s.Inv) (h : exec i s = .next t) :
    t.Inv := by
  obtain ⟨out, n, hlen, e⟩ | ⟨declared, addr, ha, hne, e⟩ := exec_encode_cases hi s <;> rw [e] at h
  · rw [encoded_next h]
    have hcap : out.length ≤ Config.current.bufCap := hlen.trans (by decide)
    exact ⟨hs.ibuf, bufferOk_ofBytes hcap, hs.arp, hs.pname, statusOkay_okStatus _ _ fun _ => rfl⟩
  · rw [raiseError_next h]
    obtain ⟨h1, h2, h3, h4⟩ := hs.arp
    have hlen : addr.length ≤ 255 := by
      simp only [List.mem_cons, List.not_mem_nil, or_false] at ha
      obtain rfl | rfl | rfl | rfl := ha <;> assumption
    exact hs.withStatus (statusOkay_addrLen hlen hne)

theorem exec_other_keeps_inv {i : Instr} (hd : i ∉ Instr.frameDec :: decodeOps) (he : i ∉ encodeOps) {s t : State}
    (hs : s.Inv) (h : exec i s = .next t) : t.Inv := by
  obtain ⟨c, hc, e⟩ | e | ⟨-, name, hname, e⟩ := exec_other_cases hd he s <;> rw [e] at h
  · rw [finish_next h]
    exact hs.withStatus (statusOkay_okStatus _ _ fun hn => absurd hn hc)
  · rw [raiseError_next h]
    exact hs.withStatus statusOkay_illegal
  · rw [named_next h]
    exact ⟨hs.ibuf, hs.obuf, hs.arp, pnameOk_pnameOf hname, statusOkay_okStatus _ _ fun _ => rfl⟩

theorem exec_keeps_inv {i : Instr} {s t : State} (hs : s.Inv) (h : exec i s = .next t) : t.Inv := by
  by_cases hd : i ∈ Instr.frameDec :: decodeOps
  · exact exec_decode_keeps_inv hd hs h
  by_cases he : i ∈ encodeOps
  · exact exec_encode_keeps_inv he hs h
  exact exec_other_keeps_inv hd he hs h

/-! ### The host actions and the step -/

theorem hostLoad_keeps_inv {l : List Byte} {s t : State} (hs : s.Inv) (h : hostLoad Config.current l s = .next t) :
    t.Inv := by
  unfold hostLoad at h
  split at h <;> cases h
  case isTrue hl => exact ⟨bufferOk_ofBytes hl, hs.obuf, hs.arp, hs.pname, hs.status⟩

theorem hostSet_keeps_inv {r : Reg} {v : Value} {s t : State} (hs : s.Inv) (h : hostSet r v s = .next t) : t.Inv := by
  have w := hostSet_written h
  exact ⟨w.ibuf ▸ hs.ibuf, w.obuf ▸ hs.obuf, w.arp hs.arp, w.pname ▸ hs.pname, w.status ▸ hs.status⟩

/-- The waiting inputs are no part of the invariant (log entry 5). -/
theorem State.Inv.withInbox {s : State} (h : s.Inv) (rest : List Input) : State.Inv { s with inbox := rest } :=
  ⟨h.ibuf, h.obuf, h.arp, h.pname, h.status⟩

/-- Settles O19: each input is a command, whose instruction keeps the invariant, or a host action, which keeps it
too. -/
theorem everyStepKeepsTheInvariant : Obligations.EveryStepKeepsTheInvariant := by
  intro s t hs h
  cases hi : s.inbox with
  | nil =>
    rw [step_idle hi] at h
    cases h
    exact hs
  | cons input rest =>
    have hrest := hs.withInbox rest
    cases input with
    | cmd c => exact exec_keeps_inv hrest (step_cmd hi ▸ h)
    | load l => exact hostLoad_keeps_inv hrest (step_load hi ▸ h)
    | set r v => exact hostSet_keeps_inv hrest (step_set hi ▸ h)
    | get r =>
      rw [step_get hi] at h
      cases h
      exact hrest
    | reset =>
      rw [step_reset hi] at h
      cases h
      exact resetStateMeetsTheInvariant.withInbox rest

end Sys2Proof.Machine

/-! SUPPORT. A decode depends on its view alone: two states with the same view run through the same layers side by side,
and stay with the same view, the cursor moved as far, and the same records of the layers decoded. -/

namespace Sys2Proof.Machine

/-! ### The record of a unit -/

/-- Two states hold the same record of a unit; the units 0 and 7 have none. -/
def sameRecord (u : CodecUnit) (t t' : State) : Prop :=
  match u with
  | .eth => t.eth = t'.eth
  | .vlan => t.vlan = t'.vlan
  | .arp => t.arp = t'.arp
  | .ip4 => t.ip4 = t'.ip4
  | .tcp => t.tcp = t'.tcp
  | .udp => t.udp = t'.udp
  | .frame => True
  | .pname => True

theorem sameRecord_trans {u : CodecUnit} {r s t : State} (h : sameRecord u r s) (h' : sameRecord u s t) :
    sameRecord u r t := by
  cases u
  case frame | pname => trivial
  all_goals exact Eq.trans h h'

theorem sameRecord_symm {u : CodecUnit} {s t : State} (h : sameRecord u s t) : sameRecord u t s := by
  cases u
  case frame | pname => trivial
  all_goals exact Eq.symm h

theorem sameRecord_withCur {u : CodecUnit} {t t' : State} (h : sameRecord u t t') (c c' : Half) :
    sameRecord u { t with cur := c } { t' with cur := c' } := by
  cases u <;> exact h

/-- A layer leaves the records of the other units. -/
theorem sameRecord_of_undoDecode {u v : CodecUnit} {s t : State} (hv : v ≠ u) (h : undoDecode u s t = s) :
    sameRecord v t s := by
  rw [← h]
  cases v
  case frame | pname => trivial
  all_goals cases u <;> first | contradiction | rfl

/-! ### A layer on two states with the same view -/

/-- The outcomes of a layer of unit `u` from `s` and from `s'` are alike: both decode the same record, or both
fail alike. -/
inductive LayersAlike (u : CodecUnit) (s s' : State) : LayerOut → LayerOut → Prop
  | decoded {t t' : State} {n : Half} (h : sameRecord u t t') : LayersAlike u s s' (.decoded t n) (.decoded t' n)
  | raised {t t' : State} {k : ErrKind} {x a : Half} (h : sameRecord u s s' → sameRecord u t t') :
      LayersAlike u s s' (.raised t k x a) (.raised t' k x a)

theorem parsedLayer_alike {α : Type} {u : CodecUnit} {s s' : State} (parsed : Except CodecError (α × Nat))
    {put put' : α → State} {reject reject' : Ip4Rec → State} (hp : ∀ r, sameRecord u (put r) (put' r))
    (hr : ∀ r, sameRecord u s s' → sameRecord u (reject r) (reject' r)) :
    LayersAlike u s s' (parsedLayer parsed put reject s) (parsedLayer parsed put' reject' s') := by
  match parsed with
  | .ok (r, n) => exact .decoded (sameRecord_withCur (hp r) _ _)
  | .error (.tooShort _ _) => exact .raised id
  | .error (.unsupportedVersion r) => exact .raised (hr r)
  | .error (.addrLenMismatch _ _) => exact .raised id

theorem layerOf_alike {u : CodecUnit} {s s' : State} (hu : layerBit u ≠ 0) (h : s.ibuf.wf = true)
    (h' : s'.ibuf.wf = true) (hv : s.view = s'.view) : LayersAlike u s s' (layerOf u s) (layerOf u s') := by
  cases u <;> simp only [layerOf]
  case frame | pname => exact absurd rfl hu
  case eth =>
    rw [layerEth_eq_parsedLayer h, layerEth_eq_parsedLayer h', hv]
    exact parsedLayer_alike _ (fun _ => rfl) fun _ => id
  case vlan =>
    rw [layerVlan_eq_parsedLayer h, layerVlan_eq_parsedLayer h', hv]
    exact parsedLayer_alike _ (fun _ => rfl) fun _ => id
  case arp =>
    rw [layerArp_eq_parsedLayer h, layerArp_eq_parsedLayer h', hv]
    exact parsedLayer_alike _ (fun _ => rfl) fun _ => id
  case ip4 =>
    rw [layerIp4_eq_parsedLayer h, layerIp4_eq_parsedLayer h', hv]
    exact parsedLayer_alike _ (fun _ => rfl) fun _ _ => rfl
  case tcp =>
    rw [layerTcp_eq_parsedLayer h, layerTcp_eq_parsedLayer h', hv]
    exact parsedLayer_alike _ (fun _ => rfl) fun _ => id
  case udp =>
    rw [layerUdp_eq_parsedLayer h, layerUdp_eq_parsedLayer h', hv]
    exact parsedLayer_alike _ (fun _ => rfl) fun _ => id

theorem layerOf_decoded_ibuf {u : CodecUnit} {s t : State} {n : Half} (h : layerOf u s = .decoded t n) :
    t.ibuf = s.ibuf := by
  obtain ⟨-, -, e⟩ := layerOf_decoded h
  rw [e]

theorem layerOf_decoded_cur {u : CodecUnit} {s t : State} {n : Half} (h : layerOf u s = .decoded t n) :
    t.cur = s.cur + n := by
  obtain ⟨-, -, e⟩ := layerOf_decoded h
  rw [e]

/-- The view after a layer is the rest of the view before it. -/
theorem layerOf_decoded_view {u : CodecUnit} {s t : State} {n : Half} (hb : bufferOk s.ibuf)
    (h : layerOf u s = .decoded t n) : t.view = s.view.drop n.toNat := by
  obtain ⟨hn, -, -⟩ := layerOf_decoded h
  have hcur : (s.cur + n).toNat = s.cur.toNat + n.toNat := by
    obtain h0 | hpos := Nat.eq_zero_or_pos n.toNat
    · rw [BitVec.eq_of_toNat_eq (y := 0) h0]
      simp
    · simpa using cur_add hb hn hpos
  rw [State.view, layerOf_decoded_ibuf h, layerOf_decoded_cur h, hcur, State.view, List.drop_drop]

theorem layerOf_raised_cur {u : CodecUnit} {s t : State} {k : ErrKind} {x a : Half}
    (h : layerOf u s = .raised t k x a) : t.cur = s.cur := by
  obtain ⟨-, rfl, -, -⟩ | ⟨-, -, -, -, e⟩ := layerOf_raised h
  · rfl
  · rw [e]

/-! ### Two decodes side by side -/

/-- The bit of `STATUS.LAYERS` of a unit (10_state R34) is set. -/
def layerDone (layers : BitVec 6) (u : CodecUnit) : Prop := layers.getLsbD (u.code - 1) = true

theorem layerDone_or {layers : BitVec 6} {u v : CodecUnit} (h : layerDone (layers ||| layerBit u) v) :
    layerDone layers v ∨ v = u ∨ v = .frame := by
  rw [layerDone, BitVec.getLsbD_or, Bool.or_eq_true] at h
  refine h.imp_right fun hbit => ?_
  revert hbit
  cases u <;> cases v <;> decide

section SideBySide

variable (s₀ s₀' : State)

/-- Two decodes, begun in `s₀` and `s₀'`, have come to `s` and `s'` with the same accumulated: they see the same view,
have moved as far, and hold the same records of the layers decoded. -/
structure Alike (w : Walk) (s s' : State) : Prop where
  buf : bufferOk s.ibuf
  buf' : bufferOk s'.ibuf
  view : s.view = s'.view
  moved : s.cur - s₀.cur = s'.cur - s₀'.cur
  records : ∀ u, layerDone w.layers u → sameRecord u s s'

/-- Two decodes end alike. -/
structure EndAlike (t t' : State) : Prop where
  status : t.status = t'.status
  moved : t.cur - s₀.cur = t'.cur - s₀'.cur
  records : ∀ u, layerDone t.status.layers u → sameRecord u t t'

/-- Both decodes complete, and end alike. -/
def ResultsAlike (r r' : Result) : Prop := ∃ t t', r = .next t ∧ r' = .next t' ∧ EndAlike s₀ s₀' t t'

end SideBySide

section Stages

variable {s₀ s₀' s s' : State} {w : Walk}

theorem alike_start (hb : bufferOk s.ibuf) (hb' : bufferOk s'.ibuf) (hv : s.view = s'.view) :
    Alike s s' Walk.start s s' where
  buf := hb
  buf' := hb'
  view := hv
  moved := by rw [BitVec.sub_self, BitVec.sub_self]
  records u hu := by simp [layerDone, Walk.start] at hu

theorem sameRecord_withStatus {u : CodecUnit} {t t' : State} (h : sameRecord u t t') (st st' : Status) :
    sameRecord u { t with status := st } { t' with status := st' } := by
  cases u <;> exact h

variable (h : Alike s₀ s₀' w s s')

include h

theorem Alike.classified (c : FrameClass × Half) : Alike s₀ s₀' (w.classified c) s s' :=
  ⟨h.buf, h.buf', h.view, h.moved, h.records⟩

theorem Alike.finish : ResultsAlike s₀ s₀' (finish w s) (finish w s') :=
  ⟨_, _, rfl, rfl, rfl, h.moved, fun u hu => sameRecord_withStatus (h.records u hu) _ _⟩

/-- The records of the layers decoded before stay alike, when the record of the layer `u` does. -/
theorem Alike.records_after {u v : CodecUnit} {t t' : State} (ht : undoDecode u s t = s)
    (ht' : undoDecode u s' t' = s') (hu : layerDone w.layers u → sameRecord u t t') (hv : layerDone w.layers v) :
    sameRecord v t t' := by
  by_cases e : v = u
  · subst e
    exact hu hv
  · have same := sameRecord_of_undoDecode e ht
    have same' := sameRecord_of_undoDecode e ht'
    exact sameRecord_trans same (sameRecord_trans (h.records v hv) (sameRecord_symm same'))

theorem Alike.decoded {u : CodecUnit} {t t' : State} {n : Half} (ho : layerOf u s = .decoded t n)
    (ho' : layerOf u s' = .decoded t' n) (hu : sameRecord u t t') : Alike s₀ s₀' (w.decoded u n) t t' where
  buf := layerOf_decoded_ibuf ho ▸ h.buf
  buf' := layerOf_decoded_ibuf ho' ▸ h.buf'
  view := by rw [layerOf_decoded_view h.buf ho, layerOf_decoded_view h.buf' ho', h.view]
  moved := by
    rw [layerOf_decoded_cur ho, layerOf_decoded_cur ho', add_sub_right_comm, h.moved, add_sub_right_comm]
  records v hv := by
    have ht := layerOf_frame (t := t) (by rw [ho]; rfl)
    have ht' := layerOf_frame (t := t') (by rw [ho']; rfl)
    obtain hv | rfl | rfl := layerDone_or hv
    · exact h.records_after ht ht' (fun _ => hu) hv
    · exact hu
    · trivial

theorem Alike.raised {u : CodecUnit} {t t' : State} {k : ErrKind} {x a : Half} (ho : layerOf u s = .raised t k x a)
    (ho' : layerOf u s' = .raised t' k x a) (hu : sameRecord u s s' → sameRecord u t t') :
    ResultsAlike s₀ s₀' (raiseError u k x a w t) (raiseError u k x a w t') := by
  have ht := layerOf_frame (t := t) (by rw [ho]; rfl)
  have ht' := layerOf_frame (t := t') (by rw [ho']; rfl)
  refine ⟨_, _, rfl, rfl, rfl, ?_, fun v hv => sameRecord_withStatus (h.records_after ht ht' ?_ hv) _ _⟩
  · show t.cur - s₀.cur = t'.cur - s₀'.cur
    rw [layerOf_raised_cur ho, layerOf_raised_cur ho', h.moved]
  · exact fun hd => hu (h.records u hd)

/-- A layer and what follows it end alike, when what follows does from any two states that the layer leaves alike. -/
theorem Alike.andThen {u : CodecUnit} {k : Walk → State → Result} (hu : layerBit u ≠ 0)
    (hk : ∀ w t t', Alike s₀ s₀' w t t' → sameRecord u t t' → ResultsAlike s₀ s₀' (k w t) (k w t')) :
    ResultsAlike s₀ s₀' (andThen u w (layerOf u s) k) (andThen u w (layerOf u s') k) := by
  have hl := layerOf_alike hu h.buf.1 h.buf'.1 h.view
  generalize ho : layerOf u s = o at hl
  generalize ho' : layerOf u s' = o' at hl
  cases hl with
  | decoded hr => exact hk _ _ _ (h.decoded ho ho' hr) hr
  | raised hr => exact h.raised ho ho' hr

theorem Alike.andThen_finish {u : CodecUnit} (hu : layerBit u ≠ 0) :
    ResultsAlike s₀ s₀' (Machine.andThen u w (layerOf u s) Machine.finish)
      (Machine.andThen u w (layerOf u s') Machine.finish) :=
  h.andThen hu fun _ _ _ ht _ => ht.finish

theorem Alike.frameTransport : ResultsAlike s₀ s₀' (frameTransport w s) (frameTransport w s') := by
  by_cases ht : w.cls = .tcp
  · rw [frameTransport_tcp ht, frameTransport_tcp ht]
    exact h.andThen_finish (u := .tcp) (by decide)
  by_cases hu : w.cls = .udp
  · rw [frameTransport_udp hu, frameTransport_udp hu]
    exact h.andThen_finish (u := .udp) (by decide)
  rw [frameTransport_other ht hu, frameTransport_other ht hu]
  exact h.finish

theorem Alike.frameNetwork (cfg : Config) : ResultsAlike s₀ s₀' (frameNetwork cfg w s) (frameNetwork cfg w s') := by
  by_cases ha : w.cls = .arp
  · rw [frameNetwork_arp ha, frameNetwork_arp ha]
    exact h.andThen_finish (u := .arp) (by decide)
  by_cases hi : w.cls = .ipv4
  · rw [frameNetwork_ipv4 hi, frameNetwork_ipv4 hi]
    refine h.andThen (u := .ip4) (by decide) fun w t t' ht hr => ?_
    rw [show t.ip4 = t'.ip4 from hr]
    exact (ht.classified _).frameTransport
  rw [frameNetwork_other ha hi, frameNetwork_other ha hi]
  exact h.finish

theorem Alike.frameTagged (cfg : Config) : ResultsAlike s₀ s₀' (frameTagged cfg w s) (frameTagged cfg w s') := by
  by_cases hv : w.cls = .vlan
  · rw [frameTagged_vlan hv, frameTagged_vlan hv]
    exact h.finish
  rw [frameTagged_other hv, frameTagged_other hv]
  exact h.frameNetwork cfg

theorem Alike.frameLink (cfg : Config) : ResultsAlike s₀ s₀' (frameLink cfg w s) (frameLink cfg w s') := by
  by_cases hv : w.cls = .vlan
  · rw [frameLink_vlan hv, frameLink_vlan hv]
    refine h.andThen (u := .vlan) (by decide) fun w t t' ht hr => ?_
    rw [show t.vlan = t'.vlan from hr]
    exact (ht.classified _).frameTagged cfg
  rw [frameLink_other hv, frameLink_other hv]
  exact h.frameNetwork cfg

end Stages

theorem frameDecAt_alike (cfg : Config) {s s' : State} (h : Alike s s' Walk.start s s') :
    ResultsAlike s s' (frameDecAt cfg s) (frameDecAt cfg s') := by
  refine h.andThen (u := .eth) (by decide) fun w t t' ht hr => ?_
  rw [show t.eth = t'.eth from hr]
  exact (ht.classified _).frameLink cfg

/-- Settles O55: two states with the same view go through the same layers, side by side. -/
theorem decodesDependOnTheViewAlone : Obligations.DecodesDependOnTheViewAlone := by
  intro i hi s s' hb hb' hv
  have start := alike_start hb hb' hv
  have alike : ResultsAlike s s' (exec i s) (exec i s') := by
    obtain rfl | hi := List.mem_cons.mp hi
    · exact frameDecAt_alike Config.current start
    · obtain ⟨u, hu, e⟩ := exec_of_mem_decodeOps hi
      rw [e, e]
      exact start.andThen_finish hu
  obtain ⟨t, t', ht, ht', hst, hmoved, hrec⟩ := alike
  exact ⟨t, t', ht, ht', hst, hmoved, hrec .eth, hrec .vlan, hrec .arp, hrec .ip4, hrec .tcp, hrec .udp⟩

end Sys2Proof.Machine

/-! SUPPORT. The buffers (20_memory): what a buffer written whole reads, where the view of a decode stands, that no
instruction reads outside it, what an encode changes, and that a decode issued again gives the same. -/

namespace Sys2Proof.Machine

/-! ### Buffers -/

/-- Buffers in canonical form that read the same at every address are the same buffer. -/
theorem eq_of_readByte_eq {m m' : Memory} (h : m.wf = true) (h' : m'.wf = true)
    (hr : ∀ a, m.readByte a = m'.readByte a) : m = m' := by
  have hb : m.bytes = m'.bytes :=
    List.ext_getElem? fun a => by rw [← readByte_of_wf h, ← readByte_of_wf h', hr]
  rw [eq_ofBytes_of_wf h, eq_ofBytes_of_wf h', hb]

/-- Settles O15, from the laws of `Memory.ofBytes`; a buffer in canonical form is the one its bytes make. -/
theorem writtenBufferReadsBackByteForByte : Obligations.WrittenBufferReadsBackByteForByte :=
  ⟨readByte_ofBytes, fun l => ⟨ofBytes_wf l, ofBytes_bytes l, ofBytes_len l⟩, fun _ _ => eq_of_readByte_eq⟩

/-! ### The empty view -/

theorem needBytes_of_avail_zero {need : Half} {s : State} {body : LayerOut} (h : s.avail = 0)
    (hn : 0 < need.toNat) : needBytes need s body = .raised s .tooShort need 0 := by
  rw [needBytes_of_lt (h.trans_lt hn), h]
  rfl

/-- Every layer needs at least one byte, and checks for it before it reads any. -/
theorem layerOf_of_avail_zero {u : CodecUnit} {s : State} (hu : layerBit u ≠ 0) (h : s.avail = 0) :
    ∃ need, layerOf u s = .raised s .tooShort need 0 := by
  cases u
  case frame | pname => exact absurd rfl hu
  case eth | vlan | arp | ip4 | tcp | udp => exact ⟨_, needBytes_of_avail_zero h (by decide)⟩

/-- An operation that begins with a layer rejects the empty view, whatever would follow. -/
theorem andThen_of_avail_zero {u : CodecUnit} {w : Walk} {s : State} {k : Walk → State → Result}
    (hu : layerBit u ≠ 0) (h : s.avail = 0) :
    ∃ t, andThen u w (layerOf u s) k = .next t ∧ t.status.err = .tooShort ∧ t.status.act = 0 := by
  obtain ⟨need, e⟩ := layerOf_of_avail_zero hu h
  exact ⟨_, by rw [e, andThen, raiseError_eq], rfl, rfl⟩

theorem frameDecAt_of_avail_zero (cfg : Config) {s : State} (h : s.avail = 0) :
    ∃ t, frameDecAt cfg s = .next t ∧ t.status.err = .tooShort ∧ t.status.act = 0 := by
  unfold frameDecAt
  exact andThen_of_avail_zero (u := .eth) (by decide) h

theorem exec_decode_of_avail_zero {i : Instr} (hi : i ∈ Instr.frameDec :: decodeOps) {s : State} (h : s.avail = 0) :
    ∃ t, exec i s = .next t ∧ t.status.err = .tooShort ∧ t.status.act = 0 := by
  obtain rfl | hi := List.mem_cons.mp hi
  · exact frameDecAt_of_avail_zero Config.current h
  · obtain ⟨u, hu, e⟩ := exec_of_mem_decodeOps hi
    rw [e]
    exact andThen_of_avail_zero hu h

/-- Settles O16: the view is the buffer from the cursor on, and beyond the end it is empty, which every layer
rejects. -/
theorem viewStartsAtTheCursor : Obligations.ViewStartsAtTheCursor := by
  intro s ⟨hwf, hcap⟩
  have beyond (hc : s.ibuf.len < s.cur.toNat) : s.avail = 0 := Nat.sub_eq_zero_of_le hc.le
  refine ⟨fun _ => rfl, beyond, (Nat.sub_le _ _).trans hcap, view_length s, fun i _ => ?_,
    fun hc i hi => exec_decode_of_avail_zero hi (beyond hc)⟩
  rw [readByte_of_wf hwf, State.view, List.getElem?_drop]

/-! ### No read outside the buffer -/

/-- `k` answers a next state whenever `IBUF` is in canonical form. -/
def Completes (k : State → Result) : Prop := ∀ s, s.ibuf.wf = true → ∃ t, k s = .next t

theorem finish_completes (w : Walk) : Completes (finish w) := fun s _ => ⟨_, finish_eq w s⟩

/-- A layer reads only bytes that it has checked for and keeps `IBUF`, so what follows it meets the same buffer. -/
theorem andThen_completes {u : CodecUnit} (w : Walk) {k : Walk → State → Result} (hu : layerBit u ≠ 0)
    (hk : ∀ w, Completes (k w)) : Completes fun s => andThen u w (layerOf u s) k := by
  intro s hs
  show ∃ t, andThen u w (layerOf u s) k = .next t
  cases ho : layerOf u s with
  | decoded s' n => exact hk _ s' (layerOf_decoded_ibuf ho ▸ hs)
  | raised s' e x a => exact ⟨_, raiseError_eq u e x a w s'⟩
  | stopped f => exact absurd ho (layerOf_ne_stopped hs hu)

theorem frameTransport_completes (w : Walk) : Completes (frameTransport w) := by
  unfold frameTransport
  intro s hs
  split
  · exact andThen_completes (u := .tcp) w (by decide) finish_completes s hs
  · exact andThen_completes (u := .udp) w (by decide) finish_completes s hs
  · exact finish_completes w s hs

theorem frameNetwork_completes (cfg : Config) (w : Walk) : Completes (frameNetwork cfg w) := by
  unfold frameNetwork
  intro s hs
  split
  · exact andThen_completes (u := .arp) w (by decide) finish_completes s hs
  · exact andThen_completes (u := .ip4) w (by decide) (fun _ _ => frameTransport_completes _ _) s hs
  · exact finish_completes w s hs

theorem frameTagged_completes (cfg : Config) (w : Walk) : Completes (frameTagged cfg w) := by
  unfold frameTagged
  intro s hs
  split
  · exact finish_completes w s hs
  · exact frameNetwork_completes cfg w s hs

theorem frameLink_completes (cfg : Config) (w : Walk) : Completes (frameLink cfg w) := by
  unfold frameLink
  intro s hs
  split
  · exact andThen_completes (u := .vlan) w (by decide) (fun _ _ => frameTagged_completes cfg _ _) s hs
  · exact frameNetwork_completes cfg w s hs

theorem frameDecAt_completes (cfg : Config) : Completes (frameDecAt cfg) :=
  andThen_completes (u := .eth) Walk.start (by decide) fun _ _ => frameLink_completes cfg _ _

/-- Every instruction completes on a buffer in canonical form, whatever it holds and wherever the cursor stands. -/
theorem exec_completes (i : Instr) : Completes (exec i) := by
  intro s hs
  by_cases hd : i ∈ Instr.frameDec :: decodeOps
  · obtain rfl | hi := List.mem_cons.mp hd
    · exact frameDecAt_completes Config.current s hs
    · obtain ⟨u, hu, e⟩ := exec_of_mem_decodeOps hi
      rw [e]
      exact andThen_completes Walk.start hu finish_completes s hs
  by_cases he : i ∈ encodeOps
  · obtain ⟨out, n, -, e⟩ | ⟨declared, addr, -, -, e⟩ := exec_encode_cases he s
    · exact ⟨_, e.trans (encoded_eq _ _ _)⟩
    · exact ⟨_, e.trans (raiseError_eq _ _ _ _ _ _)⟩
  · obtain ⟨c, -, e⟩ | e | ⟨-, name, -, e⟩ := exec_other_cases hd he s
    · exact ⟨_, e.trans (finish_eq _ _)⟩
    · exact ⟨_, e.trans (raiseError_eq _ _ _ _ _ _)⟩
    · exact ⟨_, e.trans (finish_eq _ _)⟩

/-- Settles O17: an instruction that completes has met no absent byte. -/
theorem noOperationReadsOutsideTheBuffer : Obligations.NoOperationReadsOutsideTheBuffer := by
  intro i s hs
  obtain ⟨t, ht⟩ := exec_completes i s hs
  rw [ht, faults]

/-! ### What an encode changes -/

/-- Settles O52: an encode writes `OBUF` and reports a success, or reports the address of the wrong length and writes
`STATUS` alone. -/
theorem encodesChangeOnlyObufAndStatus : Obligations.EncodesChangeOnlyObufAndStatus := by
  intro i hi s t h
  obtain ⟨out, n, -, e⟩ | ⟨declared, addr, -, -, e⟩ := exec_encode_cases hi s <;> rw [e] at h
  · rw [encoded_next h]
    exact ⟨rfl, fun hne => absurd rfl hne, fun _ => rfl⟩
  · rw [raiseError_next h]
    exact ⟨rfl, fun _ => rfl, fun _ => rfl⟩

/-! ### A decode issued again -/

theorem layerOf_ibuf {u : CodecUnit} {s t : State} (h : (layerOf u s).state? = some t) : t.ibuf = s.ibuf := by
  have hf := congrArg State.ibuf (layerOf_frame h)
  cases u <;> exact hf

/-- A layer that wires a parse of the view, run again with the cursor put back, ends as it did: the view is the same,
and a record written twice is the record written once. -/
theorem again_of_parsedLayer {α : Type} {layer : State → LayerOut} {parse : List Byte → Except CodecError (α × Nat)}
    {put : State → α → State} {reject : State → Ip4Rec → State} {s t : State}
    (heq : ∀ s, s.ibuf.wf = true → layer s = parsedLayer (parse s.view) (put s) (reject s) s)
    (hput : ∀ s r c, { put { put s r with cur := s.cur } r with cur := c } = { put s r with cur := c })
    (hreject : ∀ s r, reject { reject s r with cur := s.cur } r = reject s r)
    (hw : s.ibuf.wf = true) (hibuf : t.ibuf = s.ibuf) (h : (layer s).state? = some t) :
    layer { t with cur := s.cur } = layer s := by
  have hv : State.view { t with cur := s.cur } = s.view := by rw [State.view, State.view, hibuf]
  rw [heq s hw] at h
  rw [heq s hw, heq { t with cur := s.cur } (hibuf ▸ hw), hv]
  generalize parse s.view = parsed at h ⊢
  match parsed with
  | .ok (r, n) =>
    cases h
    exact congrArg (LayerOut.decoded · _) (hput s r _)
  | .error (.unsupportedVersion r) =>
    cases h
    exact congrArg (LayerOut.raised · _ _ _) (hreject s r)
  | .error (.tooShort _ _) | .error (.addrLenMismatch _ _) =>
    cases h
    rfl

/-- A layer run again with the cursor put back ends as it did. -/
theorem layerOf_again {u : CodecUnit} {s t : State} (hw : s.ibuf.wf = true) (h : (layerOf u s).state? = some t) :
    layerOf u { t with cur := s.cur } = layerOf u s := by
  have hibuf := layerOf_ibuf h
  cases u
  case frame | pname => rfl
  case eth =>
    exact again_of_parsedLayer (fun _ => layerEth_eq_parsedLayer) (fun _ _ _ => rfl) (fun _ _ => rfl) hw hibuf h
  case vlan =>
    exact again_of_parsedLayer (fun _ => layerVlan_eq_parsedLayer) (fun _ _ _ => rfl) (fun _ _ => rfl) hw hibuf h
  case arp =>
    exact again_of_parsedLayer (fun _ => layerArp_eq_parsedLayer) (fun _ _ _ => rfl) (fun _ _ => rfl) hw hibuf h
  case ip4 =>
    exact again_of_parsedLayer (fun _ => layerIp4_eq_parsedLayer) (fun _ _ _ => rfl) (fun _ _ => rfl) hw hibuf h
  case tcp =>
    exact again_of_parsedLayer (fun _ => layerTcp_eq_parsedLayer) (fun _ _ _ => rfl) (fun _ _ => rfl) hw hibuf h
  case udp =>
    exact again_of_parsedLayer (fun _ => layerUdp_eq_parsedLayer) (fun _ _ _ => rfl) (fun _ _ => rfl) hw hibuf h

/-- Settles O59: the two runs start from states that differ in `STATUS`, which no decode reads, and in what the layer
wrote, which it writes again. -/
theorem decodeIssuedTwiceGivesTheSame : Obligations.DecodeIssuedTwiceGivesTheSame := by
  intro i hi s t hw h
  obtain ⟨u, -, e⟩ := exec_of_mem_decodeOps hi
  rw [e] at h ⊢
  obtain ⟨r, st, hr, rfl⟩ := singleDecode_next h
  calc singleDecode u (layerOf u { r with cur := s.cur, status := st })
    _ = singleDecode u (layerOf u { r with cur := s.cur }) :=
      andThen_ignoresStatus u Walk.start finish_ignoresStatus { r with cur := s.cur } st
    _ = singleDecode u (layerOf u s) := by rw [layerOf_again hw hr]
    _ = _ := h

end Sys2Proof.Machine

/-! SUPPORT. The tables (30_encoding R116): in every format the decoder gives the well-formed row that has the number
given, so decoding and encoding undo each other; and which command bytes are illegal. -/

namespace Sys2Proof.Machine

/-! ### The rows of a format -/

/-- The row of a format that a number selects: the decoders of the five formats, on a number. -/
def rowOf (cfg : Config) (f : Format) (w : Nat) : Instr :=
  match f with
  | .cmd => decodeCmd (BitVec.ofNat 8 w)
  | .ethertype => decodeEthertype (BitVec.ofNat 16 w)
  | .arpptype => decodeArpPtype (BitVec.ofNat 16 w)
  | .ipproto => decodeIpproto cfg (BitVec.ofNat 8 w)
  | .protoname => decodeProtoname cfg (BitVec.ofNat 8 w)

theorem rowOf_cmd (cfg : Config) (c : Byte) : rowOf cfg .cmd c.toNat = decodeCmd c := by simp [rowOf]

theorem rowOf_ethertype (cfg : Config) (t : Half) : rowOf cfg .ethertype t.toNat = decodeEthertype t := by simp [rowOf]

theorem rowOf_arpptype (cfg : Config) (t : Half) : rowOf cfg .arpptype t.toNat = decodeArpPtype t := by simp [rowOf]

theorem rowOf_ipproto (cfg : Config) (p : Byte) : rowOf cfg .ipproto p.toNat = decodeIpproto cfg p := by simp [rowOf]

theorem rowOf_protoname (cfg : Config) (p : Byte) : rowOf cfg .protoname p.toNat = decodeProtoname cfg p := by
  simp [rowOf]

/-- A sequence of a format's length decodes to the row that its big-endian value selects. -/
theorem decodeIn_eq_rowOf {f : Format} {bs : List Byte} (cfg : Config) (h : bs.length = f.nbytes) :
    decodeIn cfg f bs = .ok (rowOf cfg f (be bs)) := by
  cases f
  case cmd | ipproto | protoname =>
    obtain ⟨b, rfl⟩ := List.length_eq_one_iff.mp h
    rw [rowOf, ← beW, beW_single]
    rfl
  case ethertype | arpptype =>
    obtain ⟨a, b, rfl⟩ := List.length_eq_two.mp h
    rfl

/-- The word of every instruction fits the bytes of its format. -/
theorem encodeWord_lt (cfg : Config) (i : Instr) : encodeWord cfg i < 256 ^ i.format.nbytes := by
  open Laws.WordFits in
  cases i
  exacts [frameDec cfg, ethDec cfg, ethEnc cfg, ethClass cfg, vlanDec cfg, vlanEnc cfg, vlanClass cfg, arpDec cfg,
    arpEnc cfg, arpClass cfg, ip4Dec cfg, ip4Enc cfg, ip4Class cfg, tcpDec cfg, tcpEnc cfg, udpDec cfg, udpEnc cfg,
    Laws.WordFits.protoName cfg, illegal _ cfg, ethertypeVlan cfg, ethertypeArp cfg, ethertypeIpv4 cfg,
    ethertypeIpv6 cfg, ethertypeOther _ cfg, arpPtypeIpv4 cfg, arpPtypeOther _ cfg, ipprotoTcp cfg, ipprotoUdp cfg,
    ipprotoOther _ cfg, protonameIcmp cfg, protonameIgmp cfg, protonameIpip cfg, protonameTcp cfg,
    protonameUdp cfg, protonameEsp cfg, protonameAh cfg, protonameOspf cfg, protonamePim cfg, protonameVrrp cfg,
    protonameIsis cfg, protonameHex _ cfg]

/-- `i` is a row of format `f`, and its number there is `w`. -/
structure IsRow (cfg : Config) (f : Format) (w : Nat) (i : Instr) : Prop where
  format : i.format = f
  wf : i.wf cfg = true
  word : encodeWord cfg i = w

/-! ### The default rows

The operand of a default row is matched by no other row of its format (30_encoding R116). -/

theorem illegal_wf {cfg : Config} {c : Byte} : (Instr.illegal c).wf cfg = true ↔ c ∉ legalCmds := by simp [Instr.wf]

theorem ethertypeOther_wf {cfg : Config} {t : Half} :
    (Instr.ethertypeOther t).wf cfg = true ↔ t ∉ namedEthertypes := by
  rw [Instr.wf, Bool.not_eq_true', List.contains_eq_mem, decide_eq_false_iff_not]

theorem arpPtypeOther_wf {cfg : Config} {t : Half} : (Instr.arpPtypeOther t).wf cfg = true ↔ t ≠ ipv4Ethertype := by
  simp [Instr.wf]

theorem ipprotoOther_wf {cfg : Config} {p : Byte} :
    (Instr.ipprotoOther p).wf cfg = true ↔ p ≠ cfg.protoTcp ∧ p ≠ cfg.protoUdp := by simp [Instr.wf]

theorem protonameHex_wf {cfg : Config} {p : Byte} : (Instr.protonameHex p).wf cfg = true ↔ p ∉ cfg.protos := by
  simp [Instr.wf]

/-! ### The command byte -/

/-- The fourteen bytes of a unit and a function that have no operation (30_encoding R94). -/
def unusedCmds : List Byte := [0x01, 0x02, 0x03, 0x13, 0x23, 0x33, 0x43, 0x52, 0x53, 0x62, 0x63, 0x70, 0x71, 0x72]

/-- Of the 32 bytes of a unit and a function, eighteen have an operation and the fourteen others are unused. -/
theorem legal_or_unused : ∀ u < 8, ∀ f < 4, BitVec.ofNat 8 (u * 16 + f) ∈ legalCmds ++ unusedCmds := by decide

/-- A byte is its two halves. -/
theorem cmd_eq_halves (c : Byte) :
    c = BitVec.ofNat 8 ((c.extractLsb' 4 4).toNat * 16 + (c.extractLsb' 0 4).toNat) := by
  have hc := c.isLt
  apply BitVec.eq_of_toNat_eq
  rw [BitVec.toNat_ofNat, BitVec.extractLsb'_toNat, BitVec.extractLsb'_toNat, Nat.shiftRight_eq_div_pow]
  omega

/-- Which bytes are illegal (30_encoding R94): no unit, no function, or a pair without an operation. -/
theorem not_mem_legalCmds_iff (c : Byte) : c ∉ legalCmds ↔
    8 ≤ (c.extractLsb' 4 4).toNat ∨ 4 ≤ (c.extractLsb' 0 4).toNat ∨ c ∈ unusedCmds := by
  constructor
  · intro hc
    by_contra! h
    obtain ⟨hu, hf, hn⟩ := h
    have hm := legal_or_unused _ hu _ hf
    rw [← cmd_eq_halves] at hm
    exact (List.mem_append.mp hm).elim hc hn
  · have legal : ∀ c ∈ legalCmds,
        (c.extractLsb' 4 4).toNat < 8 ∧ (c.extractLsb' 0 4).toNat < 4 ∧ c ∉ unusedCmds := by decide
    intro h hc
    obtain ⟨hu, hf, hn⟩ := legal c hc
    obtain h | h | h := h
    · omega
    · omega
    · exact hn h

/-- All but eighteen of the 256 bytes are illegal (30_encoding R94). -/
theorem illegal_count :
    ((List.range 256).filter fun n => !legalCmds.contains (BitVec.ofNat 8 n)).length = 238 := by
  have legal : ((List.range 256).filter fun n => legalCmds.contains (BitVec.ofNat 8 n)).Perm
      (legalCmds.map BitVec.toNat) := by
    refine (List.perm_ext_iff_of_nodup (List.nodup_range.filter _) (by decide)).mpr fun n => ?_
    simp only [List.mem_filter, List.mem_range, List.contains_iff_mem, List.mem_map]
    constructor
    · exact fun ⟨hn, h⟩ => ⟨_, h, Nat.mod_eq_of_lt hn⟩
    · rintro ⟨c, hc, rfl⟩
      exact ⟨c.isLt, by simpa using hc⟩
  have total := List.length_eq_length_filter_add (l := List.range 256) fun n => legalCmds.contains (BitVec.ofNat 8 n)
  rw [legal.length_eq, List.length_map, List.length_range] at total
  have eighteen : legalCmds.length = 18 := rfl
  omega

theorem unitOfBits_eq_none {b : BitVec 4} (h : 8 ≤ b.toNat) : unitOfBits b = none := by
  unfold unitOfBits
  split
  case h_9 => rfl
  all_goals omega

theorem funcOfBits_eq_none {b : BitVec 4} (h : 4 ≤ b.toNat) : funcOfBits b = none := by
  unfold funcOfBits
  split
  case h_5 => rfl
  all_goals omega

theorem decodeCmd_of_not_mem {c : Byte} (h : c ∉ legalCmds) : decodeCmd c = .illegal c := by
  obtain hu | hf | hn := (not_mem_legalCmds_iff c).mp h
  · rw [decodeCmd, unitOfBits_eq_none hu]
  · rw [decodeCmd, funcOfBits_eq_none hf]
    cases unitOfBits (c.extractLsb' 4 4) <;> rfl
  · have unused : ∀ c ∈ unusedCmds, decodeCmd c = .illegal c := by decide
    exact unused c hn

/-- The byte of a unit and a function that have an operation decodes to it (30_encoding R90, R93). -/
theorem decodeCmd_cmdOf {u : CodecUnit} {f : Func} {i : Instr} (h : opOf u f = some i) :
    decodeCmd (BitVec.ofNat 8 (cmdOf u f)) = i := by
  have hu : unitOfBits ((BitVec.ofNat 8 (cmdOf u f)).extractLsb' 4 4) = some u := by cases u <;> cases f <;> rfl
  have hf : funcOfBits ((BitVec.ofNat 8 (cmdOf u f)).extractLsb' 0 4) = some f := by cases u <;> cases f <;> rfl
  rw [decodeCmd, hu, hf]
  exact congrArg (Option.getD · _) h

theorem decodeCmd_isRow (cfg : Config) (c : Byte) : IsRow cfg .cmd c.toNat (decodeCmd c) := by
  by_cases hc : c ∈ legalCmds
  · unfold legalCmds at hc
    fin_cases hc <;> exact ⟨rfl, rfl, rfl⟩
  · rw [decodeCmd_of_not_mem hc]
    exact ⟨rfl, illegal_wf.mpr hc, rfl⟩

/-! ### The second-level tables -/

theorem decodeEthertype_of_not_mem {t : Half} (h : t ∉ namedEthertypes) : decodeEthertype t = .ethertypeOther t := by
  simp only [namedEthertypes, List.mem_cons, List.not_mem_nil, or_false, not_or] at h
  obtain ⟨h1, h2, h3, h4⟩ := h
  rw [decodeEthertype, if_neg h1, if_neg h2, if_neg h3, if_neg h4]

theorem decodeEthertype_isRow (cfg : Config) (t : Half) : IsRow cfg .ethertype t.toNat (decodeEthertype t) := by
  by_cases ht : t ∈ namedEthertypes
  · unfold namedEthertypes at ht
    fin_cases ht <;> exact ⟨rfl, rfl, rfl⟩
  · rw [decodeEthertype_of_not_mem ht]
    exact ⟨rfl, ethertypeOther_wf.mpr ht, rfl⟩

theorem decodeArpPtype_isRow (cfg : Config) (t : Half) : IsRow cfg .arpptype t.toNat (decodeArpPtype t) := by
  unfold decodeArpPtype
  split_ifs with h
  · subst t
    exact ⟨rfl, rfl, rfl⟩
  · exact ⟨rfl, arpPtypeOther_wf.mpr h, rfl⟩

theorem decodeIpproto_isRow (cfg : Config) (p : Byte) : IsRow cfg .ipproto p.toNat (decodeIpproto cfg p) := by
  unfold decodeIpproto
  split_ifs with h1 h2
  · exact ⟨rfl, rfl, congrArg BitVec.toNat h1.symm⟩
  · exact ⟨rfl, rfl, congrArg BitVec.toNat h2.symm⟩
  · exact ⟨rfl, ipprotoOther_wf.mpr ⟨h1, h2⟩, rfl⟩

/-- The named rows of the PROTONAME table, in the order of `Config.protos`. -/
def nameRows : List Instr :=
  [.protonameIcmp, .protonameIgmp, .protonameIpip, .protonameTcp, .protonameUdp, .protonameEsp, .protonameAh,
    .protonameOspf, .protonamePim, .protonameVrrp, .protonameIsis]

/-- One comparison of a lookup: the first row if the key is the first one, else the lookup in the rest. -/
theorem getD_idxOf_cons {α β : Type} [DecidableEq α] (p a : α) (l : List α) (r : β) (rs : List β) (d : β) :
    (r :: rs).getD ((a :: l).idxOf p) d = if p = a then r else rs.getD (l.idxOf p) d := by
  by_cases h : p = a
  · subst h
    simp
  · rw [List.idxOf_cons_ne _ (Ne.symm h), if_neg h, List.getD_cons_succ]

/-- The chain of comparisons of the PROTONAME decoder is a lookup in the list of protocol numbers. -/
theorem decodeProtoname_eq_getD (cfg : Config) (p : Byte) :
    decodeProtoname cfg p = nameRows.getD (cfg.protos.idxOf p) (.protonameHex p) := by
  simp only [nameRows, Config.protos, getD_idxOf_cons, List.getD_nil]
  rfl

theorem protos_nodup {cfg : Config} (h : cfg.valid = true) : cfg.protos.Nodup := by
  simp only [Config.valid, Bool.and_eq_true, decide_eq_true_eq] at h
  exact h.2

/-- The numbers being distinct, each of them selects the row in its own place. -/
theorem decodeProtoname_getElem {cfg : Config} (hv : cfg.valid = true) {k : Nat} (hk : k < cfg.protos.length) :
    decodeProtoname cfg cfg.protos[k] = nameRows[k] := by
  rw [decodeProtoname_eq_getD, (protos_nodup hv).idxOf_getElem, List.getD_eq_getElem nameRows _ hk]

theorem decodeProtoname_of_not_mem {cfg : Config} {p : Byte} (h : p ∉ cfg.protos) :
    decodeProtoname cfg p = .protonameHex p := by
  rw [decodeProtoname_eq_getD, List.idxOf_eq_length h]
  rfl

theorem protoTcp_ne_protoUdp {cfg : Config} (h : cfg.valid = true) : cfg.protoTcp ≠ cfg.protoUdp := by
  have hn := protos_nodup h
  intro e
  simp [Config.protos, e] at hn

/-- The number of a named row is the one in its place in the list of protocol numbers. -/
theorem nameRows_isRow (cfg : Config) {k : Nat} (hk : k < cfg.protos.length) :
    IsRow cfg .protoname cfg.protos[k].toNat nameRows[k] := by
  have hk' : k < 11 := hk
  interval_cases k <;> exact ⟨rfl, rfl, rfl⟩

theorem decodeProtoname_isRow (cfg : Config) (p : Byte) : IsRow cfg .protoname p.toNat (decodeProtoname cfg p) := by
  by_cases hp : p ∈ cfg.protos
  · have hk := List.idxOf_lt_length_of_mem hp
    have row := nameRows_isRow cfg hk
    rw [List.getElem_idxOf] at row
    rwa [decodeProtoname_eq_getD, List.getD_eq_getElem nameRows _ hk]
  · rw [decodeProtoname_of_not_mem hp]
    exact ⟨rfl, protonameHex_wf.mpr hp, rfl⟩

/-! ### Decoding and encoding -/

/-- A number below the bound is the value of a word. -/
theorem exists_toNat_eq {n w : Nat} (h : w < 2 ^ n) : ∃ x : BitVec n, x.toNat = w :=
  ⟨BitVec.ofNat n w, (BitVec.toNat_ofNat w n).trans (Nat.mod_eq_of_lt h)⟩

/-- Every number below the bound of a format selects a row of that format, and the row has that number. -/
theorem rowOf_isRow (cfg : Config) (f : Format) {w : Nat} (hw : w < 256 ^ f.nbytes) :
    IsRow cfg f w (rowOf cfg f w) := by
  cases f with
  | cmd =>
    obtain ⟨c, rfl⟩ := exists_toNat_eq (n := 8) hw
    exact rowOf_cmd cfg c ▸ decodeCmd_isRow cfg c
  | ethertype =>
    obtain ⟨t, rfl⟩ := exists_toNat_eq (n := 16) hw
    exact rowOf_ethertype cfg t ▸ decodeEthertype_isRow cfg t
  | arpptype =>
    obtain ⟨t, rfl⟩ := exists_toNat_eq (n := 16) hw
    exact rowOf_arpptype cfg t ▸ decodeArpPtype_isRow cfg t
  | ipproto =>
    obtain ⟨p, rfl⟩ := exists_toNat_eq (n := 8) hw
    exact rowOf_ipproto cfg p ▸ decodeIpproto_isRow cfg p
  | protoname =>
    obtain ⟨p, rfl⟩ := exists_toNat_eq (n := 8) hw
    exact rowOf_protoname cfg p ▸ decodeProtoname_isRow cfg p

/-- A well-formed row of the PROTONAME table is the one that its own number selects. -/
theorem rowOf_encodeWord_name {cfg : Config} (hv : cfg.valid = true) (k : Nat)
    (hk : k < nameRows.length := by decide) :
    rowOf cfg .protoname (encodeWord cfg nameRows[k]) = nameRows[k] := by
  rw [(nameRows_isRow cfg hk).word, rowOf_protoname, decodeProtoname_getElem hv hk]

/-- A well-formed instruction is the row that its own number selects. -/
theorem rowOf_encodeWord {cfg : Config} (hv : cfg.valid = true) {i : Instr} (hi : i.wf cfg = true) :
    rowOf cfg i.format (encodeWord cfg i) = i := by
  cases i
  case frameDec | ethDec | ethEnc | ethClass | vlanDec | vlanEnc | vlanClass | arpDec | arpEnc | arpClass | ip4Dec
      | ip4Enc | ip4Class | tcpDec | tcpEnc | udpDec | udpEnc | protoName => exact decodeCmd_cmdOf rfl
  case illegal c => exact (rowOf_cmd cfg c).trans (decodeCmd_of_not_mem (illegal_wf.mp hi))
  case ethertypeOther t => exact (rowOf_ethertype cfg t).trans (decodeEthertype_of_not_mem (ethertypeOther_wf.mp hi))
  case arpPtypeOther t => exact (rowOf_arpptype cfg t).trans (if_neg (arpPtypeOther_wf.mp hi))
  case ipprotoTcp => exact (rowOf_ipproto cfg _).trans (if_pos rfl)
  case ipprotoUdp =>
    exact (rowOf_ipproto cfg _).trans ((if_neg (protoTcp_ne_protoUdp hv).symm).trans (if_pos rfl))
  case ipprotoOther p =>
    obtain ⟨ht, hu⟩ := ipprotoOther_wf.mp hi
    exact (rowOf_ipproto cfg p).trans ((if_neg ht).trans (if_neg hu))
  case protonameIcmp => exact rowOf_encodeWord_name hv 0
  case protonameIgmp => exact rowOf_encodeWord_name hv 1
  case protonameIpip => exact rowOf_encodeWord_name hv 2
  case protonameTcp => exact rowOf_encodeWord_name hv 3
  case protonameUdp => exact rowOf_encodeWord_name hv 4
  case protonameEsp => exact rowOf_encodeWord_name hv 5
  case protonameAh => exact rowOf_encodeWord_name hv 6
  case protonameOspf => exact rowOf_encodeWord_name hv 7
  case protonamePim => exact rowOf_encodeWord_name hv 8
  case protonameVrrp => exact rowOf_encodeWord_name hv 9
  case protonameIsis => exact rowOf_encodeWord_name hv 10
  case protonameHex p => exact (rowOf_protoname cfg p).trans (decodeProtoname_of_not_mem (protonameHex_wf.mp hi))
  case ethertypeVlan | ethertypeArp | ethertypeIpv4 | ethertypeIpv6 | arpPtypeIpv4 => rfl

/-- Settles O3: the bytes of an instruction are those of its number, and the number of a well-formed instruction selects
the instruction in its format. -/
theorem decodeOfEncodeGivesTheInstruction : Obligations.DecodeOfEncodeGivesTheInstruction := by
  intro cfg i hv hi
  rw [encode, decodeIn_eq_rowOf cfg (bytesOf_length _ _), be_of_bytesOf (encodeWord_lt cfg i), rowOf_encodeWord hv hi]

/-- Settles O4: the sequence decodes to the row that its value selects, and the number of that row is the value. -/
theorem encodeOfDecodeGivesTheBytes : Obligations.EncodeOfDecodeGivesTheBytes := by
  intro cfg f bs h
  have row := rowOf_isRow cfg f (h ▸ be_lt bs)
  refine ⟨_, decodeIn_eq_rowOf cfg h, row.format, row.wf, ?_⟩
  rw [encode, row.format, row.word, ← h, bytesOf_of_be]

/-- Settles O1: the eighteen bytes are decoded, one by one. -/
theorem commandBytesDecodeToTheirOperations : Obligations.CommandBytesDecodeToTheirOperations := by
  unfold Obligations.CommandBytesDecodeToTheirOperations
  decide

/-- Settles O2: a byte without an operation decodes to the illegal command, which ends with its error. -/
theorem otherCommandBytesRaiseIllegalOp : Obligations.OtherCommandBytesRaiseIllegalOp := by
  refine ⟨not_mem_legalCmds_iff, illegal_count, fun c s hc => ?_⟩
  rw [decodeCmd_of_not_mem hc]
  exact ⟨rfl, rfl⟩

end Sys2Proof.Machine

/-! SUPPORT. Classification: the class of a value, the rows of the second-level tables, and the operations and
pseudo-instructions that report them. -/

namespace Sys2Proof.Machine

/-! ### The class of a value -/

theorem isVlan_iff {t : Half} : isVlan t = true ↔ t = vlanEthertype := beq_iff_eq

theorem isArp_iff {t : Half} : isArp t = true ↔ t = arpEthertype := beq_iff_eq

theorem isIpv4_iff {t : Half} : isIpv4 t = true ↔ t = ipv4Ethertype := beq_iff_eq

theorem arpIsIpv4_iff {r : ArpRec} : arpIsIpv4 r = true ↔ r.ptype = ipv4Ethertype := beq_iff_eq

theorem classifyEthertype_other {t : Half} (hv : t ≠ vlanEthertype) (ha : t ≠ arpEthertype) (hi : t ≠ ipv4Ethertype) :
    classifyEthertype t = (.unknownEther, t) := by
  rw [classifyEthertype, if_neg hv, if_neg ha, if_neg hi]

theorem classifyEthertype_vlan_iff {t : Half} : (classifyEthertype t).1 = .vlan ↔ t = vlanEthertype := by
  unfold classifyEthertype
  split_ifs with hv
  · exact iff_of_true rfl hv
  all_goals exact iff_of_false nofun hv

theorem classifyEthertype_arp_iff {t : Half} : (classifyEthertype t).1 = .arp ↔ t = arpEthertype := by
  unfold classifyEthertype
  split_ifs with hv ha
  · exact iff_of_false nofun (hv ▸ by decide)
  · exact iff_of_true rfl ha
  all_goals exact iff_of_false nofun ha

theorem classifyEthertype_ipv4_iff {t : Half} : (classifyEthertype t).1 = .ipv4 ↔ t = ipv4Ethertype := by
  unfold classifyEthertype
  split_ifs with hv ha hi
  · exact iff_of_false nofun (hv ▸ by decide)
  · exact iff_of_false nofun (ha ▸ by decide)
  · exact iff_of_true rfl hi
  · exact iff_of_false nofun hi

theorem classifyArpPtype_ipv4_iff {r : ArpRec} : (classifyArpPtype r).1 = .ipv4 ↔ r.ptype = ipv4Ethertype := by
  rw [← arpIsIpv4_iff, classifyArpPtype]
  split_ifs with h
  · exact iff_of_true rfl h
  · exact iff_of_false nofun h

theorem classifyProto_tcp_iff {cfg : Config} {p : Byte} : (classifyProto cfg p).1 = .tcp ↔ p = cfg.protoTcp := by
  unfold classifyProto
  split_ifs with ht
  · exact iff_of_true rfl ht
  all_goals exact iff_of_false nofun ht

theorem classifyProto_udp_iff {cfg : Config} (hv : cfg.valid = true) {p : Byte} :
    (classifyProto cfg p).1 = .udp ↔ p = cfg.protoUdp := by
  unfold classifyProto
  split_ifs with ht hu
  · exact iff_of_false nofun (ht ▸ protoTcp_ne_protoUdp hv)
  · exact iff_of_true rfl hu
  · exact iff_of_false nofun hu

/-- Settles O38: the three values are different, and each of them is tested before the rest is unknown. -/
theorem ethertypesFallInExactlyOneClass : Obligations.EthertypesFallInExactlyOneClass := by
  intro t
  refine ⟨?_, ?_, ?_, classifyEthertype_other, isVlan_iff, isArp_iff, isIpv4_iff,
    classifyEthertype_vlan_iff.trans isVlan_iff.symm, classifyEthertype_arp_iff.trans isArp_iff.symm,
    classifyEthertype_ipv4_iff.trans isIpv4_iff.symm, ?_, ?_, ?_⟩
  case refine_1 | refine_2 | refine_3 =>
    rintro rfl
    rfl
  all_goals
    simp only [isVlan_iff, isArp_iff, isIpv4_iff]
    rintro ⟨rfl, h⟩
    exact absurd h (by decide)

/-- Settles O40: admissible numbers of TCP and UDP are different, and the operation reports the class of `IP4.PROTO`. -/
theorem ip4ClassReportsTheProtocol : Obligations.Ip4ClassReportsTheProtocol := by
  refine ⟨by decide, fun cfg p hv => ⟨?_, ?_, ?_⟩, fun cfg s => ?_, fun _ => rfl⟩
  · rintro rfl
    exact if_pos rfl
  · rintro rfl
    exact (if_neg (protoTcp_ne_protoUdp hv).symm).trans (if_pos rfl)
  · intro ht hu
    exact (if_neg ht).trans (if_neg hu)
  · rw [← classifyProto_snd cfg]
    rfl

/-! ### The rows of the second-level tables -/

theorem reportClass_eq (c : FrameClass) (raw : Half) (s : State) :
    reportClass c raw s = .next { s with status := okStatus 0 0 c raw } := rfl

theorem named_eq (name : List Byte) (s : State) :
    named name s = .next { s with pname := pnameOf name, status := okStatus 0 0 .noClass 0 } := rfl

/-- Settles O43: each of these rows reports its class and its value. -/
theorem ethertypeRowsReportTheirClass : Obligations.EthertypeRowsReportTheirClass := fun s =>
  ⟨reportClass_eq _ _ s, reportClass_eq _ _ s, reportClass_eq _ _ s, reportClass_eq _ _ s, reportClass_eq _ _ s,
    fun _ => ⟨reportClass_eq _ _ s, reportClass_eq _ _ s⟩⟩

/-- Settles O44: a row of IPPROTO reports its class and its number, a row of PROTONAME writes its name. -/
theorem protocolRowsReportTheirClassOrName : Obligations.ProtocolRowsReportTheirClassOrName := by
  intro s
  refine ⟨reportClass_eq _ _ s, reportClass_eq _ _ s, fun _ => reportClass_eq _ _ s, fun x hx => ?_,
    fun p => ⟨_, _, rfl, named_eq (hex2 p) s⟩⟩
  fin_cases hx <;> exact named_eq _ s

/-- The row that an ethertype selects reports the class of the ethertype (30_encoding R104, R105). -/
theorem exec_decodeEthertype (t : Half) (s : State) :
    exec (decodeEthertype t) s = finish (Walk.start.classified (classifyEthertype t)) s := by
  unfold decodeEthertype classifyEthertype
  split_ifs
  case neg => rfl
  all_goals
    subst t
    rfl

/-- The row that a protocol type selects reports what ARP_CLASS does (42_arp R169). -/
theorem exec_decodeArpPtype (r : ArpRec) (s : State) :
    exec (decodeArpPtype r.ptype) s = finish (Walk.start.classified (classifyArpPtype r)) s := by
  unfold decodeArpPtype classifyArpPtype
  by_cases h : r.ptype = ipv4Ethertype
  · rw [if_pos h, if_pos (arpIsIpv4_iff.mpr h), h]
    rfl
  · rw [if_neg h, if_neg (mt arpIsIpv4_iff.mp h)]
    rfl

/-- The row that a protocol number selects reports the class of the number (30_encoding R106). -/
theorem exec_decodeIpproto (p : Byte) (s : State) :
    exec (decodeIpproto Config.current p) s = finish (Walk.start.classified (classifyProto Config.current p)) s := by
  unfold decodeIpproto classifyProto
  split_ifs
  case neg => rfl
  all_goals
    subst p
    rfl

/-- One comparison of two chains that run in step: a row that writes its name, or the chains behind it. -/
theorem exec_ite_named {c : Prop} [Decidable c] {i j : Instr} {name other : List Byte} {s : State}
    (hi : exec i s = named name s) (hj : exec j s = named other s) :
    exec (if c then i else j) s = named (if c then name else other) s := by
  split
  · exact hi
  · exact hj

/-- The row that a protocol number selects writes the name of the number (45_protocol_name R240). -/
theorem exec_decodeProtoname (cfg : Config) (p : Byte) (s : State) :
    exec (decodeProtoname cfg p) s = named (protoName cfg p) s := by
  unfold decodeProtoname protoName
  iterate 11 refine exec_ite_named rfl ?_
  rfl

/-- Settles O6: the row that the value selects reports what the operation reports of the value. -/
theorem classifyOperationsDoWhatTheirTableRowDoes : Obligations.ClassifyOperationsDoWhatTheirTableRowDoes := fun s =>
  ⟨(exec_decodeEthertype s.eth.type s).symm, (exec_decodeEthertype s.vlan.type s).symm,
    (exec_decodeArpPtype s.arp s).symm, (exec_decodeIpproto s.ip4.proto s).symm,
    (exec_decodeProtoname Config.current s.ip4.proto s).symm⟩

/-! ### Host actions -/

/-- Settles O8: a LOAD replaces `IBUF` when the bytes are no more than `BUF_CAP`, and a GET only takes its place in the
list of inputs. -/
theorem loadReplacesTheInputBufferAndNothingElse : Obligations.LoadReplacesTheInputBufferAndNothingElse := by
  refine fun s rest => ⟨fun l h => ?_, fun r h => step_get h⟩
  rw [step_load h]
  exact ⟨fun hl => if_pos hl, fun hl => if_neg (Nat.not_le.mpr hl)⟩

/-! ### Pseudo-instructions -/

/-- The eight classes, in the order of their codes (10_state R34). -/
def frameClasses : List FrameClass := [.noClass, .vlan, .arp, .ipv4, .unknownEther, .tcp, .udp, .otherProto]

theorem frameClasses_getElem?_code (c : FrameClass) : frameClasses[c.code.toNat]? = some c := by
  cases c <;> rfl

theorem eq_of_code_toNat_eq {c d : FrameClass} (h : c.code.toNat = d.code.toNat) : c = d := by
  have hc := frameClasses_getElem?_code c
  rw [h, frameClasses_getElem?_code d] at hc
  exact (Option.some.inj hc).symm

/-- A predicate holds when `STATUS` reports the class whose code its "true when" column names (30_encoding R115). -/
theorem pseudoHolds_iff {p : Pseudo} {c : FrameClass} (hp : pseudoClass p = some c.code.toNat) (cfg : Config)
    (t : State) : pseudoHolds cfg p t = true ↔ t.status.cls = c := by
  rw [pseudoHolds, hp]
  constructor
  · intro h
    exact eq_of_code_toNat_eq (Value.int.inj (beq_iff_eq.mp h))
  · rintro rfl
    exact beq_iff_eq.mpr rfl

/-- The expansion of a predicate runs its classify operation, and the GET behind it changes nothing. -/
theorem run_classify {c : Byte} {r : Reg} {s : State} {rest : List Input} {k : FrameClass × Half}
    (h : s.inbox = .cmd c :: .get r :: rest)
    (hc : ∀ inputs, exec (decodeCmd c) { s with inbox := inputs } =
      finish (Walk.start.classified k) { s with inbox := inputs }) :
    Host.Core.run Sys2Proof.core 2 s = .next { s with inbox := rest, status := okStatus 0 0 k.1 k.2 } := by
  have hcmd : step s = .next { s with inbox := .get r :: rest, status := okStatus 0 0 k.1 k.2 } := by
    rw [step_cmd h, hc]
    rfl
  have hget := step_get (s := { s with inbox := .get r :: rest, status := okStatus 0 0 k.1 k.2 }) rfl
  simp only [Host.Core.run, Sys2Proof.core, hcmd, hget]

/-- A predicate tests `P`, when `P` says that its classify operation reports the class it asks for. -/
theorem predicate_tests {p : Pseudo} {c : Byte} {r : Reg} {s : State} {rest : List Input} (k : FrameClass × Half)
    (d : FrameClass) {P : Prop} (h : s.inbox = .cmd c :: .get r :: rest)
    (hc : ∀ inputs, exec (decodeCmd c) { s with inbox := inputs } =
      finish (Walk.start.classified k) { s with inbox := inputs })
    (hp : pseudoClass p = some d.code.toNat) (hk : k.1 = d ↔ P) :
    ∃ t, Host.Core.run Sys2Proof.core 2 s = .next t ∧ sameButStatus { s with inbox := rest } t ∧
      (pseudoHolds Config.current p t = true ↔ P) :=
  ⟨_, run_classify h hc, rfl, (pseudoHolds_iff hp _ _).trans hk⟩

/-- Settles O13: the expansion runs the classify operation of the register named, and the class asked for is the one of
the value named. -/
theorem pseudoInstructionsTestWhatTheyName : Obligations.PseudoInstructionsTestWhatTheyName := by
  refine fun s rest => ⟨fun p hp h => ?_, fun h => ?_⟩
  · cases p with
    | isVlan =>
      exact predicate_tests (classifyEthertype s.eth.type) .vlan h (fun _ => rfl) rfl classifyEthertype_vlan_iff
    | isArp =>
      exact predicate_tests (classifyEthertype s.eth.type) .arp h (fun _ => rfl) rfl classifyEthertype_arp_iff
    | isIpv4 =>
      exact predicate_tests (classifyEthertype s.eth.type) .ipv4 h (fun _ => rfl) rfl classifyEthertype_ipv4_iff
    | arpIsIpv4 =>
      exact predicate_tests (classifyArpPtype s.arp) .ipv4 h (fun _ => rfl) rfl classifyArpPtype_ipv4_iff
    | isTcp =>
      exact predicate_tests (classifyProto Config.current s.ip4.proto) .tcp h (fun _ => rfl) rfl classifyProto_tcp_iff
    | isUdp =>
      exact predicate_tests (classifyProto Config.current s.ip4.proto) .udp h (fun _ => rfl) rfl
        (classifyProto_udp_iff (by decide))
    | rewind => exact absurd rfl hp
  · rw [step_set h]
    rfl

end Sys2Proof.Machine

/-! SUPPORT. The EtherFrame codec (40_ethernet): the header at the cursor, its round trips through the pure functions and
through the operations, and the classify operations of the three units that have an ethertype. -/

namespace Sys2Proof.Machine

/-! ### ETH_DEC and ETH_ENC -/

theorem exec_ethDec (s : State) : exec .ethDec s = singleDecode .eth (layerEth s) := rfl

/-- Settles O21: on a canonical buffer the layer of ETH_DEC raises `TooShort` below 14 bytes and reads the header
otherwise. -/
theorem ethDecReadsTheHeaderAtTheCursor : Obligations.EthDecReadsTheHeaderAtTheCursor := by
  refine ⟨by decide, fun s hw => ⟨fun hn => ?_, fun hn => ?_⟩⟩
  · rw [exec_ethDec, layerEth_eq hw, if_neg (Nat.not_lt.mpr hn), singleDecode_eq]
    rfl
  · rw [exec_ethDec, layerEth_eq hw, if_pos hn, singleDecode_eq]

/-- ETH_ENC outputs what the build function gives (40_ethernet R132, R133). -/
theorem exec_ethEnc (s : State) : exec .ethEnc s =
    .next { s with obuf := Memory.ofBytes (ethBuild s.eth), status := okStatus 14 0 .noClass 0 } := by
  rw [← ethOut_eq]
  exact encoded_eq _ _ s

/-- Settles O27: the output is the one of the build function, whose last two bytes are the halves of the type. -/
theorem ethEncWritesFourteenBytes : Obligations.EthEncWritesFourteenBytes := by
  refine ⟨by decide, fun s => ?_⟩
  rw [exec_ethEnc, ethBuild, bytes2_eq, hiLo]

/-! ### Round trips -/

/-- A state whose view is the given sequence: what the view of a state satisfies, every sequence does. -/
def State.onView (v : List Byte) : State := { State.reset with ibuf := Memory.ofBytes v }

@[simp] theorem onView_wf (v : List Byte) : (State.onView v).ibuf.wf = true := ofBytes_wf v

@[simp] theorem onView_view (v : List Byte) : (State.onView v).view = v := ofBytes_bytes v

@[simp] theorem onView_avail (v : List Byte) : (State.onView v).avail = v.length := ofBytes_len v

/-- The parse of any sequence, by the header that stands at its start. -/
theorem ethParse_eq (v : List Byte) : ethParse v =
    if v.length < 14 then .error (.tooShort 14 v.length) else .ok (ethAt (State.onView v) 0, 14) := by
  have h := ethParse_view (onView_wf v)
  rwa [onView_view, onView_avail] at h

theorem ethParse_ethBuild (r : EthRec) : ethParse (ethBuild r) = .ok (r, 14) := by
  rw [ethBuild, bytes2_eq]
  simp only [ethParse, Bytes6.toList, List.cons_append, List.nil_append, beW16_split]

/-- Building the header at an offset gives back the bytes that stand there. -/
theorem ethBuild_ethAt (s : State) (k : Nat) : ethBuild (ethAt s k) = bytesAt s k 14 := by
  simp [ethBuild, ethAt, macAt, halfAt, ← beW16_eq, Bytes6.toList, bytesAt, List.range_succ]

/-- On a view that the build function made, ETH_DEC reads back the record it was made from, whatever it finds in `ETH`. -/
theorem exec_ethDec_of_view_eq_ethBuild {t : State} {r : EthRec} (hw : t.ibuf.wf = true) (hv : t.view = ethBuild r) :
    exec .ethDec t =
      .next { t with eth := r, cur := t.cur + 14, status := okStatus 14 (layerBit .eth) .noClass 0 } := by
  rw [exec_ethDec, singleDecode_eq_wireDecode (layerEth_eq_parsedLayer hw), hv, ethParse_ethBuild]
  rfl

/-- Settles O33: parse and build are inverse on the fourteen bytes, and ETH_DEC on the loaded output of ETH_ENC finds a
view that the build function made. -/
theorem ethernetHeadersRoundTrip : Obligations.EthernetHeadersRoundTrip := by
  refine ⟨ethParse_ethBuild, fun v hv => ?_, fun v hv => ?_, fun s r => ?_⟩
  · refine ⟨_, (ethParse_eq v).trans (if_neg (Nat.not_lt.mpr hv)), ?_⟩
    rw [ethBuild_ethAt, bytesAt_view (onView_wf v) (by simpa using hv), onView_view, List.drop_zero]
  · exact (ethParse_eq v).trans (if_pos hv)
  · exact ⟨_, _, _, exec_ethEnc s, exec_ethDec_of_view_eq_ethBuild (ofBytes_wf _) (ofBytes_bytes _), rfl, rfl,
      finish_eq _ _, rfl, classifyEthertype_snd _, rfl⟩

/-! ### The classify operations -/

/-- The class of an ethertype as one choice, beside the value itself (30_encoding R104). -/
theorem classifyEthertype_eq (t : Half) : classifyEthertype t =
    (if t = vlanEthertype then .vlan else if t = arpEthertype then .arp
      else if t = ipv4Ethertype then .ipv4 else .unknownEther, t) := by
  unfold classifyEthertype
  split_ifs <;> rfl

theorem exec_ethClass (s : State) : exec .ethClass s = finish (Walk.start.classified (classifyEthertype s.eth.type)) s :=
  rfl

theorem exec_vlanClass (s : State) :
    exec .vlanClass s = finish (Walk.start.classified (classifyEthertype s.vlan.type)) s := rfl

theorem exec_arpClass (s : State) : exec .arpClass s = finish (Walk.start.classified (classifyArpPtype s.arp)) s := rfl

/-- The class of a protocol type as one choice, beside the value itself (42_arp R169). -/
theorem classifyArpPtype_eq (r : ArpRec) :
    classifyArpPtype r = (if r.ptype = ipv4Ethertype then .ipv4 else .unknownEther, r.ptype) := by
  simp only [classifyArpPtype, arpIsIpv4_iff]

/-- Settles O39: each of the three ends by reporting the class and the value of its register. -/
theorem ethVlanAndArpClassReportTheirValue : Obligations.EthVlanAndArpClassReportTheirValue := by
  refine ⟨by decide, by decide, by decide, fun s => ⟨?_, ?_, arpIsIpv4_iff, ?_⟩⟩
  · rw [exec_ethClass, classifyEthertype_eq]
    rfl
  · rw [exec_vlanClass, classifyEthertype_eq]
    rfl
  · rw [exec_arpClass, classifyArpPtype_eq]
    rfl

end Sys2Proof.Machine

/-! SUPPORT. The VlanTag codec (41_vlan): the tag at the cursor, the packed first field as one number, the round trips, and
the range of the VLAN id at the SET. -/

namespace Sys2Proof.Machine

/-! ### VLAN_DEC -/

theorem exec_vlanDec (s : State) : exec .vlanDec s = singleDecode .vlan (layerVlan s) := rfl

/-- Settles O22: on a canonical buffer the layer of VLAN_DEC raises `TooShort` below 4 bytes and reads the tag
otherwise. -/
theorem vlanDecReadsTheTagAtTheCursor : Obligations.VlanDecReadsTheTagAtTheCursor := by
  refine ⟨by decide, fun s hw => ⟨fun hn => ?_, fun hn => ?_⟩⟩
  · rw [exec_vlanDec, layerVlan_eq hw, if_neg (Nat.not_lt.mpr hn), singleDecode_eq]
    rfl
  · rw [exec_vlanDec, layerVlan_eq hw, if_pos hn, singleDecode_eq]

/-! ### VLAN_ENC -/

/-- VLAN_ENC outputs what the build function gives (41_vlan R152, R153). -/
theorem exec_vlanEnc (s : State) : exec .vlanEnc s =
    .next { s with obuf := Memory.ofBytes (vlanBuild s.vlan), status := okStatus 4 0 .noClass 0 } := by
  rw [← vlanOut_eq]
  exact encoded_eq _ _ s

/-- The first two bytes that are built hold `TC` then `VID`, bit for bit (30_encoding R101). -/
theorem vlanBuild_eq (r : VlanRec) :
    vlanBuild r = [r.tc ++ r.vid.extractLsb' 8 4, r.vid.extractLsb' 0 8] ++ hiLo r.type := by
  rw [vlanBuild, bytes2_eq, bytes2_eq, vlanField_hi, vlanField_lo, hiLo]

/-- Settles O28: the output is the one of the build function, laid out byte by byte. -/
theorem vlanEncWritesFourBytes : Obligations.VlanEncWritesFourBytes :=
  ⟨by decide, fun s => vlanBuild_eq s.vlan ▸ exec_vlanEnc s⟩

/-! ### Round trips -/

/-- The parse of any sequence, by the tag that stands at its start. -/
theorem vlanParse_eq (v : List Byte) : vlanParse v =
    if v.length < 4 then .error (.tooShort 4 v.length) else .ok (vlanAt (State.onView v) 0, 4) := by
  have h := vlanParse_view (onView_wf v)
  rwa [onView_view, onView_avail] at h

theorem vlanParse_vlanBuild (r : VlanRec) : vlanParse (vlanBuild r) = .ok (r, 4) := by
  rw [vlanBuild, bytes2_eq, bytes2_eq]
  simp only [vlanParse, List.cons_append, List.nil_append, beW16_split, vlanTcOf_field, vlanVidOf_field]

/-- Building the tag at an offset gives back the bytes that stand there. -/
theorem vlanBuild_vlanAt (s : State) (k : Nat) : vlanBuild (vlanAt s k) = bytesAt s k 4 := by
  have hf : vlanField (vlanAt s k).tc (vlanAt s k).vid = halfAt s k := vlanField_of _
  rw [vlanBuild, hf]
  simp [vlanAt, halfAt, ← beW16_eq, bytesAt, List.range_succ]

/-- Settles O34: splitting the first field and packing it are inverse, and the type is its two bytes. -/
theorem vlanTagsRoundTrip : Obligations.VlanTagsRoundTrip := by
  refine ⟨vlanParse_vlanBuild, fun v hv => ?_, fun v hv => (vlanParse_eq v).trans (if_pos hv)⟩
  refine ⟨_, (vlanParse_eq v).trans (if_neg (Nat.not_lt.mpr hv)), ?_⟩
  rw [vlanBuild_vlanAt, bytesAt_view (onView_wf v) (by simpa using hv), onView_view, List.drop_zero]

/-! ### The range of the VLAN id -/

/-- A SET of a VLAN id that fits writes the id and nothing else. -/
theorem hostSet_vlanVid_of_le {n : Nat} (h : n ≤ 4095) (s : State) :
    hostSet .vlanVid (.int n) s = .next { s with vlan.vid := BitVec.ofNat 12 n } := by
  have hn : n < 2 ^ 12 := Nat.lt_succ_of_le h
  rw [hostSet, writeReg, setInt, if_pos hn]

theorem fits_vlanVid_of_lt {n : Nat} (h : 4095 < n) : fits .vlanVid (.int n) = false :=
  decide_eq_false (Nat.not_lt.mpr h)

/-- The two parts of the first field do not overlap, so packing them is a sum: nothing is masked. -/
theorem vlanField_toNat (tc : BitVec 4) (vid : BitVec 12) :
    (vlanField tc vid).toNat = tc.toNat * 4096 + vid.toNat := by
  have htc := tc.isLt
  have hvid := vid.isLt
  rw [vlanField, BitVec.toNat_or, BitVec.toNat_shiftLeft, BitVec.toNat_setWidth, BitVec.toNat_setWidth,
    Nat.mod_eq_of_lt (by omega), Nat.mod_eq_of_lt (by omega), Nat.shiftLeft_eq, Nat.mod_eq_of_lt (by omega),
    ← Nat.shiftLeft_eq, ← Nat.shiftLeft_add_eq_or_of_lt hvid, Nat.shiftLeft_eq]

theorem be_bytes2 (v : Half) : be (bytes2 v) = v.toNat := be_of_bytesOf v.isLt

theorem vlanBuild_take_two (r : VlanRec) : (vlanBuild r).take 2 = bytes2 (vlanField r.tc r.vid) :=
  List.take_left' (bytes2_length _)

/-- Settles O11: a SET takes the ids of twelve bits as they are and refuses the others, and VLAN_ENC packs the id beside
`TC`. -/
theorem vlanIdRangeIsCheckedByTheSet : Obligations.VlanIdRangeIsCheckedByTheSet := by
  refine ⟨fun s n rest h => ⟨fun hn => ?_, fun hn => ?_⟩, fun s => ⟨_, exec_vlanEnc s, rfl, ?_⟩⟩
  · rw [step_set h, hostSet_of_not_fits (fits_vlanVid_of_lt hn)]
    rfl
  · exact ⟨_, (step_set h).trans (hostSet_vlanVid_of_le hn _), Nat.mod_eq_of_lt (Nat.lt_succ_of_le hn), rfl⟩
  · rw [ofBytes_bytes, vlanBuild_take_two, be_bytes2, vlanField_toNat]

end Sys2Proof.Machine

/-! SUPPORT. The ArpMessage codec (42_arp): the message at the cursor, the message a record has on the wire, the first address
whose length is not the declared one, and the round trips for every pair of declared lengths. -/

namespace Sys2Proof.Machine

/-! ### ARP_DEC -/

theorem exec_arpDec (s : State) : exec .arpDec s = singleDecode .arp (layerArp s) := rfl

/-- Settles O23: on a canonical buffer the layer of ARP_DEC raises `TooShort` below 8 bytes and below the declared total,
and reads the message otherwise. -/
theorem arpDecChecksTheTotalBeforeAnyAddress : Obligations.ArpDecChecksTheTotalBeforeAnyAddress := by
  refine ⟨by decide, fun s hw => ⟨fun h8 ht => ?_, fun h8 ht => ?_, fun h8 => ?_⟩⟩ <;> rw [exec_arpDec, layerArp_eq hw]
  · rw [if_neg (Nat.not_lt.mpr h8), if_neg (Nat.not_lt.mpr ht), singleDecode_eq]
    rfl
  · rw [if_neg (Nat.not_lt.mpr h8), if_pos ht, singleDecode_eq]
  · rw [if_pos h8, singleDecode_eq]

/-! ### ARP_ENC -/

/-- The bytes of a message, field by field as the offset table of 30_encoding R97 lays them out. -/
def ArpRec.message (r : ArpRec) : List Byte :=
  hiLo r.htype ++ hiLo r.ptype ++ [r.hlen, r.plen] ++ hiLo r.op ++ r.sha ++ r.spa ++ r.tha ++ r.tpa

theorem ArpRec.valid_iff (r : ArpRec) : r.valid = true ↔
    r.sha.length = r.hlen.toNat ∧ r.tha.length = r.hlen.toNat ∧ r.spa.length = r.plen.toNat ∧
      r.tpa.length = r.plen.toNat := by
  simp only [ArpRec.valid, Bool.and_eq_true, beq_iff_eq, and_assoc]

/-- A valid record builds to its message (42_arp R167). -/
theorem arpBuild_of_valid {r : ArpRec} (h : r.valid = true) : arpBuild r = .ok r.message := by
  obtain ⟨hsha, htha, hspa, htpa⟩ := r.valid_iff.mp h
  simp [arpBuild, hsha, hspa, htha, htpa, ArpRec.message, bytes1_eq, bytes2_eq, hiLo]

theorem ArpRec.message_length {r : ArpRec} (h : r.valid = true) :
    r.message.length = 8 + 2 * (r.hlen.toNat + r.plen.toNat) := by
  obtain ⟨hsha, htha, hspa, htpa⟩ := r.valid_iff.mp h
  simp only [ArpRec.message, hiLo, List.length_append, List.length_cons, List.length_nil, hsha, hspa, htha, htpa]
  omega

theorem exec_arpEnc (s : State) : exec .arpEnc s = execArpEnc s := rfl

/-- A valid record makes `OBUF` its message (42_arp R168). -/
theorem exec_arpEnc_of_valid {s : State} (h : s.arp.valid = true) : exec .arpEnc s = .next
    { s with obuf := Memory.ofBytes s.arp.message
             status := okStatus (BitVec.ofNat 16 (8 + 2 * (s.arp.hlen.toNat + s.arp.plen.toNat))) 0 .noClass 0 } := by
  rw [exec_arpEnc, execArpEnc_eq_wireEncode, arpBuild_of_valid h, wireEncode, ArpRec.message_length h]

/-- Settles O29: a valid record is output whole, and otherwise the checks in front of the first address of another length
pass and its own check raises the error. -/
theorem arpEncWritesTheMessageOrReportsTheFirstMismatch :
    Obligations.ArpEncWritesTheMessageOrReportsTheFirstMismatch := by
  refine ⟨by decide, fun s => ⟨fun hsha hspa htha htpa => ?_, fun hsha => ?_, fun hsha hspa => ?_,
    fun hsha hspa htha => ?_, fun hsha hspa htha htpa => ?_⟩⟩
  · exact exec_arpEnc_of_valid (s.arp.valid_iff.mpr ⟨hsha, htha, hspa, htpa⟩)
  · rw [exec_arpEnc, execArpEnc]
    exact checkAddr_of_ne hsha
  · rw [exec_arpEnc, execArpEnc, checkAddr_of_eq hsha]
    exact checkAddr_of_ne hspa
  · rw [exec_arpEnc, execArpEnc, checkAddr_of_eq hsha, checkAddr_of_eq hspa]
    exact checkAddr_of_ne htha
  · rw [exec_arpEnc, execArpEnc, checkAddr_of_eq hsha, checkAddr_of_eq hspa, checkAddr_of_eq htha]
    exact checkAddr_of_ne htpa

/-! ### Round trips -/

/-- The parse of any sequence, by the message that stands at its start. -/
theorem arpParse_eq (v : List Byte) : arpParse v =
    if v.length < 8 then .error (.tooShort 8 v.length) else
      if v.length < arpTotalAt (State.onView v) 0 then .error (.tooShort (arpTotalAt (State.onView v) 0) v.length)
      else .ok (arpAt (State.onView v) 0, arpTotalAt (State.onView v) 0) := by
  have h := arpParse_view (onView_wf v)
  rwa [onView_view, onView_avail] at h

@[simp] theorem bytesAt_length (s : State) (k n : Nat) : (bytesAt s k n).length = n := by simp [bytesAt]

theorem bytesAt_add (s : State) (k m n : Nat) : bytesAt s k (m + n) = bytesAt s k m ++ bytesAt s (k + m) n := by
  simp [bytesAt, List.range_add, Nat.add_assoc]

/-- The four addresses of the message at an offset have the lengths that stand in its bytes 4 and 5. -/
theorem arpAt_valid (s : State) (k : Nat) : (arpAt s k).valid = true := by
  simp [ArpRec.valid_iff, arpAt, arpHlenAt, arpPlenAt]

/-- The message of the record at an offset is the bytes that stand there: the eight of the fixed part, then the four
addresses, each where the one before it ends. -/
theorem arpAt_message (s : State) (k : Nat) : (arpAt s k).message = bytesAt s k (arpTotalAt s k) := by
  have htotal : arpTotalAt s k = 8 + arpHlenAt s k + arpPlenAt s k + arpHlenAt s k + arpPlenAt s k := by
    unfold arpTotalAt
    omega
  have htpa : k + 8 + 2 * arpHlenAt s k + arpPlenAt s k = k + 8 + arpHlenAt s k + arpPlenAt s k + arpHlenAt s k := by
    omega
  have hfixed : hiLo (halfAt s k) ++ hiLo (halfAt s (k + 2)) ++ [byteAt s (k + 4), byteAt s (k + 5)]
      ++ hiLo (halfAt s (k + 6)) = bytesAt s k 8 := by
    simp [hiLo, ← bytes2_eq, halfAt, ← beW16_eq, bytesAt, List.range_succ]
  rw [ArpRec.message, arpAt, htpa, hfixed, htotal]
  simp only [bytesAt_add, List.append_assoc, Nat.add_assoc]

/-- A successful parse is the message at the start of the view, which is long enough to hold it. -/
theorem arpParse_ok {v : List Byte} {r : ArpRec} {n : Nat} (h : arpParse v = .ok (r, n)) :
    r = arpAt (State.onView v) 0 ∧ n = arpTotalAt (State.onView v) 0 ∧ n ≤ v.length := by
  rw [arpParse_eq] at h
  split_ifs at h with h8 ht
  obtain ⟨rfl, rfl⟩ := Prod.mk.inj (Except.ok.inj h)
  exact ⟨rfl, rfl, Nat.not_lt.mp ht⟩

/-- The parse of a valid record's message returns the record, all of the message consumed. -/
theorem arpParse_message {r : ArpRec} (h : r.valid = true) :
    arpParse r.message = .ok (r, 8 + 2 * (r.hlen.toNat + r.plen.toNat)) := by
  have hlength := ArpRec.message_length h
  obtain ⟨hsha, htha, hspa, htpa⟩ := r.valid_iff.mp h
  have hcons : r.message = r.htype.extractLsb' 8 8 :: r.htype.extractLsb' 0 8 :: r.ptype.extractLsb' 8 8 ::
      r.ptype.extractLsb' 0 8 :: r.hlen :: r.plen :: r.op.extractLsb' 8 8 :: r.op.extractLsb' 0 8 ::
      (r.sha ++ (r.spa ++ (r.tha ++ r.tpa))) := by
    simp [ArpRec.message, hiLo]
  have hoffset : 2 * r.hlen.toNat + r.plen.toNat = r.hlen.toNat + r.plen.toNat + r.hlen.toNat := by omega
  rw [hcons] at hlength ⊢
  rw [arpParse, arpTotal_toNat, hlength, if_neg (Nat.lt_irrefl _), hoffset]
  simp only [beW16_split, ← List.drop_drop, List.drop_left' hsha, List.drop_left' hspa, List.drop_left' htha,
    List.take_left' hsha, List.take_left' hspa, List.take_left' htha, List.take_of_length_le htpa.le]

/-- Settles O35: a parse gives the message at the start of the view, whose addresses have their declared lengths and whose
bytes are those it was read from; a valid record is cut out of its own message. -/
theorem arpMessagesRoundTrip : Obligations.ArpMessagesRoundTrip := by
  refine ⟨ArpRec.valid_iff, fun v r n h => ?_, fun r h => ⟨_, arpBuild_of_valid h, arpParse_message h⟩,
    fun v hv hhlen hplen => ?_⟩
  · obtain ⟨rfl, rfl, hn⟩ := arpParse_ok h
    refine ⟨arpAt_valid _ _, ?_⟩
    rw [arpBuild_of_valid (arpAt_valid _ _), arpAt_message, bytesAt_view (onView_wf v) (by simpa using hn), onView_view,
      List.drop_zero]
  · have htotal : arpTotalAt (State.onView v) 0 = 28 := by
      simp [arpTotalAt, arpHlenAt, arpPlenAt, byteAt_view (onView_wf v), hhlen, hplen]
    refine ⟨arpAt (State.onView v) 0, ?_⟩
    rw [arpParse_eq, htotal, hv]
    rfl

end Sys2Proof.Machine

/-! SUPPORT. The Ipv4Header codec (43_ipv4): the header at the cursor, the twenty bytes a record has on the wire, and the
round trips of accepted and rejected records. -/

namespace Sys2Proof.Machine

/-! ### IP4_DEC -/

theorem exec_ip4Dec (s : State) : exec .ip4Dec s = singleDecode .ip4 (layerIp4 s) := rfl

/-- Settles O24: on a canonical buffer the layer of IP4_DEC raises `TooShort` below 20 bytes, reads the header otherwise,
and then rejects a version other than 4 with the header already in the registers. -/
theorem ip4DecReadsTheHeaderAndRejectsOtherVersions : Obligations.Ip4DecReadsTheHeaderAndRejectsOtherVersions := by
  refine ⟨by decide, fun s hw => ⟨fun hn hv => ?_, fun hn hv => ?_, fun hn => ?_⟩⟩ <;>
    rw [exec_ip4Dec, layerIp4_eq hw]
  · rw [if_neg (Nat.not_lt.mpr hn), if_neg (not_not.mpr hv), singleDecode_eq]
    rfl
  · rw [if_neg (Nat.not_lt.mpr hn), if_pos hv, singleDecode_eq]
  · rw [if_pos hn, singleDecode_eq]

/-! ### IP4_ENC -/

/-- IP4_ENC outputs what the build function gives, for every record (43_ipv4 R192, R193). -/
theorem exec_ip4Enc (s : State) : exec .ip4Enc s =
    .next { s with obuf := Memory.ofBytes (ip4Build s.ip4), status := okStatus 20 0 .noClass 0 } := by
  rw [← ip4Out_eq]
  exact encoded_eq _ _ s

/-- The bytes that are built hold the fields in wire order, and each packed field holds its parts bit for bit (30_encoding
R98, R102, R103). -/
theorem ip4Build_eq (r : Ip4Rec) : ip4Build r =
    [r.ver ++ r.ihl, r.tos] ++ hiLo r.tlen ++ hiLo r.id ++ [r.flags ++ r.foff.extractLsb' 8 5, r.foff.extractLsb' 0 8]
      ++ [r.ttl, r.proto] ++ hiLo r.csum ++ r.src.toList ++ r.dst.toList := by
  simp only [ip4Build, bytes1_eq, bytes2_eq, ip4Byte0_eq, ip4FragField_hi, ip4FragField_lo, hiLo, List.cons_append,
    List.nil_append]

/-- Settles O30: the output is the one of the build function, laid out byte by byte. -/
theorem ip4EncWritesTwentyBytes : Obligations.Ip4EncWritesTwentyBytes :=
  ⟨by decide, fun s => ip4Build_eq s.ip4 ▸ exec_ip4Enc s⟩

/-! ### Round trips -/

theorem Ip4Rec.valid_iff (r : Ip4Rec) : r.valid = true ↔ r.ver = 4 := beq_iff_eq

/-- The parse of any sequence, by the header that stands at its start. -/
theorem ip4Parse_eq (v : List Byte) : ip4Parse v =
    if v.length < 20 then .error (.tooShort 20 v.length) else
      if (ip4At (State.onView v) 0).ver ≠ 4 then .error (.unsupportedVersion (ip4At (State.onView v) 0))
      else .ok (ip4At (State.onView v) 0, 20) := by
  have h := ip4Parse_view (onView_wf v)
  rwa [onView_view, onView_avail] at h

/-- The fields of the bytes a record is built to are the record, whatever its version. -/
theorem ip4Fields_ip4Build (r : Ip4Rec) : ip4Fields (ip4Build r) = some r := by
  simp only [ip4Build, bytes1_eq, bytes2_eq, Bytes4.toList, List.cons_append, List.nil_append, ip4Fields, beW16_split,
    ip4VerOf_byte0, ip4IhlOf_byte0, ip4FlagsOf_field, ip4FoffOf_field]

theorem ip4Parse_ip4Build {r : Ip4Rec} (h : r.ver = 4) : ip4Parse (ip4Build r) = .ok (r, 20) := by
  rw [ip4Parse, ip4Fields_ip4Build]
  exact if_neg (not_not.mpr h)

/-- Building the header at an offset gives back the bytes that stand there, whatever version they hold. -/
theorem ip4Build_ip4At (s : State) (k : Nat) : ip4Build (ip4At s k) = bytesAt s k 20 := by
  have hb : ip4Byte0 (ip4At s k).ver (ip4At s k).ihl = byteAt s k := ip4Byte0_of _
  have hf : ip4FragField (ip4At s k).flags (ip4At s k).foff = halfAt s (k + 6) := ip4FragField_of _
  rw [ip4Build, hb, hf]
  simp [ip4At, halfAt, ipAt, Bytes4.toList, bytes1_eq, ← beW16_eq, bytesAt, List.range_succ]

/-- Settles O36: splitting the packed fields and joining them are inverse, and the version check comes after the record is
read, so a rejected record holds its twenty bytes as an accepted one does. -/
theorem ipv4HeadersRoundTrip : Obligations.Ipv4HeadersRoundTrip := by
  refine ⟨Ip4Rec.valid_iff, fun r hr => ip4Parse_ip4Build (r.valid_iff.mp hr), fun v hv => ?_,
    fun v hv => (ip4Parse_eq v).trans (if_pos hv)⟩
  refine ⟨ip4At (State.onView v) 0, ?_, ?_⟩
  · rw [ip4Build_ip4At, bytesAt_view (onView_wf v) (by simpa using hv), onView_view, List.drop_zero]
  · rw [ip4Parse_eq, if_neg (Nat.not_lt.mpr hv)]
    by_cases hver : (ip4At (State.onView v) 0).ver = 4
    · exact .inl ⟨hver, if_neg (not_not.mpr hver)⟩
    · exact .inr ⟨hver, if_pos hver⟩

end Sys2Proof.Machine

/-! SUPPORT. The TcpHeader and UdpHeader codecs (44_tcp_udp): what a decode of a header of fixed length does on each side of
that length, the bytes the two records have on the wire, and their round trips. -/

namespace Sys2Proof.Machine

/-! ### TCP_DEC and UDP_DEC -/

theorem exec_tcpDec (s : State) : exec .tcpDec s = singleDecode .tcp (layerTcp s) := rfl

theorem exec_udpDec (s : State) : exec .udpDec s = singleDecode .udp (layerUdp s) := rfl

/-- A decode whose layer checks one length alone: with enough bytes the state the layer leaves and its length in `STATUS`,
and with fewer nothing but a `TooShort`. -/
theorem singleDecode_fixedLength {u : CodecUnit} {o : LayerOut} {s t : State} {need : Nat} {n act : Half}
    (h : o = if s.avail < need then .raised s .tooShort n act else .decoded t n) :
    (need ≤ s.avail → singleDecode u o = .next { t with status := okStatus n (layerBit u) .noClass 0 }) ∧
    (s.avail < need → singleDecode u o = .next { s with status := errStatus .tooShort u n act }) := by
  refine ⟨fun hn => ?_, fun hn => ?_⟩
  · rw [h, if_neg (Nat.not_lt.mpr hn), singleDecode_eq]
  · rw [h, if_pos hn, singleDecode_eq]

/-- Settles O25: on a canonical buffer the layer of TCP_DEC checks the twenty bytes of the header and reads it. -/
theorem tcpDecReadsTheHeaderAtTheCursor : Obligations.TcpDecReadsTheHeaderAtTheCursor :=
  ⟨by decide, fun s hw => exec_tcpDec s ▸ singleDecode_fixedLength (layerTcp_eq hw)⟩

/-- Settles O26: on a canonical buffer the layer of UDP_DEC checks the eight bytes of the header and reads it. -/
theorem udpDecReadsTheHeaderAtTheCursor : Obligations.UdpDecReadsTheHeaderAtTheCursor :=
  ⟨by decide, fun s hw => exec_udpDec s ▸ singleDecode_fixedLength (layerUdp_eq hw)⟩

/-! ### TCP_ENC and UDP_ENC -/

/-- TCP_ENC outputs what the build function gives, whatever `TCP.DOFF` holds (44_tcp_udp R217, R218). -/
theorem exec_tcpEnc (s : State) : exec .tcpEnc s =
    .next { s with obuf := Memory.ofBytes (tcpBuild s.tcp), status := okStatus 20 0 .noClass 0 } := by
  rw [← tcpOut_eq]
  exact encoded_eq _ _ s

/-- UDP_ENC outputs what the build function gives (44_tcp_udp R222, R223). -/
theorem exec_udpEnc (s : State) : exec .udpEnc s =
    .next { s with obuf := Memory.ofBytes (udpBuild s.udp), status := okStatus 8 0 .noClass 0 } := by
  rw [← udpOut_eq]
  exact encoded_eq _ _ s

/-- The bytes that are built hold the fields in wire order, byte 12 whole (30_encoding R99). -/
theorem tcpBuild_eq (r : TcpRec) : tcpBuild r =
    hiLo r.sport ++ hiLo r.dport ++ fourBytes r.seq ++ fourBytes r.ack ++ [r.doff, r.ctrl] ++ hiLo r.win ++ hiLo r.csum
      ++ hiLo r.urg := by
  simp only [tcpBuild, bytes1_eq, bytes2_eq, bytes4_eq, hiLo, fourBytes, List.cons_append, List.nil_append]

/-- The bytes that are built hold the fields in wire order (30_encoding R100). -/
theorem udpBuild_eq (r : UdpRec) : udpBuild r = hiLo r.sport ++ hiLo r.dport ++ hiLo r.len ++ hiLo r.csum := by
  simp only [udpBuild, bytes2_eq, hiLo]

/-- Settles O31: the output is the one of the build function, laid out byte by byte. -/
theorem transportEncodesWriteTheirFields : Obligations.TransportEncodesWriteTheirFields :=
  ⟨by decide, by decide, fun s => tcpBuild_eq s.tcp ▸ exec_tcpEnc s, fun s => udpBuild_eq s.udp ▸ exec_udpEnc s⟩

/-! ### Round trips -/

/-- The parse of any sequence, by the header that stands at its start. -/
theorem tcpParse_eq (v : List Byte) : tcpParse v =
    if v.length < 20 then .error (.tooShort 20 v.length) else .ok (tcpAt (State.onView v) 0, 20) := by
  have h := tcpParse_view (onView_wf v)
  rwa [onView_view, onView_avail] at h

/-- The parse of any sequence, by the header that stands at its start. -/
theorem udpParse_eq (v : List Byte) : udpParse v =
    if v.length < 8 then .error (.tooShort 8 v.length) else .ok (udpAt (State.onView v) 0, 8) := by
  have h := udpParse_view (onView_wf v)
  rwa [onView_view, onView_avail] at h

theorem tcpParse_tcpBuild (r : TcpRec) : tcpParse (tcpBuild r) = .ok (r, 20) := by
  simp only [tcpBuild, bytes1_eq, bytes2_eq, bytes4_eq, List.cons_append, List.nil_append, tcpParse, beW16_split,
    beW32_split]

theorem udpParse_udpBuild (r : UdpRec) : udpParse (udpBuild r) = .ok (r, 8) := by
  simp only [udpBuild, bytes2_eq, List.cons_append, List.nil_append, udpParse, beW16_split]

theorem bytes2_halfAt (s : State) (k : Nat) : bytes2 (halfAt s k) = [byteAt s k, byteAt s (k + 1)] := by
  rw [halfAt, ← beW16_eq, bytes2_beW]

theorem bytes4_wordAt (s : State) (k : Nat) :
    bytes4 (wordAt s k) = [byteAt s k, byteAt s (k + 1), byteAt s (k + 2), byteAt s (k + 3)] := by
  rw [wordAt, ← beW32_eq, bytes4_beW]

/-- Building the header at an offset gives back the bytes that stand there. -/
theorem tcpBuild_tcpAt (s : State) (k : Nat) : tcpBuild (tcpAt s k) = bytesAt s k 20 := by
  simp [tcpBuild, tcpAt, bytes1_eq, bytes2_halfAt, bytes4_wordAt, bytesAt, List.range_succ]

/-- Building the header at an offset gives back the bytes that stand there. -/
theorem udpBuild_udpAt (s : State) (k : Nat) : udpBuild (udpAt s k) = bytesAt s k 8 := by
  simp [udpBuild, udpAt, bytes2_halfAt, bytesAt, List.range_succ]

/-- The bytes at the cursor of a state whose view is a given sequence are those at the start of the sequence. -/
theorem bytesAt_onView {v : List Byte} {n : Nat} (hv : n ≤ v.length) : bytesAt (State.onView v) 0 n = v.take n := by
  rw [bytesAt_view (onView_wf v) (by simpa using hv), onView_view, List.drop_zero]

/-- Settles O37: the fields of a header are whole bytes in wire order, so parse and build are inverse on them; the two bytes
that would classify stand in no cell of the command table. -/
theorem transportHeadersRoundTrip : Obligations.TransportHeadersRoundTrip := by
  refine ⟨tcpParse_tcpBuild, udpParse_udpBuild, fun v hv => ?_, fun v hv => ?_,
    fun v hv => (tcpParse_eq v).trans (if_pos hv), fun v hv => (udpParse_eq v).trans (if_pos hv), by decide, by decide⟩
  · exact ⟨_, (tcpParse_eq v).trans (if_neg (Nat.not_lt.mpr hv)), (tcpBuild_tcpAt _ 0).trans (bytesAt_onView hv)⟩
  · exact ⟨_, (udpParse_eq v).trans (if_neg (Nat.not_lt.mpr hv)), (udpBuild_udpAt _ 0).trans (bytesAt_onView hv)⟩

end Sys2Proof.Machine

/-! SUPPORT. The protocol-name helper (45_protocol_name): the name of a number as a lookup, the hexadecimal digits, and what
PROTO_NAME writes. -/

namespace Sys2Proof.Machine

/-! ### The names -/

/-- The eleven names, in the order of `Config.protos`. -/
def protoNames : List (List Byte) :=
  [nameIcmp, nameIgmp, nameIpip, nameTcp, nameUdp, nameEsp, nameAh, nameOspf, namePim, nameVrrp, nameIsis]

/-- The chain of comparisons of the name is a lookup in the list of protocol numbers. -/
theorem protoName_eq_getD (cfg : Config) (p : Byte) :
    protoName cfg p = protoNames.getD (cfg.protos.idxOf p) (hex2 p) := by
  simp only [protoNames, Config.protos, getD_idxOf_cons, List.getD_nil]
  rfl

/-- The numbers being distinct, each of them has the name in its own place. -/
theorem protoName_getElem {cfg : Config} (hv : cfg.valid = true) {k : Nat} (hk : k < cfg.protos.length) :
    protoName cfg cfg.protos[k] = protoNames[k] := by
  rw [protoName_eq_getD, (protos_nodup hv).idxOf_getElem, List.getD_eq_getElem protoNames _ hk]

theorem protoName_of_not_mem {cfg : Config} {p : Byte} (h : p ∉ cfg.protos) : protoName cfg p = hex2 p := by
  rw [protoName_eq_getD, List.idxOf_eq_length h]
  rfl

/-! ### The hexadecimal digits -/

/-- A digit below ten counts from `0`, and one from ten on counts from `a` (45_protocol_name R242). -/
theorem hexDigit_cases (n : BitVec 4) :
    (n.toNat < 10 ∧ (hexDigit n).toNat = 0x30 + n.toNat) ∨
    (10 ≤ n.toNat ∧ (hexDigit n).toNat = 0x61 + (n.toNat - 10)) := by
  unfold hexDigit
  split
  case isTrue h => exact .inl ⟨h, by bv_omega⟩
  case isFalse h => exact .inr ⟨Nat.not_lt.mp h, by bv_omega⟩

theorem highDigit_toNat (p : Byte) : (p.extractLsb' 4 4).toNat = p.toNat / 16 := by
  rw [BitVec.extractLsb'_toNat, Nat.shiftRight_eq_div_pow]
  have := p.isLt
  omega

theorem lowDigit_toNat (p : Byte) : (p.extractLsb' 0 4).toNat = p.toNat % 16 := by
  rw [BitVec.extractLsb'_toNat, Nat.shiftRight_zero]

/-- Settles O41: the eleven numbers being distinct, the lookup of each of them ends at its own name and the lookup of any
other number at the hexadecimal digits of its two halves. -/
theorem protocolNumbersHaveTheirNames : Obligations.ProtocolNumbersHaveTheirNames := by
  refine ⟨fun cfg hv => ?_, fun p => ⟨_, _, rfl, ?_, ?_⟩⟩
  · have name (k : Nat) (hk : k < 11) := protoName_getElem hv (k := k) hk
    exact ⟨name 0 (by decide), name 1 (by decide), name 2 (by decide), name 3 (by decide), name 4 (by decide),
      name 5 (by decide), name 6 (by decide), name 7 (by decide), name 8 (by decide), name 9 (by decide),
      name 10 (by decide), fun _ => protoName_of_not_mem⟩
  · exact highDigit_toNat p ▸ hexDigit_cases (p.extractLsb' 4 4)
  · exact lowDigit_toNat p ▸ hexDigit_cases (p.extractLsb' 0 4)

/-! ### PROTO_NAME -/

theorem pnameOf_len_toNat {name : List Byte} (h : name.length ≤ 4) : (pnameOf name).len.toNat = name.length := by
  rw [pnameOf, BitVec.toNat_ofNat]
  omega

/-- Each of the four characters is the one of the name in that place, or 0x00 behind its end (45_protocol_name R241). -/
theorem pnameOf_ch_getElem? (name : List Byte) {i : Nat} (hi : i < 4) :
    (pnameOf name).ch.toList[i]? = some (name.getD i 0) := by
  interval_cases i <;> rfl

/-- Settles O42: the operation writes the name of `IP4.PROTO`, whose two to four characters `PNAME` can hold. -/
theorem protoNameWritesPname : Obligations.ProtoNameWritesPname := by
  refine ⟨by decide, fun cfg s => ?_, fun _ => rfl⟩
  obtain ⟨h2, h4⟩ := protoName_length cfg s.ip4.proto
  exact ⟨h2, h4, _, named_eq _ s, rfl, pnameOf_len_toNat h4, fun _ => pnameOf_ch_getElem? _, rfl⟩

end Sys2Proof.Machine

/-! SUPPORT. FRAME_DEC and the host program of single operations that 46_frame_dispatch R254 compares it with: stage by
stage, the two leave the same state but for `STATUS`. -/

namespace Sys2Proof.Machine

/-! ### The host program by stages -/

/-- The transport stage of the host program: the decode that IP4_CLASS has chosen. -/
def walkTransport (s : State) : Result :=
  match s.status.cls with
  | .tcp => execTcpDec s
  | .udp => execUdpDec s
  | _ => .next s

/-- The stage of the host program behind a tag: a second tag ends it. -/
def walkTagged (s : State) : Result :=
  match s.status.cls with
  | .vlan => .next s
  | _ => walkNetwork s

/-- The stage of the host program behind the Ethernet header. -/
def walkLink (s : State) : Result :=
  match s.status.cls with
  | .vlan => thenIfOk (execVlanDec s) fun s => thenIfOk (execVlanClass s) walkTagged
  | _ => walkNetwork s

theorem walkByHand_eq (s : State) :
    walkByHand s = thenIfOk (execEthDec s) fun s => thenIfOk (execEthClass s) walkLink := rfl

theorem walkNetwork_ipv4 {s : State} (hc : s.status.cls = .ipv4) :
    walkNetwork s = thenIfOk (execIp4Dec s) fun s => thenIfOk (execIp4Class s) walkTransport := by
  unfold walkNetwork
  rw [hc]
  rfl

theorem walkNetwork_arp {s : State} (hc : s.status.cls = .arp) : walkNetwork s = execArpDec s := by
  unfold walkNetwork
  rw [hc]

theorem walkNetwork_other {s : State} (ha : s.status.cls ≠ .arp) (hi : s.status.cls ≠ .ipv4) :
    walkNetwork s = .next s := by
  unfold walkNetwork
  split
  · contradiction
  · contradiction
  · rfl

/-! ### The two programs side by side -/

/-- Both programs complete, and leave the same state but for `STATUS`. -/
def SameEnd (r r' : Result) : Prop := ∃ t u, r = .next t ∧ r' = .next u ∧ sameButStatus u t

theorem finish_sameEnd (w : Walk) (s : State) : SameEnd (finish w s) (.next s) := ⟨_, _, rfl, rfl, rfl⟩

/-- Where a layer is the last of the chain, the single decode ends as the chain does. -/
theorem andThen_finish_sameEnd {u : CodecUnit} (w : Walk) {s : State} (hu : layerBit u ≠ 0) (hw : s.ibuf.wf = true) :
    SameEnd (andThen u w (layerOf u s) finish) (singleDecode u (layerOf u s)) := by
  cases ho : layerOf u s with
  | decoded s' n => exact ⟨_, _, rfl, rfl, rfl⟩
  | raised s' e x a => exact ⟨_, _, rfl, rfl, rfl⟩
  | stopped f => exact absurd ho (layerOf_ne_stopped hw hu)

/-- What a layer that fails reports is never the code of success (60_exceptions R280). -/
theorem layerOf_raised_ne_none {u : CodecUnit} {s s' : State} {e : ErrKind} {x a : Half}
    (h : layerOf u s = .raised s' e x a) : e ≠ .none := by
  obtain ⟨rfl, -⟩ | ⟨-, rfl, -⟩ := layerOf_raised h <;> exact nofun

/-- A layer that fails ends both programs; after one that decodes, the chain goes on from what the single decode
leaves, since what follows does not read `STATUS`. -/
theorem andThen_sameEnd {u : CodecUnit} {w : Walk} {s : State} {k : Walk → State → Result} {k' : State → Result}
    (hu : layerBit u ≠ 0) (hw : s.ibuf.wf = true) (hk : ∀ w, IgnoresStatus (k w))
    (h : ∀ w t, t.ibuf.wf = true → SameEnd (k w t) (k' t)) :
    SameEnd (andThen u w (layerOf u s) k) (thenIfOk (singleDecode u (layerOf u s)) k') := by
  rw [singleDecode_eq]
  cases ho : layerOf u s with
  | decoded s' n =>
    rw [andThen, ← hk _ s' (okStatus n (layerBit u) .noClass 0)]
    exact h _ _ (layerOf_decoded_ibuf ho ▸ hw)
  | raised s' e x a =>
    exact ⟨_, _, rfl, if_neg (layerOf_raised_ne_none ho), rfl⟩
  | stopped f => exact absurd ho (layerOf_ne_stopped hw hu)

/-- A classify operation reports the class that the chain goes on with. -/
theorem classify_sameEnd {w : Walk} {c : FrameClass × Half} {s : State} {k : Walk → State → Result}
    {k' : State → Result} (hw : s.ibuf.wf = true) (hk : ∀ w, IgnoresStatus (k w))
    (h : ∀ {w t}, t.ibuf.wf = true → t.status.cls = w.cls → SameEnd (k w t) (k' t)) :
    SameEnd (k (w.classified c) s) (thenIfOk (finish (Walk.start.classified c) s) k') := by
  rw [← hk _ s (okStatus 0 0 c.1 c.2)]
  exact h (w := w.classified c) (t := s.writeStatus (okStatus 0 0 c.1 c.2)) hw rfl

section Stages

variable {w : Walk} {s : State} (hw : s.ibuf.wf = true) (hc : s.status.cls = w.cls)

include hw hc

theorem frameTransport_sameEnd : SameEnd (frameTransport w s) (walkTransport s) := by
  unfold walkTransport
  rw [hc]
  split
  · next ht => exact frameTransport_tcp ht ▸ andThen_finish_sameEnd (u := .tcp) w (by decide) hw
  · next hu => exact frameTransport_udp hu ▸ andThen_finish_sameEnd (u := .udp) w (by decide) hw
  · next ht hu => exact frameTransport_other ht hu ▸ finish_sameEnd w s

theorem frameNetwork_sameEnd : SameEnd (frameNetwork Config.current w s) (walkNetwork s) := by
  by_cases ha : w.cls = .arp
  · rw [frameNetwork_arp ha, walkNetwork_arp (hc.trans ha)]
    exact andThen_finish_sameEnd (u := .arp) w (by decide) hw
  by_cases hi : w.cls = .ipv4
  · rw [frameNetwork_ipv4 hi, walkNetwork_ipv4 (hc.trans hi)]
    exact andThen_sameEnd (u := .ip4) (by decide) hw (fun _ _ _ => frameTransport_ignoresStatus _ _ _) fun w t ht =>
      classify_sameEnd ht frameTransport_ignoresStatus frameTransport_sameEnd
  · rw [frameNetwork_other ha hi, walkNetwork_other (hc ▸ ha) (hc ▸ hi)]
    exact finish_sameEnd w s

theorem frameTagged_sameEnd : SameEnd (frameTagged Config.current w s) (walkTagged s) := by
  unfold walkTagged
  rw [hc]
  split
  · next hv => exact frameTagged_vlan hv ▸ finish_sameEnd w s
  · next hv => exact frameTagged_other hv ▸ frameNetwork_sameEnd hw hc

theorem frameLink_sameEnd : SameEnd (frameLink Config.current w s) (walkLink s) := by
  unfold walkLink
  rw [hc]
  split
  · next hv =>
    rw [frameLink_vlan hv]
    exact andThen_sameEnd (u := .vlan) (by decide) hw (fun _ _ _ => frameTagged_ignoresStatus _ _ _ _) fun w t ht =>
      classify_sameEnd ht (frameTagged_ignoresStatus _) frameTagged_sameEnd
  · next hv => exact frameLink_other hv ▸ frameNetwork_sameEnd hw hc

end Stages

theorem frameDecAt_sameEnd {s : State} (hw : s.ibuf.wf = true) :
    SameEnd (frameDecAt Config.current s) (walkByHand s) := by
  unfold frameDecAt
  rw [walkByHand_eq]
  exact andThen_sameEnd (u := .eth) (by decide) hw (fun _ _ _ => frameLink_ignoresStatus _ _ _ _) fun w t ht =>
    classify_sameEnd ht (frameLink_ignoresStatus _) frameLink_sameEnd

/-- Settles O45: at every stage the host program runs the layer that FRAME_DEC runs, and is told the class that
FRAME_DEC goes on with. -/
theorem frameDecEqualsTheWalkByHand : Obligations.FrameDecEqualsTheWalkByHand := fun _ => frameDecAt_sameEnd

end Sys2Proof.Machine

/-! SUPPORT. FRAME_DEC on each path of the graph of 46_frame_dispatch R250: what stands in the view at the link layers,
at the network layer and at the transport layer decides where the chain ends and what it leaves. -/

namespace Sys2Proof.Machine

/-! ### A layer behind others -/

section Behind

variable {s t : State} {n : Nat} (hm : Moved s t n)

include hm

/-- The cursor of a later layer, counted from where the chain began. -/
theorem Moved.cur_add (m : Nat) : t.cur + BitVec.ofNat 16 m = s.cur + BitVec.ofNat 16 (n + m) := by
  have ht : t.cur = s.cur + BitVec.ofNat 16 n := by
    apply BitVec.eq_of_toNat_eq
    have hlt := t.cur.isLt
    rw [hm.cur] at hlt ⊢
    rw [BitVec.toNat_add, BitVec.toNat_ofNat]
    omega
  rw [ht, BitVec.ofNat_add, BitVec.add_assoc]

variable (hw : s.ibuf.wf = true)

include hw

theorem Moved.layerVlan_eq : layerVlan t = if s.avail - n < 4 then .raised t .tooShort 4 (BitVec.ofNat 16 (s.avail - n))
    else .decoded { t with vlan := Machine.vlanAt s n, cur := s.cur + BitVec.ofNat 16 (n + 4) } 4 := by
  rw [Machine.layerVlan_eq (hm.ibuf ▸ hw), hm.avail, hm.vlanAt, ← hm.cur_add 4]
  rfl

theorem Moved.layerArp_eq : layerArp t = if s.avail - n < 8 then .raised t .tooShort 8 (BitVec.ofNat 16 (s.avail - n))
    else if s.avail - n < Machine.arpTotalAt s n then
      .raised t .tooShort (BitVec.ofNat 16 (Machine.arpTotalAt s n)) (BitVec.ofNat 16 (s.avail - n))
    else .decoded
      { t with arp := Machine.arpAt s n, cur := s.cur + BitVec.ofNat 16 (n + Machine.arpTotalAt s n) }
      (BitVec.ofNat 16 (Machine.arpTotalAt s n)) := by
  rw [Machine.layerArp_eq (hm.ibuf ▸ hw), hm.avail, hm.arpTotalAt, hm.arpAt, hm.cur_add]
  rfl

theorem Moved.layerIp4_eq : layerIp4 t = if s.avail - n < 20 then .raised t .tooShort 20 (BitVec.ofNat 16 (s.avail - n))
    else if (Machine.ip4At s n).ver ≠ 4 then .raised { t with ip4 := Machine.ip4At s n } .unsupportedVersion 0 0
    else .decoded { t with ip4 := Machine.ip4At s n, cur := s.cur + BitVec.ofNat 16 (n + 20) } 20 := by
  rw [Machine.layerIp4_eq (hm.ibuf ▸ hw), hm.avail, hm.ip4At, ← hm.cur_add 20]
  rfl

theorem Moved.layerTcp_eq : layerTcp t = if s.avail - n < 20 then .raised t .tooShort 20 (BitVec.ofNat 16 (s.avail - n))
    else .decoded { t with tcp := Machine.tcpAt s n, cur := s.cur + BitVec.ofNat 16 (n + 20) } 20 := by
  rw [Machine.layerTcp_eq (hm.ibuf ▸ hw), hm.avail, hm.tcpAt, ← hm.cur_add 20]
  rfl

theorem Moved.layerUdp_eq : layerUdp t = if s.avail - n < 8 then .raised t .tooShort 8 (BitVec.ofNat 16 (s.avail - n))
    else .decoded { t with udp := Machine.udpAt s n, cur := s.cur + BitVec.ofNat 16 (n + 8) } 8 := by
  rw [Machine.layerUdp_eq (hm.ibuf ▸ hw), hm.avail, hm.udpAt, ← hm.cur_add 8]
  rfl

end Behind

/-- One more layer, with the lengths exact. -/
theorem Walk.decoded_eq (m n : Nat) (l : BitVec 6) (c : FrameClass) (raw : Half) (u : CodecUnit) :
    Walk.decoded { nbytes := BitVec.ofNat 16 m, layers := l, cls := c, raw := raw } u (BitVec.ofNat 16 n) =
      { nbytes := BitVec.ofNat 16 (m + n), layers := l ||| layerBit u, cls := c, raw := raw } := by
  rw [BitVec.ofNat_add]
  rfl

/-- The chain ends successfully with the last layer. -/
theorem andThen_finish_decoded {m n : Nat} {l : BitVec 6} {c : FrameClass} {raw : Half} {u : CodecUnit} {s : State} :
    andThen u { nbytes := BitVec.ofNat 16 m, layers := l, cls := c, raw := raw } (.decoded s (BitVec.ofNat 16 n))
      finish = .next { s with status := okStatus (BitVec.ofNat 16 (m + n)) (l ||| layerBit u) c raw } := by
  rw [andThen, Walk.decoded_eq, finish_eq]

/-! ### The link layers -/

theorem exec_frameDec (s : State) : exec .frameDec s = frameDecAt Config.current s := rfl

theorem linkType_pos {s : State} {k : Nat} {t : Half} (hk : linkType s k t) : 0 < k := by
  obtain ⟨rfl, -⟩ | ⟨rfl, -, -⟩ := hk <;> decide

/-- Settles O46: behind the first tag the chain stands at the second one, whose class ends it. -/
theorem frameDecStopsAtASecondTag : Obligations.FrameDecStopsAtASecondTag := by
  intro s h hn h12 h16
  rw [exec_frameDec, frameDecAt_vlan h hn h12, frameTagged_vlan (by rw [walkVlan, h16]; rfl), walkVlan, h16]
  rfl

theorem exec_frameDec_ethShort {s : State} (hw : s.ibuf.wf = true) (hn : s.avail < 14) : exec .frameDec s = .next
    { s with status := errStatus .tooShort .eth 14 (BitVec.ofNat 16 s.avail) } := by
  rw [exec_frameDec, frameDecAt, layerEth_eq hw, if_pos hn]
  rfl

theorem exec_frameDec_vlanShort {s : State} (h : bufferOk s.ibuf) (hn : 14 ≤ s.avail) (hn' : s.avail < 18)
    (h12 : halfAt s 12 = 0x8100) : exec .frameDec s = .next
      { afterLink s 14 with
        status := { err := .tooShort, unit := .vlan, exp := 4, act := BitVec.ofNat 16 (s.avail - 14)
                    nbytes := 14, layers := 0b000001, cls := .vlan, raw := 0x8100 } } := by
  rw [exec_frameDec, frameDecAt_eth h.1 hn, frameLink_vlan (by rw [walkEth, h12]; rfl),
    (moved_stateEth h hn).layerVlan_eq h.1, if_pos (by omega), walkEth, h12]
  rfl

/-! ### The network layer -/

section Network

variable {s : State} {k : Nat} (h : bufferOk s.ibuf) (hn : k ≤ s.avail)

include h hn

theorem exec_frameDec_unknown {t : Half} (hk : linkType s k t) (hv : t ≠ 0x8100) (ha : t ≠ 0x0806) (hi : t ≠ 0x0800) :
    exec .frameDec s = .next { afterLink s k with
      status := okStatus (BitVec.ofNat 16 k) (linkLayers k) .unknownEther t } := by
  rw [exec_frameDec, frameDecAt_link h hn hk hv, classifyEthertype_other hv ha hi]
  exact frameNetwork_other (by simp) (by simp)

theorem exec_frameDec_arp (hk : linkType s k 0x0806) : exec .frameDec s = andThen .arp
    { nbytes := BitVec.ofNat 16 k, layers := linkLayers k, cls := .arp, raw := 0x0806 } (layerArp (afterLink s k))
    finish := by
  rw [exec_frameDec, frameDecAt_link h hn hk (by decide)]
  exact frameNetwork_arp rfl

theorem exec_frameDec_ipv4 (hk : linkType s k 0x0800) : exec .frameDec s = andThen .ip4
    { nbytes := BitVec.ofNat 16 k, layers := linkLayers k, cls := .ipv4, raw := 0x0800 } (layerIp4 (afterLink s k))
    fun w s => frameTransport (w.classified (classifyProto Config.current s.ip4.proto)) s := by
  rw [exec_frameDec, frameDecAt_link h hn hk (by decide)]
  exact frameNetwork_ipv4 rfl

end Network

theorem exec_frameDec_arpDone {s : State} {k : Nat} (h : bufferOk s.ibuf) (hk : linkType s k 0x0806)
    (hn : k + arpTotalAt s k ≤ s.avail) : exec .frameDec s = .next
      { afterLink s k with
        arp := arpAt s k, cur := s.cur + BitVec.ofNat 16 (k + arpTotalAt s k)
        status := okStatus (BitVec.ofNat 16 (k + arpTotalAt s k)) (linkLayers k ||| 0b000100) .arp 0x0806 } := by
  have h8 : 8 ≤ arpTotalAt s k := Nat.le_add_right _ _
  have hm := moved_afterLink h (show k ≤ s.avail by omega) (linkType_pos hk)
  rw [exec_frameDec_arp h (by omega) hk, hm.layerArp_eq h.1, if_neg (by omega), if_neg (by omega)]
  exact andThen_finish_decoded

/-- Settles O48: untagged and tagged are the two lengths of the link layers. -/
theorem frameDecWalksArpAndStopsAtUnknown : Obligations.FrameDecWalksArpAndStopsAtUnknown := fun _ h hn =>
  ⟨fun h12 => exec_frameDec_arpDone (k := 14) h (.inl ⟨rfl, h12⟩),
    fun h12 h16 => exec_frameDec_arpDone (k := 18) h (.inr ⟨rfl, h12, h16⟩),
    exec_frameDec_unknown (k := 14) h hn (.inl ⟨rfl, rfl⟩),
    fun h12 hn' => exec_frameDec_unknown (k := 18) h hn' (.inr ⟨rfl, h12, rfl⟩)⟩

/-! ### The transport layer -/

/-- What FRAME_DEC has accumulated after an IPv4 header behind `k` bytes, and the state it goes on from. -/
def walkIp4 (s : State) (k : Nat) : Walk :=
  { nbytes := BitVec.ofNat 16 (k + 20), layers := linkLayers k ||| layerBit .ip4
    cls := (classifyProto Config.current (byteAt s (k + 9))).1, raw := (byteAt s (k + 9)).setWidth 16 }

def stateIp4 (s : State) (k : Nat) : State :=
  { afterLink s k with ip4 := ip4At s k, cur := s.cur + BitVec.ofNat 16 (k + 20) }

section Transport

variable {s : State} {k : Nat} (h : bufferOk s.ibuf) (hk : linkType s k 0x0800) (hv : (ip4At s k).ver = 4)
  (hn : k + 20 ≤ s.avail)

include h hn in
theorem moved_stateIp4 : Moved s (stateIp4 s k) (k + 20) := ⟨rfl, cur_add h hn (by omega)⟩

include h hk hv hn

/-- FRAME_DEC past the IPv4 header. -/
theorem exec_frameDec_transport : exec .frameDec s = frameTransport (walkIp4 s k) (stateIp4 s k) := by
  have hm := moved_afterLink h (show k ≤ s.avail by omega) (linkType_pos hk)
  rw [exec_frameDec_ipv4 h (by omega) hk, hm.layerIp4_eq h.1, if_neg (by omega), if_neg (not_not.mpr hv)]
  show frameTransport (Walk.classified (Walk.decoded _ .ip4 (BitVec.ofNat 16 20))
    (classifyProto Config.current (byteAt s (k + 9)))) (stateIp4 s k) = _
  rw [Walk.decoded_eq, Walk.classified, classifyProto_snd, walkIp4]

theorem exec_frameDec_otherProto (hu : byteAt s (k + 9) ≠ 17) (ht : byteAt s (k + 9) ≠ 6) :
    exec .frameDec s = .next { stateIp4 s k with
      status := okStatus (BitVec.ofNat 16 (k + 20)) (linkLayers k ||| 0b001000) .otherProto
        ((byteAt s (k + 9)).setWidth 16) } := by
  have hc : (classifyProto Config.current (byteAt s (k + 9))).1 = .otherProto := by
    have ht' : byteAt s (k + 9) ≠ Config.current.protoTcp := ht
    have hu' : byteAt s (k + 9) ≠ Config.current.protoUdp := hu
    rw [classifyProto, if_neg ht', if_neg hu']
  rw [exec_frameDec_transport h hk hv hn, walkIp4, hc]
  exact frameTransport_other (by simp) (by simp)

theorem exec_frameDec_tcp (hp : byteAt s (k + 9) = 6) : exec .frameDec s = andThen .tcp
    { nbytes := BitVec.ofNat 16 (k + 20), layers := linkLayers k ||| 0b001000, cls := .tcp, raw := 0x0006 }
    (layerTcp (stateIp4 s k)) finish := by
  rw [exec_frameDec_transport h hk hv hn, walkIp4, hp]
  exact frameTransport_tcp rfl

theorem exec_frameDec_udp (hp : byteAt s (k + 9) = 17) : exec .frameDec s = andThen .udp
    { nbytes := BitVec.ofNat 16 (k + 20), layers := linkLayers k ||| 0b001000, cls := .udp, raw := 0x0011 }
    (layerUdp (stateIp4 s k)) finish := by
  rw [exec_frameDec_transport h hk hv hn, walkIp4, hp]
  exact frameTransport_udp rfl

end Transport

/-- The layers of a chain, written out for an untagged and for a tagged frame. -/
theorem linkLayers_or (k : Nat) (b : BitVec 6) :
    linkLayers k ||| b = if k = 18 then 0b000011 ||| b else 0b000001 ||| b := apply_ite (· ||| b) _ _ _

/-- Settles O47: past the IPv4 header the protocol chooses the last layer, whose bytes are present. -/
theorem frameDecWalksIpv4ToTheTransportHeader : Obligations.FrameDecWalksIpv4ToTheTransportHeader := by
  intro s k h hk hv
  refine ⟨fun hn hp => ?_, fun hn hp => ?_, fun hn hu ht => ?_⟩
  · have hn' : k + 20 ≤ s.avail := by omega
    rw [exec_frameDec_udp h hk hv hn' hp, (moved_stateIp4 h hn').layerUdp_eq h.1, if_neg (by omega)]
    refine andThen_finish_decoded.trans ?_
    rw [BitVec.or_assoc, linkLayers_or]
    rfl
  · have hn' : k + 20 ≤ s.avail := by omega
    rw [exec_frameDec_tcp h hk hv hn' hp, (moved_stateIp4 h hn').layerTcp_eq h.1, if_neg (by omega)]
    refine andThen_finish_decoded.trans ?_
    rw [BitVec.or_assoc, linkLayers_or]
    rfl
  · rw [exec_frameDec_otherProto h hk hv hn hu ht, linkLayers_or]
    rfl

/-- Settles O49: the chain comes to the failing layer with what it has decoded before, and ends there with the error
that the layer raises. -/
theorem frameDecReportsTheFailingLayer : Obligations.FrameDecReportsTheFailingLayer := by
  intro s h
  refine ⟨exec_frameDec_ethShort h.1, exec_frameDec_vlanShort h, fun k hn => ⟨fun hk => ?_, fun hk => ?_⟩⟩
  all_goals have hm := moved_afterLink h hn (linkType_pos hk)
  · rw [exec_frameDec_arp h hn hk, hm.layerArp_eq h.1]
    refine ⟨fun hfixed => ?_, fun hfixed htotal => ?_⟩
    · rw [if_pos (by omega)]
      rfl
    · rw [if_neg (by omega), if_pos (by omega)]
      rfl
  · refine ⟨fun hshort => ?_, fun hn' hv => ?_, fun hn' hshort hv hp => ?_, fun hn' hshort hv hp => ?_⟩
    · rw [exec_frameDec_ipv4 h hn hk, hm.layerIp4_eq h.1, if_pos (by omega)]
      rfl
    · rw [exec_frameDec_ipv4 h hn hk, hm.layerIp4_eq h.1, if_neg (by omega), if_pos hv]
      rfl
    · rw [exec_frameDec_tcp h hk hv hn' hp, (moved_stateIp4 h hn').layerTcp_eq h.1, if_pos (by omega)]
      rfl
    · rw [exec_frameDec_udp h hk hv hn' hp, (moved_stateIp4 h hn').layerUdp_eq h.1, if_pos (by omega)]
      rfl

end Sys2Proof.Machine

/-! SUPPORT. The bounds of FRAME_DEC (46_frame_dispatch R256): every chain decodes the layers of one path of the graph
of R250, each of a bounded length, and moves the cursor by what it has counted. -/

namespace Sys2Proof.Machine

/-! ### The paths of the graph -/

/-- The greatest length a layer consumes (30_encoding R95 to R100, R111). -/
def maxConsumed : CodecUnit → Nat
  | .eth => 14
  | .vlan => 4
  | .arp => 1028
  | .ip4 => 20
  | .tcp => 20
  | .udp => 8
  | .frame => 0
  | .pname => 0

theorem layerOf_decoded_le_maxConsumed {u : CodecUnit} {s t : State} {n : Half} (h : layerOf u s = .decoded t n) :
    n.toNat ≤ maxConsumed u := by
  cases u <;> simp only [layerOf, reduceCtorEq] at h
  case eth =>
    obtain ⟨-, e⟩ | ⟨-, r, e⟩ | e := layerEth_cases s <;> rw [e] at h <;> cases h
    decide
  case vlan =>
    obtain ⟨-, e⟩ | ⟨-, r, e⟩ | e := layerVlan_cases s <;> rw [e] at h <;> cases h
    decide
  case arp =>
    obtain ⟨-, e⟩ | ⟨m, -, -, -, e⟩ | ⟨m, r, -, hle, -, -, -, -, -, e⟩ | e := layerArp_cases s <;> rw [e] at h <;>
      cases h
    exact hle
  case ip4 =>
    obtain ⟨-, e⟩ | ⟨-, r, -, e⟩ | ⟨-, r, -, e⟩ | e := layerIp4_cases s <;> rw [e] at h <;> cases h
    decide
  case tcp =>
    obtain ⟨-, e⟩ | ⟨-, r, e⟩ | e := layerTcp_cases s <;> rw [e] at h <;> cases h
    decide
  case udp =>
    obtain ⟨-, e⟩ | ⟨-, r, e⟩ | e := layerUdp_cases s <;> rw [e] at h <;> cases h
    decide

/-- The greatest length the layers of a path consume. -/
def pathLength (p : List CodecUnit) : Nat := (p.map maxConsumed).sum

/-- The bits of `STATUS.LAYERS` of a path. -/
def pathLayers (p : List CodecUnit) : BitVec 6 := p.foldr (fun u l => l ||| layerBit u) 0

/-- The paths that a chain of FRAME_DEC can take, the last layer first (46_frame_dispatch R250, R252). -/
def chainPaths : List (List CodecUnit) :=
  [[], [.eth], [.vlan, .eth], [.arp, .eth], [.arp, .vlan, .eth], [.ip4, .eth], [.ip4, .vlan, .eth], [.tcp, .ip4, .eth],
    [.tcp, .ip4, .vlan, .eth], [.udp, .ip4, .eth], [.udp, .ip4, .vlan, .eth]]

/-- The sets of layers of the paths, as `STATUS.LAYERS` shows them. -/
def chainLayers : List (BitVec 6) :=
  [0b000000, 0b000001, 0b000011, 0b000101, 0b000111, 0b001001, 0b001011, 0b011001, 0b011011, 0b101001, 0b101011]

theorem pathLength_le : ∀ p ∈ chainPaths, pathLength p ≤ 1046 := by decide

theorem pathLayers_mem : ∀ p ∈ chainPaths, pathLayers p ∈ chainLayers := by decide

/-! ### A chain on its path -/

/-- A chain begun in `s` has come along the path `p` to `t`: `w` says how far and through which layers. -/
structure Reached (s : State) (p : List CodecUnit) (w : Walk) (t : State) : Prop where
  buf : bufferOk s.ibuf
  moved : Moved s t w.nbytes.toNat
  within : w.nbytes.toNat ≤ s.avail
  length : w.nbytes.toNat ≤ pathLength p
  layers : w.layers = pathLayers p

/-- The program completes within the bounds of 46_frame_dispatch R256. -/
def EndsBounded (s : State) (r : Result) : Prop :=
  ∃ t, r = .next t ∧ t.status.nbytes.toNat ≤ 1046 ∧ t.cur.toNat = s.cur.toNat + t.status.nbytes.toNat ∧
    t.status.nbytes.toNat ≤ s.avail ∧ t.status.layers ∈ chainLayers

theorem reached_start {s : State} (h : bufferOk s.ibuf) : Reached s [] Walk.start s where
  buf := h
  moved := ⟨rfl, rfl⟩
  within := Nat.zero_le _
  length := Nat.zero_le _
  layers := rfl

section Stages

variable {s t : State} {p : List CodecUnit} {w : Walk} (h : Reached s p w t)

include h

theorem Reached.classified (c : FrameClass × Half) : Reached s p (w.classified c) t :=
  ⟨h.buf, h.moved, h.within, h.length, h.layers⟩

/-- A chain that ends on a path, where it stands, is bounded by the path, whatever it reports beside its progress. -/
theorem Reached.endsBounded (hp : p ∈ chainPaths) {t' : State} (hc : t'.cur = t.cur)
    (hn : t'.status.nbytes = w.nbytes) (hl : t'.status.layers = w.layers) : EndsBounded s (.next t') := by
  refine ⟨t', rfl, ?_, ?_, ?_, ?_⟩
  · exact hn ▸ h.length.trans (pathLength_le p hp)
  · rw [hc, hn, h.moved.cur]
  · exact hn ▸ h.within
  · exact hl ▸ h.layers ▸ pathLayers_mem p hp

theorem Reached.finish (hp : p ∈ chainPaths) : EndsBounded s (finish w t) :=
  h.endsBounded hp (t' := { t with status := okStatus w.nbytes w.layers w.cls w.raw }) rfl rfl rfl

/-- The sums of the cursor and of the count are exact, since the layer consumes no more than the view holds. -/
theorem Reached.decoded {u : CodecUnit} {t' : State} {n : Half} (ho : layerOf u t = .decoded t' n) :
    Reached s (u :: p) (w.decoded u n) t' := by
  have hn : n.toNat ≤ s.avail - w.nbytes.toNat := h.moved.avail ▸ (layerOf_decoded ho).1
  have hcap : s.cur.toNat + s.avail ≤ 65535 ∨ s.avail = 0 := by
    have hlen : s.ibuf.len ≤ 2048 := h.buf.2
    rw [State.avail]
    omega
  have hcurlt := s.cur.isLt
  have hcur := h.moved.cur
  have hwithin := h.within
  have hsum : (w.nbytes + n).toNat = w.nbytes.toNat + n.toNat := by
    rw [BitVec.toNat_add]
    omega
  refine ⟨h.buf, ⟨(layerOf_decoded_ibuf ho).trans h.moved.ibuf, ?_⟩, ?_, ?_, ?_⟩
  · show t'.cur.toNat = s.cur.toNat + (w.nbytes + n).toNat
    rw [layerOf_decoded_cur ho, hsum, BitVec.toNat_add]
    omega
  · show (w.nbytes + n).toNat ≤ s.avail
    omega
  · show (w.nbytes + n).toNat ≤ maxConsumed u + pathLength p
    have hmax := layerOf_decoded_le_maxConsumed ho
    have hlength := h.length
    omega
  · show w.layers ||| layerBit u = pathLayers p ||| layerBit u
    rw [h.layers]

/-- A layer that fails ends the chain on the path before it. -/
theorem Reached.andThen {u : CodecUnit} {k : Walk → State → Result} (hp : p ∈ chainPaths) (hu : layerBit u ≠ 0)
    (hk : ∀ {w t}, Reached s (u :: p) w t → EndsBounded s (k w t)) : EndsBounded s (andThen u w (layerOf u t) k) := by
  cases ho : layerOf u t with
  | decoded t' n => exact hk (h.decoded ho)
  | raised t' e x a =>
    have hcur : t'.cur = t.cur := layerOf_raised_cur ho
    rw [Machine.andThen, raiseError_eq]
    exact h.endsBounded hp hcur rfl rfl
  | stopped f => exact absurd ho (layerOf_ne_stopped (h.moved.ibuf ▸ h.buf.1) hu)

theorem Reached.frameTransport (hp : p = [.ip4, .eth] ∨ p = [.ip4, .vlan, .eth]) :
    EndsBounded s (frameTransport w t) := by
  have hpaths : p ∈ chainPaths ∧ .tcp :: p ∈ chainPaths ∧ .udp :: p ∈ chainPaths := by
    obtain rfl | rfl := hp <;> decide
  obtain ⟨hpath, hpathTcp, hpathUdp⟩ := hpaths
  unfold Machine.frameTransport
  split
  · exact h.andThen (u := .tcp) hpath (by decide) fun h' => h'.finish hpathTcp
  · exact h.andThen (u := .udp) hpath (by decide) fun h' => h'.finish hpathUdp
  · exact h.finish hpath

theorem Reached.frameNetwork (cfg : Config) (hp : p = [.eth] ∨ p = [.vlan, .eth]) :
    EndsBounded s (frameNetwork cfg w t) := by
  have hpaths : p ∈ chainPaths ∧ .arp :: p ∈ chainPaths := by obtain rfl | rfl := hp <;> decide
  obtain ⟨hpath, hpathArp⟩ := hpaths
  unfold Machine.frameNetwork
  split
  · exact h.andThen (u := .arp) hpath (by decide) fun h' => h'.finish hpathArp
  · exact h.andThen (u := .ip4) hpath (by decide) fun h' =>
      (h'.classified _).frameTransport (hp.imp (congrArg _) (congrArg _))
  · exact h.finish hpath

end Stages

theorem Reached.frameTagged {s t : State} {w : Walk} (h : Reached s [.vlan, .eth] w t) (cfg : Config) :
    EndsBounded s (frameTagged cfg w t) := by
  unfold Machine.frameTagged
  split
  · exact h.finish (by decide)
  · exact h.frameNetwork cfg (.inr rfl)

theorem Reached.frameLink {s t : State} {w : Walk} (h : Reached s [.eth] w t) (cfg : Config) :
    EndsBounded s (frameLink cfg w t) := by
  unfold Machine.frameLink
  split
  · exact h.andThen (u := .vlan) (by decide) (by decide) fun h' => (h'.classified _).frameTagged cfg
  · exact h.frameNetwork cfg (.inl rfl)

theorem frameDecAt_endsBounded (cfg : Config) {s : State} (hb : bufferOk s.ibuf) :
    EndsBounded s (frameDecAt cfg s) := by
  unfold frameDecAt
  exact (reached_start hb).andThen (u := .eth) (by decide) (by decide) fun h => (h.classified _).frameLink cfg

/-- Settles O50: from the empty path each layer leads to another path of the graph. -/
theorem frameDecIsBounded : Obligations.FrameDecIsBounded := fun _ => frameDecAt_endsBounded Config.current

end Sys2Proof.Machine

/-! SUPPORT. How a command reaches the instruction it runs (70_reset_and_hazards R301), and how an instruction ends
(60_exceptions): it completes from every legal state and reports only the error kinds of its operation, and a failing
single-layer operation changes nothing but `STATUS` and the rejected IP4 record. -/

namespace Sys2Proof.Machine

/-! ### The step of a command -/

/-- Settles O5: a command byte is a sequence of the length of its format, so it decodes to the row of its number. -/
theorem stepRunsTheDecodedCommand : Obligations.StepRunsTheDecodedCommand := by
  refine ⟨fun s c rest i hs hdec => ?_, fun s => step_idle⟩
  obtain rfl : decodeCmd c = i := Except.ok.inj hdec
  exact ⟨(decodeCmd_isRow Config.current c).wf, step_cmd hs⟩

/-! ### Completion -/

/-- Settles O20: the buffer of a legal state is in canonical form, on which every instruction completes. -/
theorem everyInstructionCompletes : Obligations.EveryInstructionCompletes := by
  intro i s hs
  obtain ⟨t, ht⟩ := exec_completes i s hs.ibuf.1
  exact ⟨t, ht, exec_keeps_inv hs ht⟩

/-! ### How a single-layer operation fails -/

/-- `t` is what a single-layer operation that fails with `k` may leave of `s` (60_exceptions R276): nothing accumulated
in `STATUS`, and no other change but the rejected IP4 record of `UnsupportedVersion` (43_ipv4 R196). -/
structure FailedWith (k : ErrKind) (s t : State) : Prop where
  status : ∃ u x a, t.status = errStatus k u x a
  frame : { t with ip4 := s.ip4, status := s.status } = s
  statusOnly : k ≠ .unsupportedVersion → sameButStatus s t

/-- An instruction that went from `s` to `t` reports a success, or has failed with one of the kinds. -/
def SucceededOrFailedWith (kinds : List ErrKind) (s t : State) : Prop :=
  t.status.err = .none ∨ ∃ k ∈ kinds, FailedWith k s t

/-- The error kinds of the layer of a unit (60_exceptions R280). -/
def layerErrors : CodecUnit → List ErrKind
  | .ip4 => [.tooShort, .unsupportedVersion]
  | .eth | .vlan | .arp | .tcp | .udp | .frame | .pname => [.tooShort]

theorem tooShort_mem_layerErrors (u : CodecUnit) : .tooShort ∈ layerErrors u := by cases u <;> decide

theorem failedWith_errStatus (k : ErrKind) (u : CodecUnit) (x a : Half) (s : State) :
    FailedWith k s { s with status := errStatus k u x a } := ⟨⟨u, x, a, rfl⟩, rfl, fun _ => rfl⟩

theorem raiseError_failedWith {u : CodecUnit} {k : ErrKind} {x a : Half} {s t : State}
    (h : raiseError u k x a Walk.start s = .next t) : FailedWith k s t := by
  rw [raiseError_next h]
  exact failedWith_errStatus k u x a s

/-- A layer that fails alone reports one of its kinds. -/
theorem layerOf_raised_failedWith {u : CodecUnit} {s s' : State} {k : ErrKind} {x a : Half}
    (h : layerOf u s = .raised s' k x a) :
    k ∈ layerErrors u ∧ FailedWith k s { s' with status := errStatus k u x a } := by
  obtain ⟨rfl, rfl, -, -⟩ | ⟨rfl, rfl, -, -, e⟩ := layerOf_raised h
  · exact ⟨tooShort_mem_layerErrors u, failedWith_errStatus _ u x a s'⟩
  · rw [e]
    exact ⟨by decide, ⟨_, _, _, rfl⟩, rfl, fun hne => absurd rfl hne⟩

theorem singleDecode_succeededOrFailedWith {u : CodecUnit} {s t : State}
    (h : singleDecode u (layerOf u s) = .next t) : SucceededOrFailedWith (layerErrors u) s t := by
  obtain ⟨s', n, -, hf⟩ | ⟨s', k, x, a, ho, rfl⟩ := andThen_next h
  · rw [finish_next hf]
    exact .inl rfl
  · exact .inr ⟨k, layerOf_raised_failedWith ho⟩

theorem encoded_succeeded {out : List Byte} {n : Half} {s t : State} (h : encoded out n s = .next t) :
    t.status.err = .none := by
  rw [encoded_next h]
  rfl

theorem finish_succeeded {w : Walk} {s t : State} (h : finish w s = .next t) : t.status.err = .none := by
  rw [finish_next h]
  rfl

/-- ARP_ENC rejects an address of another length than the record declares, and nothing else (42_arp R168). -/
theorem execArpEnc_succeededOrFailedWith {s t : State} (h : execArpEnc s = .next t) :
    SucceededOrFailedWith [.addrLenMismatch] s t := by
  obtain ⟨out, n, -, e⟩ | ⟨declared, addr, -, -, e⟩ := execArpEnc_cases s <;> rw [e] at h
  · exact .inl (encoded_succeeded h)
  · exact .inr ⟨_, by decide, raiseError_failedWith h⟩

/-- Every instruction but FRAME_DEC succeeds, or fails as a single-layer operation with a kind the table gives it. -/
theorem exec_succeededOrFailedWith {i : Instr} (hi : i ≠ .frameDec) {s t : State} (h : exec i s = .next t) :
    SucceededOrFailedWith (canRaise i) s t := by
  cases i
  case frameDec => exact absurd rfl hi
  case ethDec => exact singleDecode_succeededOrFailedWith (u := .eth) h
  case vlanDec => exact singleDecode_succeededOrFailedWith (u := .vlan) h
  case arpDec => exact singleDecode_succeededOrFailedWith (u := .arp) h
  case ip4Dec => exact singleDecode_succeededOrFailedWith (u := .ip4) h
  case tcpDec => exact singleDecode_succeededOrFailedWith (u := .tcp) h
  case udpDec => exact singleDecode_succeededOrFailedWith (u := .udp) h
  case arpEnc => exact execArpEnc_succeededOrFailedWith h
  case illegal => exact .inr ⟨.illegalOp, .head _, raiseError_failedWith h⟩
  case ethEnc | vlanEnc | ip4Enc | tcpEnc | udpEnc => exact .inl (encoded_succeeded h)
  all_goals exact .inl (finish_succeeded h)

/-! ### The error kinds -/

/-- `STATUS` reports a success or one of the kinds. -/
def ReportsOneOf (kinds : List ErrKind) (t : State) : Prop := t.status.err = .none ∨ t.status.err ∈ kinds

theorem SucceededOrFailedWith.reportsOneOf {kinds : List ErrKind} {s t : State}
    (h : SucceededOrFailedWith kinds s t) : ReportsOneOf kinds t := by
  refine h.imp_right ?_
  rintro ⟨k, hk, ⟨u, x, a, hst⟩, -, -⟩
  rw [hst]
  exact hk

/-- FRAME_DEC fails only where one of its layers does. -/
theorem frameDecAt_reportsOneOf {cfg : Config} {s t : State} (h : frameDecAt cfg s = .next t) :
    ReportsOneOf (canRaise .frameDec) t := by
  refine frameDec_rule (fun _ _ => True) (ReportsOneOf (canRaise .frameDec)) (fun _ _ _ _ _ _ _ => trivial)
    (fun _ _ _ _ _ => trivial) (fun _ _ _ => .inl rfl) ?_ trivial h
  intro u w r r' k x a _ ho
  have hk : k ∈ canRaise .frameDec := by obtain ⟨rfl, -⟩ | ⟨-, rfl, -⟩ := layerOf_raised ho <;> decide
  exact .inr hk

theorem exec_reportsOneOf {i : Instr} {s t : State} (h : exec i s = .next t) : ReportsOneOf (canRaise i) t := by
  by_cases hi : i = .frameDec
  · subst hi
    exact frameDecAt_reportsOneOf h
  · exact (exec_succeededOrFailedWith hi h).reportsOneOf

/-- The table gives `MalformedLength` to no instruction (60_exceptions R273). -/
theorem malformedLength_not_mem_canRaise (i : Instr) : .malformedLength ∉ canRaise i := by cases i <;> simp [canRaise]

/-- Settles O57: FRAME_DEC reports the error of a layer, every other instruction fails with a kind of its own, and
`MalformedLength` is none of these kinds. -/
theorem instructionsRaiseOnlyTheirErrors : Obligations.InstructionsRaiseOnlyTheirErrors := by
  intro i s t h
  have herr := exec_reportsOneOf h
  refine ⟨herr, fun e => ?_⟩
  rw [ReportsOneOf, e] at herr
  exact herr.elim nofun (malformedLength_not_mem_canRaise i)

/-! ### What a failing operation changes -/

/-- Settles O58: a single-layer operation that reports an error has failed with it, and with nothing accumulated. -/
theorem failingOperationsChangeNothingElse : Obligations.FailingOperationsChangeNothingElse := by
  intro i s t hi h hne
  obtain ⟨k, -, ⟨u, x, a, hst⟩, hframe, honly⟩ := (exec_succeededOrFailedWith hi h).resolve_left hne
  rw [hst]
  exact ⟨hframe, honly, rfl, rfl, rfl, rfl⟩

end Sys2Proof.Machine
